-- ==== Sys2Proof/Word.lean ====
section
/-! DEFINITION. The word and the byte of the TaC (spec/00_scope.md R6, spec/20_memory.md R60, R61). -/

namespace Sys2Proof

/-- A 16-bit datum: a register, an address, an instruction word (R6, R8). -/
abbrev Word := BitVec 16

/-- An 8-bit datum, held in memory and I/O cells only (R6, R61). -/
abbrev Byte := BitVec 8

end Sys2Proof
end

