-- ==== Sys2Proof/Config.lean ====
section
/-! DEFINITION. What the spec leaves to the implementation or to the devices: every constant here is opaque, so
nothing can be proved of its value and a theorem about the model holds whatever it is. Each takes the
counter of instruction boundaries (`State.clock`), so that every use may differ. That two uses with the same arguments agree
is a DESIGN CHOICE (log entry 5), unsafe for a claim that compares them. -/

namespace Sys2Proof

/-- The lines on which a device presents something to an IN (spec/60_exceptions.md R310 to R326). -/
inductive DeviceLine where
  | timer0Current | timer0Flag | timer1Current | timer1Flag
  | ftData | ftTxReady | ftRxReady
  | tecData | tecTxReady | tecRxReady
  | rnData | rnTxReady | rnRxReady
  | usdIdle | usdError | usdCard
  | extIn
  | tecLamps | tecCtl
  | dataSwitches | addressRegister | rotarySwitch | functionRegister
  /-- where the spec gives a port no value -/
  | openBus
deriving DecidableEq, Repr

/-- The places of a step between two of the CPU's memory accesses, each named by the access it comes before
(spec/20_memory.md R80): the fetches of the two words, the operand's read or the write, RETI's second read, and the three
accesses of a trap entry. -/
inductive BusSlot where
  | firstWord | secondWord | operand | secondPop | pushPc | pushFlag | vector
deriving DecidableEq, Repr

/-- The four shift instructions (spec/43_shift.md R180 to R183). -/
inductive ShiftKind where
  | shla | shll | shra | shrl
deriving DecidableEq, Repr

/-- What a device presents at an instruction boundary: any value (R75, R273; U21, U31). Log entries 20, 22. -/
opaque Config.deviceWord : Nat → DeviceLine → Word

/-- Which of the ten sources would request at a boundary, before their enables (R273; U22). Log entry 19. -/
opaque Config.requests : Nat → BitVec 10

/-- The cells the micro SD controller stores between two accesses of the CPU (R315, R69, R80). Log entry 23. -/
opaque Config.usdStores : Nat → BusSlot → List (Word × Byte)

/-- The result of a shift by 16 or more (spec/43_shift.md R184; U8), by the clock, the instruction, the old Rd and the count.
That it depends on nothing else, so not on the number of Rd or on FLAG, is a DESIGN CHOICE (log entry 9), unsafe. -/
opaque Config.shiftResult : Nat → ShiftKind → Word → Word → Word

/-- The carry of a shift by 16 or more (R184; U8), by the same and, as a DESIGN CHOICE (log entry 9), nothing else. -/
opaque Config.shiftCarry : Nat → ShiftKind → Word → Word → Bool

/-- The bit positions a shift by 16 or more takes, for its state count (R184, R363), by the clock, the instruction and the
count; that it depends on nothing else is a DESIGN CHOICE (log entry 31), unsafe. -/
opaque Config.shiftSteps : Nat → ShiftKind → Word → Nat

end Sys2Proof
end

