-- ==== Sys2Proof/Syntax/Operand.lean ====
section
/-! DEFINITION. The operand forms of the TaC: register names and the four groups of addressing forms
(spec/10_state.md R22, spec/30_encoding.md R104, R110 to R119). -/

namespace Sys2Proof

/-- A register field's meaning (R22): 0h to Bh are G0 to G11, Ch is FP, Dh is SP (SSP or USP by the
flag P), Eh is USP and Fh is PC, whose use as an operand the spec gives no meaning (R24). -/
inductive Reg where
  | g (n : Fin 12)
  | fp
  | sp
  | usp
  | pc
deriving DecidableEq, Repr

/-- The five forms that name a memory cell (R110, R111, R113, R116, R117). -/
inductive MemEA where
  /-- (*0) `Dsp` -/
  | direct (dsp : Word)
  /-- (*1) `Dsp,Rx` -/
  | indexed (dsp : Word) (rx : Reg)
  /-- (*3) `Dsp4,FP`; the field holds D4 = Dsp4 / 2 -/
  | fpRel (d4 : BitVec 4)
  /-- (*6) `0,Rx` -/
  | indirect (rx : Reg)
  /-- (*7) `@Rx`, 8-bit data -/
  | byteIndirect (rx : Reg)
deriving DecidableEq, Repr

/-- The eight operand forms (*0) to (*7) of the instructions that read `[EA]` (R104). -/
inductive EA where
  | mem (m : MemEA)
  /-- (*2) `#Imm` (R112) -/
  | imm (v : Word)
  /-- (*4) `Rs` (R114) -/
  | reg (rs : Reg)
  /-- (*5) `#Imm4` (R115) -/
  | imm4 (i4 : BitVec 4)
deriving DecidableEq, Repr

/-- The three forms of the jumps and CALL, whose value is an address (R118, R190). -/
inductive Target where
  | direct (dsp : Word)
  | indexed (dsp : Word) (rx : Reg)
  | indirect (rx : Reg)
deriving DecidableEq, Repr

/-- The three forms of IN and OUT, whose value is an I/O address (R118, R220, R221). -/
inductive IoEA where
  | direct (dsp : Word)
  | indirect (rx : Reg)
  /-- the 8-bit form -/
  | byteIndirect (rx : Reg)
deriving DecidableEq, Repr

end Sys2Proof
end

