-- ==== Sys2Proof/Syntax.lean ====
section
/-! DEFINITION. The instructions of the TaC: one constructor for each of the 46 instructions of the
instruction table (spec/00_scope.md R2, spec/30_encoding.md R119, R120). A row of spec/opcode_table.json is
a constructor together with one of its operand forms; the condition codes of the jump rows are
constructors of their own. -/

namespace Sys2Proof

inductive Instr where
  | no
  | ld (rd : Reg) (ea : EA)
  | ldFlag (rd : Reg)
  | st (rd : Reg) (ea : MemEA)
  | add (rd : Reg) (ea : EA)
  | sub (rd : Reg) (ea : EA)
  | cmp (rd : Reg) (ea : EA)
  | and (rd : Reg) (ea : EA)
  | or (rd : Reg) (ea : EA)
  | xor (rd : Reg) (ea : EA)
  | adds (rd : Reg) (ea : EA)
  | mul (rd : Reg) (ea : EA)
  | div (rd : Reg) (ea : EA)
  | mod (rd : Reg) (ea : EA)
  | mull (rd : Reg) (ea : EA)
  | divl (rd : Reg) (ea : EA)
  | shla (rd : Reg) (ea : EA)
  | shll (rd : Reg) (ea : EA)
  | shra (rd : Reg) (ea : EA)
  | shrl (rd : Reg) (ea : EA)
  | jz (t : Target)
  | jc (t : Target)
  | jm (t : Target)
  | jo (t : Target)
  | jgt (t : Target)
  | jge (t : Target)
  | jle (t : Target)
  | jlt (t : Target)
  | jnz (t : Target)
  | jnc (t : Target)
  | jnm (t : Target)
  | jno (t : Target)
  | jhi (t : Target)
  | jls (t : Target)
  | jmp (t : Target)
  | call (t : Target)
  | inp (rd : Reg) (ea : IoEA)
  | out (rd : Reg) (ea : IoEA)
  | push (rd : Reg)
  | pop (rd : Reg)
  | ret
  | reti
  | ei
  | di
  | svc
  | halt
deriving DecidableEq, Repr

end Sys2Proof
end

