-- ==== Sys2Proof/WellFormed.lean ====
section
/-! DEFINITION. Which instruction terms the spec gives a meaning (spec/30_encoding.md R124): no register field
holds Fh, PC (spec/10_state.md R24; U3), and the Rd of MULL and DIVL heads a register pair (spec/42_muldiv.md R173; U4). -/

namespace Sys2Proof

/-- The register is not number Fh (R24). -/
def Reg.named (r : Reg) : Bool := decide (r ≠ .pc)

/-- The registers a pair may start at: 0, 2, 4, 6, 8, Ah and Ch (R173). -/
def Reg.headsPair : Reg → Bool
  | .g n => n.val % 2 == 0
  | .fp => true
  | .sp | .usp | .pc => false

def MemEA.named : MemEA → Bool
  | .direct _ | .fpRel _ => true
  | .indexed _ rx | .indirect rx | .byteIndirect rx => rx.named

def EA.named : EA → Bool
  | .mem m => m.named
  | .imm _ | .imm4 _ => true
  | .reg rs => rs.named

def Target.named : Target → Bool
  | .direct _ => true
  | .indexed _ rx | .indirect rx => rx.named

def IoEA.named : IoEA → Bool
  | .direct _ => true
  | .indirect rx | .byteIndirect rx => rx.named

/-- No register field of the instruction is Fh (R24). -/
def Instr.named : Instr → Bool
  | .no | .ret | .reti | .ei | .di | .svc | .halt => true
  | .ldFlag rd | .push rd | .pop rd => rd.named
  | .st rd m => rd.named && m.named
  | .inp rd p | .out rd p => rd.named && p.named
  | .ld rd ea | .add rd ea | .sub rd ea | .cmp rd ea | .and rd ea | .or rd ea | .xor rd ea | .adds rd ea
  | .mul rd ea | .div rd ea | .mod rd ea | .mull rd ea | .divl rd ea
  | .shla rd ea | .shll rd ea | .shra rd ea | .shrl rd ea => rd.named && ea.named
  | .jz t | .jc t | .jm t | .jo t | .jgt t | .jge t | .jle t | .jlt t
  | .jnz t | .jnc t | .jnm t | .jno t | .jhi t | .jls t | .jmp t | .call t => t.named

/-- The Rd of MULL and DIVL heads a pair (R173). -/
def Instr.paired : Instr → Bool
  | .mull rd _ | .divl rd _ => rd.headsPair
  | .no | .ret | .reti | .ei | .di | .svc | .halt => true
  | .ldFlag _ | .push _ | .pop _ => true
  | .st _ _ | .inp _ _ | .out _ _ => true
  | .ld _ _ | .add _ _ | .sub _ _ | .cmp _ _ | .and _ _ | .or _ _ | .xor _ _ | .adds _ _
  | .mul _ _ | .div _ _ | .mod _ _
  | .shla _ _ | .shll _ _ | .shra _ _ | .shrl _ _ => true
  | .jz _ | .jc _ | .jm _ | .jo _ | .jgt _ | .jge _ | .jle _ | .jlt _
  | .jnz _ | .jnc _ | .jnm _ | .jno _ | .jhi _ | .jls _ | .jmp _ | .call _ => true

/-- The instruction has a meaning in the spec. -/
def Instr.wellFormed (i : Instr) : Bool := i.named && i.paired

end Sys2Proof
end

