-- ==== Sys2Proof/Decode.lean ====
section
/-! DEFINITION. The decoder, total on any words and any bytes (spec/30_encoding.md R100 to R126), and after it the
encoder, written from the same formats. -/

namespace Sys2Proof

/-! ## Fields of the first word (R100, R102) -/

/-- OP, bits 15..8. -/
def opField (w : Word) : BitVec 8 := w.extractLsb' 8 8

/-- Rd, bits 7..4; the condition code of a jump (R105). -/
def rdField (w : Word) : BitVec 4 := w.extractLsb' 4 4

/-- Rx, Rs, D4 or I4, bits 3..0. -/
def rxField (w : Word) : BitVec 4 := w.extractLsb' 0 4

/-- The row of the OP map, OP[7:3]. -/
def opRow (w : Word) : Nat := (opField w).toNat / 8

/-- The column of the OP map, OP[2:0]. -/
def opColumn (w : Word) : Nat := (opField w).toNat % 8

/-- The register a field selects (spec/10_state.md R22). -/
def Reg.ofField (v : BitVec 4) : Reg :=
  if h : v.toNat < 12 then .g ⟨v.toNat, h⟩
  else if v = 0xC then .fp
  else if v = 0xD then .sp
  else if v = 0xE then .usp
  else .pc

/-- Two bytes as a word, the byte at the even address first (spec/20_memory.md R62). -/
def joinBytes (hi lo : Byte) : Word := hi ++ lo

/-- Bits 15..8 of a word, the byte at the even address (R62). -/
def hiByte (w : Word) : Byte := w.extractLsb' 8 8

/-- Bits 7..0 of a word (R62). -/
def loByte (w : Word) : Byte := w.extractLsb' 0 8

/-! ## The OP map (R121) -/

/-- The non-blank columns of a row of the OP map. -/
def opColumns : Nat → List Nat
  | 0x00 => [0]
  | 0x01 => [0, 1, 2, 3, 4, 5, 6, 7]
  | 0x02 => [0, 1, 3, 4, 6, 7]
  | 0x03 | 0x04 | 0x05 | 0x06 | 0x07 | 0x08 | 0x09 | 0x0A | 0x0B | 0x0C | 0x0D | 0x0E =>
      [0, 1, 2, 3, 4, 5, 6, 7]
  | 0x10 | 0x11 | 0x12 | 0x13 => [0, 1, 2, 3, 4, 5, 6, 7]
  | 0x14 | 0x15 => [0, 1, 6]
  | 0x16 | 0x17 => [0, 6, 7]
  | 0x18 | 0x1A | 0x1C => [0, 4]
  | 0x1E => [0]
  | 0x1F => [7]
  | _ => []

/-- The cell of the first word's OP is not blank (R122). -/
def opDefined (w : Word) : Bool := (opColumns (opRow w)).contains (opColumn w)

/-- The instruction has a second word: rows 00001 to 10111, columns 0 to 2 (R103). -/
def hasSecondWord (w : Word) : Bool :=
  decide (1 ≤ opRow w) && decide (opRow w ≤ 0x17) && decide (opColumn w ≤ 2)

/-! ## Decoding -/

/-- Why words are no instruction with a meaning. -/
inductive DecodeError where
  /-- a blank cell of the OP map: the undefined instruction exception (R122) -/
  | undefinedOp
  /-- a nonzero value in a field the format shows as 0h (R123; U1) -/
  | nonzeroField
  /-- a jump with condition code Dh (R125; U2) -/
  | conditionD
  /-- register number Fh in a register field (R124, R24; U3) -/
  | registerF
  /-- MULL or DIVL with an Rd that heads no pair (R124, R173; U4) -/
  | oddPair
  /-- the bytes end before the instruction does -/
  | truncated
deriving DecidableEq, Repr

/-- A field that must be zero (R123). -/
def zeroField {α : Type} (v : BitVec 4) (a : α) : Except DecodeError α :=
  if v = 0 then .ok a else .error .nonzeroField

/-- The memory forms (*0), (*1), (*3), (*6), (*7) by column (R104). -/
def decodeMemEA (w1 w2 : Word) : Except DecodeError MemEA :=
  match opColumn w1 with
  | 0 => zeroField (rxField w1) (.direct w2)
  | 1 => .ok (.indexed w2 (Reg.ofField (rxField w1)))
  | 3 => .ok (.fpRel (rxField w1))
  | 6 => .ok (.indirect (Reg.ofField (rxField w1)))
  | 7 => .ok (.byteIndirect (Reg.ofField (rxField w1)))
  | _ => .error .undefinedOp

/-- The eight forms (*0) to (*7) by column (R104). -/
def decodeEA (w1 w2 : Word) : Except DecodeError EA :=
  match opColumn w1 with
  | 2 => zeroField (rxField w1) (.imm w2)
  | 4 => .ok (.reg (Reg.ofField (rxField w1)))
  | 5 => .ok (.imm4 (rxField w1))
  | _ => (decodeMemEA w1 w2).map .mem

/-- The forms (*0), (*1), (*6) of the jumps and CALL (R118, R119). -/
def decodeTarget (w1 w2 : Word) : Except DecodeError Target :=
  match opColumn w1 with
  | 0 => zeroField (rxField w1) (.direct w2)
  | 1 => .ok (.indexed w2 (Reg.ofField (rxField w1)))
  | 6 => .ok (.indirect (Reg.ofField (rxField w1)))
  | _ => .error .undefinedOp

/-- The forms (*0), (*6), (*7) of IN and OUT (R118, R119). -/
def decodeIoEA (w1 w2 : Word) : Except DecodeError IoEA :=
  match opColumn w1 with
  | 0 => zeroField (rxField w1) (.direct w2)
  | 6 => .ok (.indirect (Reg.ofField (rxField w1)))
  | 7 => .ok (.byteIndirect (Reg.ofField (rxField w1)))
  | _ => .error .undefinedOp

/-- An instruction `OP Rd,EA`. -/
def decodeRdEA (w1 w2 : Word) (k : Reg → EA → Instr) : Except DecodeError Instr :=
  (decodeEA w1 w2).map (k (Reg.ofField (rdField w1)))

/-- Format (*8): the low field is 0h (R104, R123). -/
def decodeRd (w1 : Word) (k : Reg → Instr) : Except DecodeError Instr :=
  zeroField (rxField w1) (k (Reg.ofField (rdField w1)))

/-- Format (*9): both 4-bit fields are 0h (R104, R105, R123). -/
def decodeBare (w1 : Word) (i : Instr) : Except DecodeError Instr :=
  if rdField w1 = 0 ∧ rxField w1 = 0 then .ok i else .error .nonzeroField

/-- The jump a condition code selects (R125). -/
def jumpOfCode (cc : BitVec 4) (t : Target) : Except DecodeError Instr :=
  match cc.toNat with
  | 0x0 => .ok (.jz t)
  | 0x1 => .ok (.jc t)
  | 0x2 => .ok (.jm t)
  | 0x3 => .ok (.jo t)
  | 0x4 => .ok (.jgt t)
  | 0x5 => .ok (.jge t)
  | 0x6 => .ok (.jle t)
  | 0x7 => .ok (.jlt t)
  | 0x8 => .ok (.jnz t)
  | 0x9 => .ok (.jnc t)
  | 0xA => .ok (.jnm t)
  | 0xB => .ok (.jno t)
  | 0xC => .ok (.jhi t)
  | 0xE => .ok (.jls t)
  | 0xF => .ok (.jmp t)
  | _ => .error .conditionD

/-- The instruction the OP map gives (R119 to R121), with the zero fields and the condition code checked
(R123, R125). -/
def parseWords (w1 w2 : Word) : Except DecodeError Instr :=
  match opRow w1 with
  | 0x00 => decodeBare w1 .no
  | 0x01 => decodeRdEA w1 w2 .ld
  | 0x02 =>
    if opColumn w1 = 4 then decodeRd w1 .ldFlag
    else (decodeMemEA w1 w2).map (.st (Reg.ofField (rdField w1)))
  | 0x03 => decodeRdEA w1 w2 .add
  | 0x04 => decodeRdEA w1 w2 .sub
  | 0x05 => decodeRdEA w1 w2 .cmp
  | 0x06 => decodeRdEA w1 w2 .and
  | 0x07 => decodeRdEA w1 w2 .or
  | 0x08 => decodeRdEA w1 w2 .xor
  | 0x09 => decodeRdEA w1 w2 .adds
  | 0x0A => decodeRdEA w1 w2 .mul
  | 0x0B => decodeRdEA w1 w2 .div
  | 0x0C => decodeRdEA w1 w2 .mod
  | 0x0D => decodeRdEA w1 w2 .mull
  | 0x0E => decodeRdEA w1 w2 .divl
  | 0x10 => decodeRdEA w1 w2 .shla
  | 0x11 => decodeRdEA w1 w2 .shll
  | 0x12 => decodeRdEA w1 w2 .shra
  | 0x13 => decodeRdEA w1 w2 .shrl
  | 0x14 => (decodeTarget w1 w2).bind (jumpOfCode (rdField w1))
  | 0x15 => (decodeTarget w1 w2).bind fun t => zeroField (rdField w1) (.call t)
  | 0x16 => (decodeIoEA w1 w2).map (.inp (Reg.ofField (rdField w1)))
  | 0x17 => (decodeIoEA w1 w2).map (.out (Reg.ofField (rdField w1)))
  | 0x18 => if opColumn w1 = 0 then decodeRd w1 .push else decodeRd w1 .pop
  | 0x1A => if opColumn w1 = 0 then decodeBare w1 .ret else decodeBare w1 .reti
  | 0x1C => if opColumn w1 = 0 then decodeBare w1 .ei else decodeBare w1 .di
  | 0x1E => decodeBare w1 .svc
  | 0x1F => decodeBare w1 .halt
  | _ => .error .undefinedOp

/-- The register restrictions (R124). -/
def checkRegisters (i : Instr) : Except DecodeError Instr :=
  if i.named = false then .error .registerF
  else if i.paired = false then .error .oddPair
  else .ok i

/-- The decoding procedure on an instruction's words (R126); a one-word instruction ignores `w2`. -/
def decodeWords (w1 w2 : Word) : Except DecodeError Instr :=
  if opDefined w1 then (parseWords w1 w2).bind checkRegisters else .error .undefinedOp

/-- The decoder on bytes in address order: the instruction and the bytes after it. -/
def decode : List Byte → Except DecodeError (Instr × List Byte)
  | b0 :: b1 :: rest =>
    let w1 := joinBytes b0 b1
    if opDefined w1 && hasSecondWord w1 then
      match rest with
      | b2 :: b3 :: rest' => (decodeWords w1 (joinBytes b2 b3)).map (·, rest')
      | _ => .error .truncated
    else (decodeWords w1 0).map (·, rest)
  | _ => .error .truncated

/-! ## Encoding -/

/-- The field of a register (spec/10_state.md R22). -/
def Reg.field : Reg → BitVec 4
  | .g n => BitVec.ofNat 4 n.val
  | .fp => 0xC
  | .sp => 0xD
  | .usp => 0xE
  | .pc => 0xF

/-- The first word `OP Rd Rx` (R100). -/
def firstWord (op : BitVec 8) (rd rx : BitVec 4) : Word := op ++ (rd ++ rx)

/-- `base` is the OP of column 0 (R102, R119). -/
def encodeMemEA (base : BitVec 8) (rd : BitVec 4) : MemEA → List Word
  | .direct dsp => [firstWord base rd 0, dsp]
  | .indexed dsp rx => [firstWord (base + 1) rd rx.field, dsp]
  | .fpRel d4 => [firstWord (base + 3) rd d4]
  | .indirect rx => [firstWord (base + 6) rd rx.field]
  | .byteIndirect rx => [firstWord (base + 7) rd rx.field]

def encodeEA (base : BitVec 8) (rd : Reg) : EA → List Word
  | .mem m => encodeMemEA base rd.field m
  | .imm v => [firstWord (base + 2) rd.field 0, v]
  | .reg rs => [firstWord (base + 4) rd.field rs.field]
  | .imm4 i4 => [firstWord (base + 5) rd.field i4]

def encodeTarget (base : BitVec 8) (cc : BitVec 4) : Target → List Word
  | .direct dsp => [firstWord base cc 0, dsp]
  | .indexed dsp rx => [firstWord (base + 1) cc rx.field, dsp]
  | .indirect rx => [firstWord (base + 6) cc rx.field]

def encodeIoEA (base : BitVec 8) (rd : Reg) : IoEA → List Word
  | .direct dsp => [firstWord base rd.field 0, dsp]
  | .indirect rx => [firstWord (base + 6) rd.field rx.field]
  | .byteIndirect rx => [firstWord (base + 7) rd.field rx.field]

/-- The words of an instruction (R104, R119, R120, R125). -/
def encode : Instr → List Word
  | .no => [firstWord 0x00 0 0]
  | .ld rd ea => encodeEA 0x08 rd ea
  | .ldFlag rd => [firstWord 0x14 rd.field 0]
  | .st rd m => encodeMemEA 0x10 rd.field m
  | .add rd ea => encodeEA 0x18 rd ea
  | .sub rd ea => encodeEA 0x20 rd ea
  | .cmp rd ea => encodeEA 0x28 rd ea
  | .and rd ea => encodeEA 0x30 rd ea
  | .or rd ea => encodeEA 0x38 rd ea
  | .xor rd ea => encodeEA 0x40 rd ea
  | .adds rd ea => encodeEA 0x48 rd ea
  | .mul rd ea => encodeEA 0x50 rd ea
  | .div rd ea => encodeEA 0x58 rd ea
  | .mod rd ea => encodeEA 0x60 rd ea
  | .mull rd ea => encodeEA 0x68 rd ea
  | .divl rd ea => encodeEA 0x70 rd ea
  | .shla rd ea => encodeEA 0x80 rd ea
  | .shll rd ea => encodeEA 0x88 rd ea
  | .shra rd ea => encodeEA 0x90 rd ea
  | .shrl rd ea => encodeEA 0x98 rd ea
  | .jz t => encodeTarget 0xA0 0x0 t
  | .jc t => encodeTarget 0xA0 0x1 t
  | .jm t => encodeTarget 0xA0 0x2 t
  | .jo t => encodeTarget 0xA0 0x3 t
  | .jgt t => encodeTarget 0xA0 0x4 t
  | .jge t => encodeTarget 0xA0 0x5 t
  | .jle t => encodeTarget 0xA0 0x6 t
  | .jlt t => encodeTarget 0xA0 0x7 t
  | .jnz t => encodeTarget 0xA0 0x8 t
  | .jnc t => encodeTarget 0xA0 0x9 t
  | .jnm t => encodeTarget 0xA0 0xA t
  | .jno t => encodeTarget 0xA0 0xB t
  | .jhi t => encodeTarget 0xA0 0xC t
  | .jls t => encodeTarget 0xA0 0xE t
  | .jmp t => encodeTarget 0xA0 0xF t
  | .call t => encodeTarget 0xA8 0x0 t
  | .inp rd p => encodeIoEA 0xB0 rd p
  | .out rd p => encodeIoEA 0xB8 rd p
  | .push rd => [firstWord 0xC0 rd.field 0]
  | .pop rd => [firstWord 0xC4 rd.field 0]
  | .ret => [firstWord 0xD0 0 0]
  | .reti => [firstWord 0xD4 0 0]
  | .ei => [firstWord 0xE0 0 0]
  | .di => [firstWord 0xE4 0 0]
  | .svc => [firstWord 0xF0 0 0]
  | .halt => [firstWord 0xFF 0 0]

/-- The bytes of an instruction in address order (spec/20_memory.md R62, R64). -/
def encodeBytes (i : Instr) : List Byte := (encode i).flatMap fun w => [hiByte w, loByte w]

/-! ## The table's words -/

/-- The four bytes of an instruction whose bits, numbered from the first word's bit 0 up, are the low `nbits` of `w`. -/
def tableBytes (nbits w : Nat) : List Byte :=
  let v := w % 2 ^ nbits
  let w1 : Word := BitVec.ofNat 16 v
  let w2 : Word := BitVec.ofNat 16 (v / 2 ^ 16)
  [hiByte w1, loByte w1, hiByte w2, loByte w2]

/-- What the decoder reads from an instruction numbered as spec/opcode_table.json numbers its bits. -/
def decodeTableWord (nbits w : Nat) : Option Instr :=
  match decode (tableBytes nbits w) with
  | .ok (i, _) => some i
  | .error _ => none

end Sys2Proof
end

