-- ==== Sys2Proof/Machine/State.lean ====
section
/-! DEFINITION. The state of the TaC (spec/10_state.md R20 to R45, spec/60_exceptions.md R310 to R326), its traps'
causes, the reasons a step can stop, and the state after reset. -/

namespace Sys2Proof.Machine

/-! ## CPU registers -/

/-- FLAG (R28, R30): the seven flags; bits 15..8 and 4 are wired to 0 (R29) and are not held. -/
structure Flag where
  /-- interrupts are accepted -/
  e : Bool
  /-- privileged mode -/
  p : Bool
  /-- IN and OUT are allowed in user mode -/
  i : Bool
  /-- signed overflow -/
  v : Bool
  /-- carry or borrow -/
  c : Bool
  /-- sign -/
  s : Bool
  /-- zero -/
  z : Bool
deriving DecidableEq, Repr

/-- The places a register number can name (R20 to R23): the registers themselves, SP resolved. -/
inductive Home where
  | g (n : Fin 12)
  | fp
  | ssp
  | usp
deriving DecidableEq, Repr

/-! ## Memory and the MMU -/

/-- The memory space (spec/20_memory.md R60): the listed cells, addresses rising, none listed that holds what an unlisted
cell reads as (`Memory.wf`). -/
abbrev Memory := List Host.Cell

/-- The MMU (R77): enable bit, base and limit registers. -/
structure Mmu where
  en : Bool
  base : Word
  limit : Word
deriving DecidableEq, Repr

/-! ## Devices (spec/60_exceptions.md section 7) -/

/-- A timer (R310, R311; spec/10_state.md R43). -/
structure Timer where
  period : Word
  current : Word
  flag : Word
  /-- control bit 15, I -/
  intEna : Bool
  /-- control bit 0, S -/
  start : Bool
deriving DecidableEq, Repr

/-- A serial-type device (R313; spec/10_state.md R43). -/
structure Serial where
  /-- what an IN of the Data port reads -/
  received : Byte
  /-- what the last OUT to the Data port sent -/
  sent : Byte
  txReady : Bool
  rxReady : Bool
  /-- Ctrl bit 7 -/
  txIntEna : Bool
  /-- Ctrl bit 6 -/
  rxIntEna : Bool
deriving DecidableEq, Repr

/-- The micro SD controller (R315). -/
structure Usd where
  idle : Bool
  error : Bool
  /-- Card Detection, active 0 -/
  card : Bool
  /-- Ctrl bit 7, INT_ENA -/
  intEna : Bool
  init : Bool
  read : Bool
  write : Bool
  memAddr : Word
  blkAddrH : Word
  blkAddrL : Word
  /-- a READ or a WRITE has been commanded since reset, so the controller may act on memory (log entry 23) -/
  commanded : Bool
deriving DecidableEq, Repr

/-- The extension port and the ADC reference (R316). -/
structure ExtPort where
  input : Byte
  output : Byte
  adcRef : Byte
  /-- port 1Dh, M -/
  hiMode : Bool
  /-- port 1Dh, VVVV -/
  hiValue : BitVec 4
deriving DecidableEq, Repr

/-- The ports by which the CPU works the TeC's console (R321). -/
structure TecConsole where
  lamps : Byte
  switches : Byte
  function : Byte
  ctlWritten : Byte
  ctlRead : Byte
deriving DecidableEq, Repr

/-- The TaC's own console (R326). -/
structure Console where
  dataSwitches : Word
  dataRegister : Word
  addressRegister : Word
  rotary : BitVec 5
  function : BitVec 4
deriving DecidableEq, Repr

/-- All devices behind the I/O space but the MMU. -/
structure Devices where
  timer0 : Timer
  timer1 : Timer
  ft232rl : Serial
  tec : Serial
  rn4020 : Serial
  /-- RN4020-Cmd, FHCS (R314) -/
  rnCmd : BitVec 4
  /-- RN4020-RAM (R314) -/
  rnRam : Byte
  usd : Usd
  ext : ExtPort
  tecConsole : TecConsole
  console : Console
  /-- the MODEL's own: what an IN reads where the spec gives a port no value (log entry 22) -/
  bus : Word
deriving DecidableEq, Repr

/-- One OUT access, recorded as an event (spec/20_memory.md R75). -/
inductive IoEvent where
  | byte (addr : BitVec 8) (v : Byte)
  | word (addr : BitVec 8) (v : Word)
deriving DecidableEq, Repr

/-! ## The machine -/

structure State where
  g : Vector Word 12
  fp : Word
  ssp : Word
  usp : Word
  pc : Word
  flag : Flag
  /-- R43, spec/47_system.md R243 -/
  halted : Bool
  /-- bit k is source k's pending bit (R43, spec/60_exceptions.md R274) -/
  pending : BitVec 10
  mem : Memory
  mmu : Mmu
  dev : Devices
  /-- the OUT accesses so far, newest first (spec/20_memory.md R75) -/
  ioLog : List IoEvent
  /-- the MODEL's own: instruction boundaries passed, the argument of the free values (log entry 5) -/
  clock : Nat
deriving DecidableEq, Repr

/-! ## Causes, faults, refusals -/

/-- The sixteen causes of the vector table, in its order (spec/60_exceptions.md R260). -/
inductive Cause where
  | timer0 | timer1
  | rn4020Receive | rn4020Transmit
  | ft232rlReceive | ft232rlTransmit
  | tecReceive | tecTransmit
  | usd | adc
  | invalidAddress | memoryProtection
  | zeroDivide | privilegeViolation | undefinedInstruction | svc
deriving DecidableEq, Repr

inductive Fault where
  /-- Raised by `step` on a halted CPU, which executes nothing until reset (spec/47_system.md R243; U25). Safe: the
  model stops where the hardware does. -/
  | halted
deriving DecidableEq, Repr

inductive Refusal where
  /-- Raised by an arm of `exec` whose instruction has no meaning yet. Safe: no behaviour is claimed. -/
  | notModelled (mnemonic : String)
  /-- Raised by the decoder on a nonzero value in a field shown as 0h (spec/30_encoding.md R123; U1). Safe. -/
  | nonzeroField
  /-- Raised by the decoder on a jump with condition code Dh (R125; U2). Safe. -/
  | conditionD
  /-- Raised on register number Fh in a register field (spec/10_state.md R24; U3). Safe. -/
  | registerF
  /-- Raised on MULL or DIVL whose Rd heads no register pair (spec/42_muldiv.md R173; U4). Safe. -/
  | oddPair
  /-- Raised by DIVL when its quotient needs more than 16 bits (spec/42_muldiv.md R175; U7). Safe. -/
  | quotientOverflow
  /-- Raised by PUSH and POP of the current stack pointer (spec/46_stack_return.md R230, R231; U12). Safe. -/
  | ownStackPointer
  /-- Raised by a store whose physical address lies in F000h-FFDFh (spec/20_memory.md R72; U9). Safe. -/
  | romStore
  /-- Raised by a 16-bit IN or OUT at an odd I/O address (R74; U10). Safe. -/
  | oddIoAddress
  /-- Raised when the pushes of a trap entry cannot be made: SSP odd, or in ROM (spec/60_exceptions.md R282; U13). Safe. -/
  | trapEntry
deriving DecidableEq, Repr

/-! ## Reset (spec/10_state.md R45, spec/70_reset_and_hazards.md R341) -/

/-- FLAG after reset, 0040h: privileged, interrupts masked (R45). -/
def Flag.reset : Flag :=
  { e := false, p := true, i := false, v := false, c := false, s := false, z := false }

/-- I = 0, S = 0, flag 0 (R45); period and current value DESIGN CHOICE, log entry 4. -/
def Timer.reset : Timer :=
  { period := 0, current := 0, flag := 0, intEna := false, start := false }

/-- Interrupt enables 0 (R45); the rest DESIGN CHOICE, log entry 4. -/
def Serial.reset : Serial :=
  { received := 0, sent := 0, txReady := false, rxReady := false, txIntEna := false, rxIntEna := false }

/-- E = 0 (R45); the rest DESIGN CHOICE, log entry 4. -/
def Usd.reset : Usd :=
  { idle := false, error := false, card := false, intEna := false, init := false, read := false, write := false,
    memAddr := 0, blkAddrH := 0, blkAddrL := 0, commanded := false }

/-- The devices after reset: RN4020-Cmd is 0001 and RN4020-RAM, `rnRam`, is as it was before (R45); other values
DESIGN CHOICE, log entry 4. -/
def Devices.resetKeeping (rnRam : Byte) : Devices :=
  { timer0 := Timer.reset, timer1 := Timer.reset
    ft232rl := Serial.reset, tec := Serial.reset, rn4020 := Serial.reset
    rnCmd := 1, rnRam := rnRam, usd := Usd.reset
    ext := { input := 0, output := 0, adcRef := 0, hiMode := false, hiValue := 0 }
    tecConsole := { lamps := 0, switches := 0, function := 0, ctlWritten := 0, ctlRead := 0 }
    console := { dataSwitches := 0, dataRegister := 0, addressRegister := 0, rotary := 0, function := 0 }
    bus := 0 }

/-- The machine right after a reset that found `rnRam` in RN4020-RAM: PC = F000h, FLAG = 0040h, not halted, nothing
pending, MMU off (R45). General registers, FP, SSP, USP: DESIGN CHOICE 0, log entry 1. Memory: nothing listed,
log entry 2. -/
def State.resetKeeping (rnRam : Byte) : State :=
  { g := Vector.replicate 12 0, fp := 0, ssp := 0, usp := 0, pc := 0xF000, flag := Flag.reset
    halted := false, pending := 0, mem := []
    mmu := { en := false, base := 0, limit := 0 }
    dev := Devices.resetKeeping rnRam, ioLog := [], clock := 0 }

/-- The machine right after reset, with 00h in RN4020-RAM (log entry 33). -/
def State.reset : State := State.resetKeeping 0

end Sys2Proof.Machine
end

