-- ==== Sys2Proof/Machine/Memory.lean ====
section
/-! DEFINITION. Reading and writing one cell of memory, and the canonical form of memory (spec/20_memory.md R60, R70). -/

namespace Sys2Proof.Machine

/-- What an unlisted cell reads as: the spec gives RAM, vector table and ROM no contents at reset
(spec/10_state.md R45; U24). DESIGN CHOICE, unsafe: log entry 2. -/
def Memory.unlisted : Byte := 0

/-- The byte at an address. -/
def Memory.read : Memory → Nat → Byte
  | [], _ => Memory.unlisted
  | (k, v) :: rest, a => if a = k then v else Memory.read rest a

/-- The cells without any at an address. -/
def Memory.erase : Memory → Nat → Memory
  | [], _ => []
  | (k, v) :: rest, a => if a = k then Memory.erase rest a else (k, v) :: Memory.erase rest a

/-- The cells with a byte listed at an address, in rising order. -/
def Memory.insert : Memory → Nat → Byte → Memory
  | [], a, b => [(a, b)]
  | (k, v) :: rest, a, b =>
    if a < k then (a, b) :: (k, v) :: rest
    else if a = k then (a, b) :: rest
    else (k, v) :: Memory.insert rest a b

/-- Memory with one byte written. -/
def Memory.write (m : Memory) (a : Nat) (b : Byte) : Memory :=
  if b = Memory.unlisted then Memory.erase m a else Memory.insert m a b

/-- The cells rise strictly from `lo`, lie in the space of 65536 cells and hold no unlisted value. -/
def Memory.wfFrom : Nat → Memory → Bool
  | _, [] => true
  | lo, (k, v) :: rest =>
    decide (lo ≤ k) && decide (k < 0x10000) && decide (v ≠ Memory.unlisted) && Memory.wfFrom (k + 1) rest

/-- The canonical form. -/
def Memory.wf (m : Memory) : Bool := Memory.wfFrom 0 m

/-- The ROM, F000h to FFDFh (R70). -/
def inRom (a : Word) : Bool := decide (0xF000 ≤ a.toNat) && decide (a.toNat < 0xFFE0)

/-- Memory after the micro SD controller's stores; the ROM keeps its bytes (log entry 23). -/
def applyStores (m : Memory) : List (Word × Byte) → Memory
  | [] => m
  | (a, v) :: rest => applyStores (if inRom a then m else Memory.write m a.toNat v) rest

end Sys2Proof.Machine
end

