-- ==== Sys2Proof/Machine/Ops.lean ====
section
/-! DEFINITION. The named operations on registers, FLAG, memory and the stack; taking an exception; the return from one. -/

namespace Sys2Proof.Machine

/-- What an instruction or an interrupt entry comes to. -/
abbrev StepResult := Host.Outcome State Fault Refusal

/-- Why an instruction is abandoned: an exception to be taken (spec/00_scope.md R9, `raise`), or no meaning. -/
inductive Stop where
  | trap (c : Cause)
  | refuse (r : Refusal)
deriving DecidableEq, Repr

/-! ## Registers (spec/10_state.md R20 to R24) -/

/-- Where a register number leads while FLAG.P is `p` (R22, R23); PC leads nowhere (R24). -/
def Reg.home (p : Bool) : Reg → Option Home
  | .g n => some (.g n)
  | .fp => some .fp
  | .sp => some (if p then .ssp else .usp)
  | .usp => some .usp
  | .pc => none

/-- The content of a register. -/
def State.get (s : State) : Home → Word
  | .g n => s.g[n.val]
  | .fp => s.fp
  | .ssp => s.ssp
  | .usp => s.usp

/-- The state with a register written. -/
def State.put (s : State) (v : Word) : Home → State
  | .g n => { s with g := s.g.set n.val v }
  | .fp => { s with fp := v }
  | .ssp => { s with ssp := v }
  | .usp => { s with usp := v }

/-- `x[i]` (spec/00_scope.md R9). -/
def readReg (s : State) (r : Reg) : Except Stop Word :=
  match Reg.home s.flag.p r with
  | some h => .ok (s.get h)
  | none => .error (.refuse .registerF)

/-- `x[i] <- v` (spec/00_scope.md R9). -/
def writeReg (s : State) (r : Reg) (v : Word) : Except Stop State :=
  match Reg.home s.flag.p r with
  | some h => .ok (s.put v h)
  | none => .error (.refuse .registerF)

/-- The register SP names (R23). -/
def State.spHome (s : State) : Home := if s.flag.p then .ssp else .usp

/-- SP (R23). -/
def State.sp (s : State) : Word := s.get s.spHome

/-- The register is the current stack pointer: number Dh, or Eh while P = 0 (R23). -/
def State.isSp (s : State) (r : Reg) : Bool := decide (Reg.home s.flag.p r = some s.spHome)

/-- PUSH and POP of the current stack pointer have no meaning (spec/46_stack_return.md R230, R231; U12; log entries 11,
12). -/
def notOwnSp (s : State) (r : Reg) : Except Stop Unit :=
  if s.isSp r then .error (.refuse .ownStackPointer) else .ok ()

/-- The partner Rd+1 of a register that heads a pair (spec/42_muldiv.md R173). -/
def Reg.partner : Reg → Option Reg
  | .g n => if n.val % 2 = 0 then (if h : n.val + 1 < 12 then some (.g ⟨n.val + 1, h⟩) else some .fp) else none
  | .fp => some .sp
  | .sp | .usp | .pc => none

/-- Rd+1, or no meaning (R173; U4). -/
def pairOf (r : Reg) : Except Stop Reg :=
  match Reg.partner r with
  | some r' => .ok r'
  | none => .error (.refuse .oddPair)

def State.setPc (s : State) (v : Word) : State := { s with pc := v }

def State.setFlag (s : State) (f : Flag) : State := { s with flag := f }

def State.setMem (s : State) (m : Memory) : State := { s with mem := m }

/-! ## FLAG as a word (R28, R29) -/

/-- `00000000 E P I 0 V C S Z`. -/
def Flag.word (f : Flag) : Word :=
  BitVec.ofBool f.e ++ (BitVec.ofBool f.p ++ (BitVec.ofBool f.i ++ (0#1 ++ (BitVec.ofBool f.v ++
    (BitVec.ofBool f.c ++ (BitVec.ofBool f.s ++ BitVec.ofBool f.z)))))) |>.zeroExtend 16

/-- The flags a word gives; bits 15..8 and 4 are ignored (R29). -/
def Flag.ofWord (w : Word) : Flag :=
  { e := w[7], p := w[6], i := w[5], v := w[3], c := w[2], s := w[1], z := w[0] }

/-! ## Memory access (spec/20_memory.md R62, R66 to R68, R72, R78) -/

/-- The physical address, or the memory protection violation (R78). -/
def physical (s : State) (a : Word) : Except Stop Word :=
  if s.flag.p = false ∧ s.mmu.en = true then
    if s.mmu.limit.toNat ≤ a.toNat then .error (.trap .memoryProtection) else .ok (a + s.mmu.base)
  else .ok a

/-- A 16-bit access needs an even address (R66); the check precedes the MMU's (R68). -/
def physicalWord (s : State) (a : Word) : Except Stop Word :=
  if a[0] then .error (.trap .invalidAddress) else physical s a

/-- The word in cells `a` and `a+1`, high byte first (R62); physical address. -/
def Memory.readWord (m : Memory) (a : Word) : Word :=
  joinBytes (Memory.read m a.toNat) (Memory.read m (a + 1).toNat)

/-- The word written to cells `a` and `a+1`, high byte first (R62); physical address. -/
def Memory.writeWord (m : Memory) (a v : Word) : Memory :=
  Memory.write (Memory.write m a.toNat (hiByte v)) (a + 1).toNat (loByte v)

/-- `MemRead(a, 1)`. -/
def loadByte (s : State) (a : Word) : Except Stop Byte :=
  (physical s a).map fun p => Memory.read s.mem p.toNat

/-- `MemRead(a, 2)`. -/
def loadWord (s : State) (a : Word) : Except Stop Word :=
  (physicalWord s a).map fun p => Memory.readWord s.mem p

/-- `MemWrite(a, 1, v)`; no store into ROM (R72; U9). -/
def storeByte (s : State) (a : Word) (v : Byte) : Except Stop State :=
  (physical s a).bind fun p =>
    if inRom p then .error (.refuse .romStore)
    else .ok (s.setMem (Memory.write s.mem p.toNat v))

/-- `MemWrite(a, 2, v)`; no store into ROM (R72; U9). -/
def storeWord (s : State) (a v : Word) : Except Stop State :=
  (physicalWord s a).bind fun p =>
    if inRom p || inRom (p + 1) then .error (.refuse .romStore)
    else .ok (s.setMem (Memory.writeWord s.mem p v))

/-! ## The other agent on the memory (spec/20_memory.md R69, R80, spec/00_scope.md R11) -/

/-- Memory after what the micro SD controller stores at a place between two accesses of the CPU: any cells, once a
transfer has been commanded (R80, spec/60_exceptions.md R315; log entry 23). -/
def State.usdMem (s : State) (slot : BusSlot) (m : Memory) : Memory :=
  if s.dev.usd.commanded then applyStores m (Config.usdStores s.clock slot) else m

/-- The state in which the CPU makes its next access (R80). -/
def State.interleave (s : State) (slot : BusSlot) : State := s.setMem (s.usdMem slot s.mem)

/-! ## Stack (spec/46_stack_return.md) -/

/-- Store a word below SP and lower SP to it (R206, R230). -/
def pushWord (s : State) (v : Word) : Except Stop State :=
  (storeWord s (s.sp - 2) v).map fun t => t.put (s.sp - 2) s.spHome

/-- The word at SP, and the state with SP raised past it (R231, R232). -/
def popWord (s : State) : Except Stop (Word × State) :=
  (loadWord s s.sp).map fun v => (v, s.put (s.sp + 2) s.spHome)

/-! ## Traps (spec/60_exceptions.md) -/

/-- A cause's place k in the vector table (R260). -/
def Cause.number : Cause → Nat
  | .timer0 => 0
  | .timer1 => 1
  | .rn4020Receive => 2
  | .rn4020Transmit => 3
  | .ft232rlReceive => 4
  | .ft232rlTransmit => 5
  | .tecReceive => 6
  | .tecTransmit => 7
  | .usd => 8
  | .adc => 9
  | .invalidAddress => 10
  | .memoryProtection => 11
  | .zeroDivide => 12
  | .privilegeViolation => 13
  | .undefinedInstruction => 14
  | .svc => 15

/-- The address of the cause's vector, FFE0h + 2k (R260). -/
def Cause.vector (c : Cause) : Word := BitVec.ofNat 16 (0xFFE0 + 2 * c.number)

/-- FLAG on entry: P set, E cleared, the rest kept (R280). -/
def Flag.entered (f : Flag) : Flag := { f with p := true, e := false }

/-- Trap entry, the same for all causes: push the saved PC and then the old FLAG on SSP, in privileged mode, and load
PC from the vector (R280), other agents' stores falling between its accesses (R80). A push that cannot be made has no meaning (R282; U13). -/
def enterTrap (c : Cause) (spc : Word) (s : State) : StepResult :=
  let pushed := do
    let s1 ← pushWord ((s.setFlag s.flag.entered).interleave .pushPc) spc
    let s2 ← pushWord (s1.interleave .pushFlag) s.flag.word
    let target ← loadWord (s2.interleave .vector) c.vector
    .ok ((s2.interleave .vector).setPc target)
  match pushed with
  | .ok t => .next t
  | .error _ => .refused .trapEntry

/-- FLAG after RETI pops `f`: all of it in privileged mode, V, C, S, Z alone in user mode
(spec/46_stack_return.md R233). -/
def Flag.restored (old : Flag) (f : Word) : Flag :=
  let n := Flag.ofWord f
  if old.p then n else { old with v := n.v, c := n.c, s := n.s, z := n.z }

/-- The return from a trap: FLAG and then PC from the frame at SP, which is raised past it (R233); other
agents' stores fall between the two reads (R80). -/
def returnFromTrap (s : State) : Except Stop State := do
  let (f, s1) ← popWord s
  let (pc, s2) ← popWord (s1.interleave .secondPop)
  .ok ((s2.setFlag (s.flag.restored f)).setPc pc)

/-- An instruction's end: its next state, the exception it raised with the saved PC `npc` (R283), or no meaning. -/
def conclude (s : State) (npc : Word) : Except Stop State → StepResult
  | .ok t => .next t
  | .error (.trap c) => enterTrap c npc s
  | .error (.refuse r) => .refused r

/-- A privileged instruction's check (R300): with P = 0, the privilege violation. -/
def needPrivilege (s : State) : Except Stop Unit :=
  if s.flag.p then .ok () else .error (.trap .privilegeViolation)

/-- The check of IN and OUT (R300): with P = 0 and I = 0, the privilege violation. -/
def needIoPrivilege (s : State) : Except Stop Unit :=
  if s.flag.p || s.flag.i then .ok () else .error (.trap .privilegeViolation)

end Sys2Proof.Machine
end

