-- ==== Sys2Proof/Machine/Flags.lean ====
section
/-! DEFINITION. Results and flags of the flag-changing instructions (spec/10_state.md R32 to R38, spec/41_arith_logic.md,
spec/42_muldiv.md, spec/43_shift.md). -/

namespace Sys2Proof.Machine

/-- A 16-bit result with the carry and the overflow that go with it. -/
structure AluResult where
  value : Word
  carry : Bool
  overflow : Bool
deriving DecidableEq, Repr

/-- V, C, S, Z from a result (R33); E, P, I are kept. -/
def Flag.withResult (f : Flag) (r : AluResult) : Flag :=
  { f with v := r.overflow, c := r.carry, s := r.value.msb, z := decide (r.value = 0) }

/-! ## Arithmetic and logic -/

/-- ADD (R34, R160). -/
def addResult (a b : Word) : AluResult :=
  let r := a + b
  { value := r, carry := decide (2 ^ 16 ≤ a.toNat + b.toNat),
    overflow := (a.msb == b.msb) && (r.msb != a.msb) }

/-- SUB and CMP (R35, R161, R162). -/
def subResult (a b : Word) : AluResult :=
  let r := a - b
  { value := r, carry := decide (a.toNat < b.toNat),
    overflow := (a.msb != b.msb) && (r.msb != a.msb) }

/-- ADDS: the operand doubled, its bit 15 lost (R37, R166). -/
def addsResult (a b : Word) : AluResult := addResult a (b + b)

/-- A result with C = V = 0 (R36, R38). -/
def plainResult (r : Word) : AluResult := { value := r, carry := false, overflow := false }

/-! ## Multiply and divide, unsigned (R170 to R176) -/

/-- The low word of the product (R170). -/
def mulResult (a b : Word) : AluResult := plainResult (BitVec.ofNat 16 (a.toNat * b.toNat))

/-- The quotient, or the division by zero exception (R171). -/
def divResult (a b : Word) : Except Stop AluResult :=
  if b = 0 then .error (.trap .zeroDivide) else .ok (plainResult (BitVec.ofNat 16 (a.toNat / b.toNat)))

/-- The remainder, or the division by zero exception (R172). -/
def modResult (a b : Word) : Except Stop AluResult :=
  if b = 0 then .error (.trap .zeroDivide) else .ok (plainResult (BitVec.ofNat 16 (a.toNat % b.toNat)))

/-- A result in a register pair: the flags go by the low word (R174, R175). -/
structure PairResult where
  low : AluResult
  high : Word
deriving DecidableEq, Repr

/-- The 32-bit product (R174). -/
def mullResult (a b : Word) : PairResult :=
  let p := a.toNat * b.toNat
  { low := plainResult (BitVec.ofNat 16 p), high := BitVec.ofNat 16 (p / 2 ^ 16) }

/-- Quotient and remainder of the 32-bit dividend, or the division by zero exception (R175). A quotient that needs more
than 16 bits has no meaning (U7; log entry 10). -/
def divlResult (high low b : Word) : Except Stop PairResult :=
  let d := high.toNat * 2 ^ 16 + low.toNat
  if b = 0 then .error (.trap .zeroDivide)
  else if d / b.toNat < 2 ^ 16 then
    .ok { low := plainResult (BitVec.ofNat 16 (d / b.toNat)), high := BitVec.ofNat 16 (d % b.toNat) }
  else .error (.refuse .quotientOverflow)

/-! ## Shifts (R180 to R184) -/

/-- A shift of `a` by `count`: `value` and `carry` say what a count of 0 to 15 gives (C = 0 for 0), V = 0 (R38). A larger
count leaves a free result and a free carry (R184; U8), `n` being the clock. DESIGN CHOICE, log entry 9: the shift completes
with V = 0, and the two depend on the clock, the instruction, `a` and `count` alone. -/
def shiftResult (n : Nat) (kind : ShiftKind) (value : Word → Nat → Word) (carry : Word → Nat → Bool) (a count : Word) :
    AluResult :=
  if count.toNat < 16 then
    { value := value a count.toNat, carry := decide (count.toNat ≠ 0) && carry a count.toNat, overflow := false }
  else
    { value := Config.shiftResult n kind a count, carry := Config.shiftCarry n kind a count, overflow := false }

/-- The last bit a left shift by `k` moves out of bit 15, a[16 - k] (R180, R181). -/
def leftCarry (a : Word) (k : Nat) : Bool := a.getLsbD (16 - k)

/-- The last bit a right shift by `k` moves out of bit 0, a[k - 1] (R182, R183). -/
def rightCarry (a : Word) (k : Nat) : Bool := a.getLsbD (k - 1)

/-- SHLA (R180). -/
def shlaResult (n : Nat) (a count : Word) : AluResult := shiftResult n .shla (fun a k => a <<< k) leftCarry a count

/-- SHLL, as SHLA (R181). -/
def shllResult (n : Nat) (a count : Word) : AluResult := shiftResult n .shll (fun a k => a <<< k) leftCarry a count

/-- SHRA (R182). -/
def shraResult (n : Nat) (a count : Word) : AluResult := shiftResult n .shra BitVec.sshiftRight rightCarry a count

/-- SHRL (R183). -/
def shrlResult (n : Nat) (a count : Word) : AluResult := shiftResult n .shrl (fun a k => a >>> k) rightCarry a count

/-! ## Jump conditions (spec/44_jump_call.md R191 to R205) -/

def Flag.signedLess (f : Flag) : Bool := f.s != f.v

def Flag.signedLessEq (f : Flag) : Bool := f.z || f.signedLess

def Flag.lowerSame (f : Flag) : Bool := f.z || f.c

end Sys2Proof.Machine
end

