-- ==== Sys2Proof/Machine/Operands.lean ====
section
/-! DEFINITION. The operand forms (spec/30_encoding.md R110 to R118), the address of the next instruction
(spec/10_state.md R27), and the shapes the meanings share. -/

namespace Sys2Proof.Machine

/-! ## Lengths (spec/30_encoding.md R103) -/

/-- A memory form's instruction length in bytes. -/
def MemEA.bytes : MemEA → Nat
  | .direct _ | .indexed _ _ => 4
  | .fpRel _ | .indirect _ | .byteIndirect _ => 2

def EA.bytes : EA → Nat
  | .mem m => MemEA.bytes m
  | .imm _ => 4
  | .reg _ | .imm4 _ => 2

def Target.bytes : Target → Nat
  | .direct _ | .indexed _ _ => 4
  | .indirect _ => 2

def IoEA.bytes : IoEA → Nat
  | .direct _ => 4
  | .indirect _ | .byteIndirect _ => 2

/-- `npc` for an instruction of so many bytes (R27). -/
def State.npc (s : State) (bytes : Nat) : Word := s.pc + BitVec.ofNat 16 bytes

/-! ## Effective addresses and operands -/

/-- `ea` of a memory form (R110, R111, R113, R116, R117). -/
def memAddress (s : State) : MemEA → Except Stop Word
  | .direct dsp => .ok dsp
  | .indexed dsp rx => (readReg s rx).map (dsp + ·)
  | .fpRel d4 => .ok (d4.signExtend 16 * 2 + s.fp)
  | .indirect rx => readReg s rx
  | .byteIndirect rx => readReg s rx

/-- The 16 or, in the byte form, 8 zero-extended bits at `ea` (R110, R111, R113, R116, R117). -/
def memOperand (s : State) (m : MemEA) : Except Stop Word := do
  let a ← memAddress s m
  match m with
  | .byteIndirect _ => (loadByte s a).map (·.zeroExtend 16)
  | .direct _ | .indexed _ _ | .fpRel _ | .indirect _ => loadWord s a

/-- `opnd` (R110 to R117). -/
def operand (s : State) : EA → Except Stop Word
  | .mem m => memOperand s m
  | .imm v => .ok v
  | .reg rs => readReg s rs
  | .imm4 i4 => .ok (i4.signExtend 16)

/-- The store of a register's content at `ea`: one byte, bits 7..0, in the byte form (R153). -/
def memStore (s : State) (m : MemEA) (v : Word) : Except Stop State := do
  let a ← memAddress s m
  match m with
  | .byteIndirect _ => storeByte s a (loByte v)
  | .direct _ | .indexed _ _ | .fpRel _ | .indirect _ => storeWord s a v

/-- The address a jump or CALL goes to (R118, R190). -/
def targetAddress (s : State) : Target → Except Stop Word
  | .direct dsp => .ok dsp
  | .indexed dsp rx => (readReg s rx).map (dsp + ·)
  | .indirect rx => readReg s rx

/-- The I/O address of an IN or OUT: the low 8 bits of the form's value (R118; spec/20_memory.md R74). -/
def ioAddress (s : State) : IoEA → Except Stop (BitVec 8)
  | .direct dsp => .ok (dsp.truncate 8)
  | .indirect rx => (readReg s rx).map (·.truncate 8)
  | .byteIndirect rx => (readReg s rx).map (·.truncate 8)

/-! ## Shapes of meanings -/

/-- `Rd ← f(Rd, opnd)` with the flags of the result: the operands are read first, nothing is written when one of them
or `f` raises an exception (spec/10_state.md R33, R39; spec/70_reset_and_hazards.md R352). -/
def aluInto (f : Word → Word → Except Stop AluResult) (rd : Reg) (ea : EA) (s : State) : StepResult :=
  conclude s (s.npc (EA.bytes ea)) do
    let a ← readReg s rd
    let b ← operand s ea
    let r ← f a b
    let t ← writeReg s rd r.value
    .ok ((t.setFlag (s.flag.withResult r)).setPc (s.npc (EA.bytes ea)))

/-- A result written to the pair Rd+1, Rd, with the flags of its low word (spec/42_muldiv.md R173 to R175). `f` takes the
old Rd+1, the old Rd and the operand. -/
def aluIntoPair (f : Word → Word → Word → Except Stop PairResult) (rd : Reg) (ea : EA) (s : State) : StepResult :=
  conclude s (s.npc (EA.bytes ea)) do
    let rd' ← pairOf rd
    let high ← readReg s rd'
    let low ← readReg s rd
    let b ← operand s ea
    let r ← f high low b
    let t1 ← writeReg s rd r.low.value
    let t2 ← writeReg t1 rd' r.high
    .ok ((t2.setFlag (s.flag.withResult r.low)).setPc (s.npc (EA.bytes ea)))

/-- `if cond then PC ← target else PC ← npc` (spec/44_jump_call.md R190). -/
def jumpIf (cond : Bool) (t : Target) (s : State) : StepResult :=
  conclude s (s.npc (Target.bytes t)) do
    let a ← targetAddress s t
    .ok (s.setPc (if cond then a else s.npc (Target.bytes t)))

end Sys2Proof.Machine
end

