-- ==== Sys2Proof/Machine/ArithLogic.lean ====
section
/-! DEFINITION. ADD, SUB, CMP, AND, OR, XOR and ADDS (spec/41_arith_logic.md). -/

namespace Sys2Proof.Machine

/-- ADD Rd,EA (R160). -/
def execAdd (rd : Reg) (ea : EA) (s : State) : StepResult := aluInto (fun a b => .ok (addResult a b)) rd ea s

/-- SUB Rd,EA (R161). -/
def execSub (rd : Reg) (ea : EA) (s : State) : StepResult := aluInto (fun a b => .ok (subResult a b)) rd ea s

/-- CMP Rd,EA: the flags of SUB, Rd unwritten (R162). -/
def execCmp (rd : Reg) (ea : EA) (s : State) : StepResult :=
  conclude s (s.npc (EA.bytes ea)) do
    let a ← readReg s rd
    let b ← operand s ea
    .ok ((s.setFlag (s.flag.withResult (subResult a b))).setPc (s.npc (EA.bytes ea)))

/-- AND Rd,EA (R163). -/
def execAnd (rd : Reg) (ea : EA) (s : State) : StepResult := aluInto (fun a b => .ok (plainResult (a &&& b))) rd ea s

/-- OR Rd,EA (R164). -/
def execOr (rd : Reg) (ea : EA) (s : State) : StepResult := aluInto (fun a b => .ok (plainResult (a ||| b))) rd ea s

/-- XOR Rd,EA (R165). -/
def execXor (rd : Reg) (ea : EA) (s : State) : StepResult := aluInto (fun a b => .ok (plainResult (a ^^^ b))) rd ea s

/-- ADDS Rd,EA (R166). -/
def execAdds (rd : Reg) (ea : EA) (s : State) : StepResult := aluInto (fun a b => .ok (addsResult a b)) rd ea s

end Sys2Proof.Machine
end

