-- ==== Sys2Proof/Machine/Devices.lean ====
section
/-! DEFINITION. The I/O space: what an IN reads from a port, what an OUT writes to it, and what the devices do between
instructions (spec/20_memory.md R73 to R77, spec/60_exceptions.md R270 to R276, R310 to R326). -/

namespace Sys2Proof.Machine

/-! ## Reading ports -/

/-- An 8-bit port in the "+1" cell of its row, with 00h in the "+0" cell. -/
def lowPort (v : Byte) : Word := v.zeroExtend 16

/-- Stat of a serial device, `TR00 0000` (R313). -/
def Serial.stat (d : Serial) : Byte := BitVec.ofBool d.txReady ++ (BitVec.ofBool d.rxReady ++ 0#6)

/-- uSD-Stat, `IE00 000C` (R315). -/
def Usd.stat (d : Usd) : Byte := BitVec.ofBool d.idle ++ (BitVec.ofBool d.error ++ (0#5 ++ BitVec.ofBool d.card))

/-- The mode port in TaC mode, `0000 0MMM` with MMM = 001 (R320; U20). -/
def modePort : Byte := 0x01

/-- The word the row of an I/O address presents to an IN, "+0" in bits 15..8 (R74, R310 to R326). A port the spec gives
no value to read presents `bus` within the zero bits of its layout (U21; log entry 22). The rows 38h to EEh read
0000h (R322), and so do F2h, F4h, F6h (R77). -/
def portRow (s : State) (a : BitVec 8) : Word :=
  let d := s.dev
  match a.toNat / 2 * 2 with
  | 0x00 => d.timer0.current
  | 0x02 => d.timer0.flag
  | 0x04 => d.timer1.current
  | 0x06 => d.timer1.flag
  | 0x08 => lowPort d.ft232rl.received
  | 0x0A => lowPort d.ft232rl.stat
  | 0x0C => lowPort d.tec.received
  | 0x0E => lowPort d.tec.stat
  | 0x10 => lowPort d.usd.stat
  | 0x12 | 0x14 | 0x16 => d.bus
  | 0x18 => lowPort d.ext.input
  | 0x1A | 0x1C => lowPort (loByte d.bus)
  | 0x1E => lowPort modePort
  | 0x20 | 0x22 | 0x24 | 0x26 => d.bus
  | 0x28 => lowPort d.rn4020.received
  | 0x2A => lowPort d.rn4020.stat
  | 0x2C => lowPort (0#4 ++ d.bus.truncate 4)
  | 0x2E => lowPort d.rnRam
  | 0x30 => lowPort d.tecConsole.lamps
  | 0x36 => lowPort d.tecConsole.ctlRead
  | 0xF0 => lowPort (loByte d.bus)
  | 0xF8 => d.console.dataSwitches
  | 0xFA => d.console.addressRegister
  | 0xFC => lowPort (0#3 ++ d.console.rotary)
  | 0xFE => lowPort (0#4 ++ d.console.function)
  | _ => 0

/-- `IoRead(a, 1)`: one cell of the row (R74). -/
def ioReadByte (s : State) (a : BitVec 8) : Byte := if a[0] then loByte (portRow s a) else hiByte (portRow s a)

/-- `IoRead(a, 2)`; an odd address has no meaning (R74; U10). -/
def ioReadWord (s : State) (a : BitVec 8) : Except Stop Word :=
  if a[0] then .error (.refuse .oddIoAddress) else .ok (portRow s a)

/-! ## Writing ports -/

/-- A word with bits 15..8 replaced. -/
def withHi (w : Word) (v : Byte) : Word := joinBytes v (loByte w)

/-- A word with bits 7..0 replaced. -/
def withLo (w : Word) (v : Byte) : Word := joinBytes (hiByte w) v

/-- Ctrl of a serial device, `TR00 0000` (R313). -/
def Serial.control (d : Serial) (v : Byte) : Serial := { d with txIntEna := v[7], rxIntEna := v[6] }

/-- uSD-Ctrl, `E000 0IRW` (R315); a READ or WRITE lets the controller act on memory from then on. -/
def Usd.control (d : Usd) (v : Byte) : Usd :=
  { d with intEna := v[7], init := v[2], read := v[1], write := v[0], commanded := d.commanded || v[1] || v[0] }

/-- The state after one I/O cell is written (R310 to R326, R77). A 16-bit register takes the half its cell holds (R74;
log entry 21); a cell the map gives no register to write changes nothing (R221, R322; U18, U19). -/
def writeCell (s : State) (a : BitVec 8) (v : Byte) : State :=
  let d := s.dev
  match a.toNat with
  | 0x00 => { s with dev := { d with timer0 := { d.timer0 with period := withHi d.timer0.period v } } }
  | 0x01 => { s with dev := { d with timer0 := { d.timer0 with period := withLo d.timer0.period v } } }
  | 0x02 => { s with dev := { d with timer0 := { d.timer0 with intEna := v[7] } } }
  | 0x03 => { s with dev := { d with timer0 := { d.timer0 with start := v[0] } } }
  | 0x04 => { s with dev := { d with timer1 := { d.timer1 with period := withHi d.timer1.period v } } }
  | 0x05 => { s with dev := { d with timer1 := { d.timer1 with period := withLo d.timer1.period v } } }
  | 0x06 => { s with dev := { d with timer1 := { d.timer1 with intEna := v[7] } } }
  | 0x07 => { s with dev := { d with timer1 := { d.timer1 with start := v[0] } } }
  | 0x09 => { s with dev := { d with ft232rl := { d.ft232rl with sent := v } } }
  | 0x0B => { s with dev := { d with ft232rl := d.ft232rl.control v } }
  | 0x0D => { s with dev := { d with tec := { d.tec with sent := v } } }
  | 0x0F => { s with dev := { d with tec := d.tec.control v } }
  | 0x11 => { s with dev := { d with usd := d.usd.control v } }
  | 0x12 => { s with dev := { d with usd := { d.usd with memAddr := withHi d.usd.memAddr v } } }
  | 0x13 => { s with dev := { d with usd := { d.usd with memAddr := withLo d.usd.memAddr v } } }
  | 0x14 => { s with dev := { d with usd := { d.usd with blkAddrH := withHi d.usd.blkAddrH v } } }
  | 0x15 => { s with dev := { d with usd := { d.usd with blkAddrH := withLo d.usd.blkAddrH v } } }
  | 0x16 => { s with dev := { d with usd := { d.usd with blkAddrL := withHi d.usd.blkAddrL v } } }
  | 0x17 => { s with dev := { d with usd := { d.usd with blkAddrL := withLo d.usd.blkAddrL v } } }
  | 0x19 => { s with dev := { d with ext := { d.ext with output := v } } }
  | 0x1B => { s with dev := { d with ext := { d.ext with adcRef := v } } }
  | 0x1D => { s with dev := { d with ext := { d.ext with hiMode := v[7], hiValue := v.truncate 4 } } }
  | 0x29 => { s with dev := { d with rn4020 := { d.rn4020 with sent := v } } }
  | 0x2B => { s with dev := { d with rn4020 := d.rn4020.control v } }
  | 0x2D => { s with dev := { d with rnCmd := v.truncate 4 } }
  | 0x2F => { s with dev := { d with rnRam := v } }
  | 0x33 => { s with dev := { d with tecConsole := { d.tecConsole with switches := v } } }
  | 0x35 => { s with dev := { d with tecConsole := { d.tecConsole with function := v } } }
  | 0x37 => { s with dev := { d with tecConsole := { d.tecConsole with ctlWritten := v } } }
  | 0xF1 => { s with mmu := { s.mmu with en := v[0] } }
  | 0xF4 => { s with mmu := { s.mmu with base := withHi s.mmu.base v } }
  | 0xF5 => { s with mmu := { s.mmu with base := withLo s.mmu.base v } }
  | 0xF6 => { s with mmu := { s.mmu with limit := withHi s.mmu.limit v } }
  | 0xF7 => { s with mmu := { s.mmu with limit := withLo s.mmu.limit v } }
  | 0xF8 => { s with dev := { d with console := { d.console with dataRegister := withHi d.console.dataRegister v } } }
  | 0xF9 => { s with dev := { d with console := { d.console with dataRegister := withLo d.console.dataRegister v } } }
  | _ => s

/-- The state with an OUT recorded (R75). -/
def State.record (s : State) (e : IoEvent) : State := { s with ioLog := e :: s.ioLog }

/-- `IoWrite(a, 1, v)` (R74, R75). -/
def ioWriteByte (s : State) (a : BitVec 8) (v : Byte) : State := (writeCell s a v).record (.byte a v)

/-- `IoWrite(a, 2, v)`: both cells of the row; an odd address has no meaning (R74; U10). -/
def ioWriteWord (s : State) (a : BitVec 8) (v : Word) : Except Stop State :=
  if a[0] then .error (.refuse .oddIoAddress)
  else .ok ((writeCell (writeCell s a (hiByte v)) (a + 1) (loByte v)).record (.word a v))

/-! ## Between instructions -/

/-- The enable bits of the ten sources, source k in bit k (R271); the ADC has none and is always enabled. -/
def Devices.enables (d : Devices) : BitVec 10 :=
  1#1 ++ (BitVec.ofBool d.usd.intEna ++ (BitVec.ofBool d.tec.txIntEna ++ (BitVec.ofBool d.tec.rxIntEna ++
    (BitVec.ofBool d.ft232rl.txIntEna ++ (BitVec.ofBool d.ft232rl.rxIntEna ++ (BitVec.ofBool d.rn4020.txIntEna ++
      (BitVec.ofBool d.rn4020.rxIntEna ++ (BitVec.ofBool d.timer1.intEna ++ BitVec.ofBool d.timer0.intEna))))))))

/-- One line's bit. -/
def lineBit (n : Nat) (l : DeviceLine) : Bool := (Config.deviceWord n l)[0]

/-- A serial device with what it now presents. -/
def Serial.presenting (d : Serial) (data : Word) (tx rx : Bool) : Serial :=
  { d with received := loByte data, txReady := tx, rxReady := rx }

/-- The devices with what they now present to an IN: any value within the layouts (R75, R312; U21, U31). -/
def Devices.presented (n : Nat) (d : Devices) : Devices :=
  let w := Config.deviceWord n
  { d with
    timer0 := { d.timer0 with current := w .timer0Current, flag := w .timer0Flag }
    timer1 := { d.timer1 with current := w .timer1Current, flag := w .timer1Flag }
    ft232rl := d.ft232rl.presenting (w .ftData) (lineBit n .ftTxReady) (lineBit n .ftRxReady)
    tec := d.tec.presenting (w .tecData) (lineBit n .tecTxReady) (lineBit n .tecRxReady)
    rn4020 := d.rn4020.presenting (w .rnData) (lineBit n .rnTxReady) (lineBit n .rnRxReady)
    usd := { d.usd with idle := lineBit n .usdIdle, error := lineBit n .usdError, card := lineBit n .usdCard }
    ext := { d.ext with input := loByte (w .extIn) }
    tecConsole := { d.tecConsole with lamps := loByte (w .tecLamps), ctlRead := loByte (w .tecCtl) }
    console := { d.console with
      dataSwitches := w .dataSwitches, addressRegister := w .addressRegister
      rotary := (w .rotarySwitch).truncate 5, function := (w .functionRegister).truncate 4 }
    bus := w .openBus }

/-- The devices' move at an instruction boundary: new inputs, the requests of the enabled sources (R271, R273, R274), and
the micro SD controller's stores before the next access (R315, R80). -/
def boundary (s : State) : State :=
  { s with
    dev := s.dev.presented s.clock
    pending := Config.requests s.clock &&& s.dev.enables
    mem := s.usdMem .firstWord s.mem
    clock := s.clock + 1 }

/-- The interrupt sources in the order of their vectors (R260, R276). -/
def interruptSources : List Cause :=
  [.timer0, .timer1, .rn4020Receive, .rn4020Transmit, .ft232rlReceive, .ft232rlTransmit,
   .tecReceive, .tecTransmit, .usd, .adc]

/-- The interrupt accepted at a boundary: with E = 1, the pending source of lowest vector (R272, R275, R276). -/
def accepted (s : State) : Option Cause :=
  if s.flag.e then interruptSources.find? fun c => s.pending.getLsbD c.number else none

end Sys2Proof.Machine
end

