-- ==== Sys2Proof/Machine/InOut.lean ====
section
/-! DEFINITION. IN and OUT (spec/45_io.md). -/

namespace Sys2Proof.Machine

/-- What the form reads at its I/O address: a row, or in the byte form one cell, zero-extended (R220). -/
def portIn (s : State) (a : BitVec 8) : IoEA → Except Stop Word
  | .byteIndirect _ => .ok ((ioReadByte s a).zeroExtend 16)
  | .direct _ | .indirect _ => ioReadWord s a

/-- What the form writes at its I/O address: a row, or in the byte form one cell (R221). -/
def portOut (s : State) (a : BitVec 8) (v : Word) : IoEA → Except Stop State
  | .byteIndirect _ => .ok (ioWriteByte s a (loByte v))
  | .direct _ | .indirect _ => ioWriteWord s a v

/-- IN Rd,EA (R220). That the read itself changes no device is a DESIGN CHOICE (log entry 20), unsafe. -/
def execIn (rd : Reg) (p : IoEA) (s : State) : StepResult :=
  conclude s (s.npc (IoEA.bytes p)) do
    needIoPrivilege s
    let a ← ioAddress s p
    let v ← portIn s a p
    let t ← writeReg s rd v
    .ok (t.setPc (s.npc (IoEA.bytes p)))

/-- OUT Rd,EA (R221). -/
def execOut (rd : Reg) (p : IoEA) (s : State) : StepResult :=
  conclude s (s.npc (IoEA.bytes p)) do
    needIoPrivilege s
    let a ← ioAddress s p
    let v ← readReg s rd
    let t ← portOut s a v p
    .ok (t.setPc (s.npc (IoEA.bytes p)))

end Sys2Proof.Machine
end

