-- ==== Sys2Proof/Machine/Jump.lean ====
section
/-! DEFINITION. The conditional jumps, JMP and CALL (spec/44_jump_call.md). -/

namespace Sys2Proof.Machine

/-- JZ EA (R191). -/
def execJz (t : Target) (s : State) : StepResult := jumpIf s.flag.z t s

/-- JC EA (R192). -/
def execJc (t : Target) (s : State) : StepResult := jumpIf s.flag.c t s

/-- JM EA (R193). -/
def execJm (t : Target) (s : State) : StepResult := jumpIf s.flag.s t s

/-- JO EA (R194). -/
def execJo (t : Target) (s : State) : StepResult := jumpIf s.flag.v t s

/-- JGT EA (R195). -/
def execJgt (t : Target) (s : State) : StepResult := jumpIf (!s.flag.signedLessEq) t s

/-- JGE EA (R196). -/
def execJge (t : Target) (s : State) : StepResult := jumpIf (!s.flag.signedLess) t s

/-- JLE EA (R197). -/
def execJle (t : Target) (s : State) : StepResult := jumpIf s.flag.signedLessEq t s

/-- JLT EA (R198). -/
def execJlt (t : Target) (s : State) : StepResult := jumpIf s.flag.signedLess t s

/-- JNZ EA (R199). -/
def execJnz (t : Target) (s : State) : StepResult := jumpIf (!s.flag.z) t s

/-- JNC EA (R200). -/
def execJnc (t : Target) (s : State) : StepResult := jumpIf (!s.flag.c) t s

/-- JNM EA (R201). -/
def execJnm (t : Target) (s : State) : StepResult := jumpIf (!s.flag.s) t s

/-- JNO EA (R202). -/
def execJno (t : Target) (s : State) : StepResult := jumpIf (!s.flag.v) t s

/-- JHI EA (R203). -/
def execJhi (t : Target) (s : State) : StepResult := jumpIf (!s.flag.lowerSame) t s

/-- JLS EA (R204). -/
def execJls (t : Target) (s : State) : StepResult := jumpIf s.flag.lowerSame t s

/-- JMP EA (R205). -/
def execJmp (t : Target) (s : State) : StepResult := jumpIf true t s

/-- CALL EA: the target is formed, `npc` is pushed, PC takes the target (R206). -/
def execCall (t : Target) (s : State) : StepResult :=
  conclude s (s.npc (Target.bytes t)) do
    let a ← targetAddress s t
    let u ← pushWord s (s.npc (Target.bytes t))
    .ok (u.setPc a)

end Sys2Proof.Machine
end

