-- ==== Sys2Proof/Machine/MulDiv.lean ====
section
/-! DEFINITION. MUL, DIV, MOD, MULL and DIVL (spec/42_muldiv.md). -/

namespace Sys2Proof.Machine

/-- MUL Rd,EA (R170). -/
def execMul (rd : Reg) (ea : EA) (s : State) : StepResult := aluInto (fun a b => .ok (mulResult a b)) rd ea s

/-- DIV Rd,EA (R171). -/
def execDiv (rd : Reg) (ea : EA) (s : State) : StepResult := aluInto (fun a b => divResult a b) rd ea s

/-- MOD Rd,EA (R172). -/
def execMod (rd : Reg) (ea : EA) (s : State) : StepResult := aluInto (fun a b => modResult a b) rd ea s

/-- MULL Rd,EA (R174); the old Rd+1 is no input. -/
def execMull (rd : Reg) (ea : EA) (s : State) : StepResult := aluIntoPair (fun _ a b => .ok (mullResult a b)) rd ea s

/-- DIVL Rd,EA (R175). -/
def execDivl (rd : Reg) (ea : EA) (s : State) : StepResult :=
  aluIntoPair (fun high low b => divlResult high low b) rd ea s

end Sys2Proof.Machine
end

