-- ==== Sys2Proof/Machine/Shift.lean ====
section
/-! DEFINITION. SHLA, SHLL, SHRA and SHRL (spec/43_shift.md). -/

namespace Sys2Proof.Machine

/-- SHLA Rd,EA (R180). -/
def execShla (rd : Reg) (ea : EA) (s : State) : StepResult := aluInto (fun a b => .ok (shlaResult s.clock a b)) rd ea s

/-- SHLL Rd,EA (R181). -/
def execShll (rd : Reg) (ea : EA) (s : State) : StepResult := aluInto (fun a b => .ok (shllResult s.clock a b)) rd ea s

/-- SHRA Rd,EA (R182). -/
def execShra (rd : Reg) (ea : EA) (s : State) : StepResult := aluInto (fun a b => .ok (shraResult s.clock a b)) rd ea s

/-- SHRL Rd,EA (R183). -/
def execShrl (rd : Reg) (ea : EA) (s : State) : StepResult := aluInto (fun a b => .ok (shrlResult s.clock a b)) rd ea s

end Sys2Proof.Machine
end

