-- ==== Sys2Proof/Machine/Stack.lean ====
section
/-! DEFINITION. PUSH, POP, RET and RETI (spec/46_stack_return.md). -/

namespace Sys2Proof.Machine

/-- PUSH Rd (R230); of the stack pointer itself it has no meaning (U12; log entry 11). -/
def execPush (rd : Reg) (s : State) : StepResult :=
  conclude s (s.npc 2) do
    notOwnSp s rd
    let v ← readReg s rd
    let t ← pushWord s v
    .ok (t.setPc (s.npc 2))

/-- POP Rd (R231); of the stack pointer itself it has no meaning (U12; log entry 12). -/
def execPop (rd : Reg) (s : State) : StepResult :=
  conclude s (s.npc 2) do
    notOwnSp s rd
    let (v, t) ← popWord s
    let u ← writeReg t rd v
    .ok (u.setPc (s.npc 2))

/-- RET (R232). -/
def execRet (s : State) : StepResult :=
  conclude s (s.npc 2) do
    let (v, t) ← popWord s
    .ok (t.setPc v)

/-- RETI (R233). -/
def execReti (s : State) : StepResult := conclude s (s.npc 2) (returnFromTrap s)

end Sys2Proof.Machine
end

