-- ==== Sys2Proof/Machine/System.lean ====
section
/-! DEFINITION. EI, DI, SVC and HALT (spec/47_system.md). -/

namespace Sys2Proof.Machine

/-- EI (R240). -/
def execEi (s : State) : StepResult :=
  conclude s (s.npc 2) do
    needPrivilege s
    .ok ((s.setFlag { s.flag with e := true }).setPc (s.npc 2))

/-- DI (R241). -/
def execDi (s : State) : StepResult :=
  conclude s (s.npc 2) do
    needPrivilege s
    .ok ((s.setFlag { s.flag with e := false }).setPc (s.npc 2))

/-- SVC: the SVC exception, `npc` saved (R242). -/
def execSvc (s : State) : StepResult := enterTrap .svc (s.npc 2) s

/-- HALT (R243). -/
def execHalt (s : State) : StepResult :=
  conclude s (s.npc 2) do
    needPrivilege s
    .ok { s with pc := s.npc 2, halted := true }

end Sys2Proof.Machine
end

