-- ==== Sys2Proof/Machine/Transfer.lean ====
section
/-! DEFINITION. NO, LD, LD Rd,FLAG and ST (spec/40_transfer.md). -/

namespace Sys2Proof.Machine

/-- NO (R150). -/
def execNo (s : State) : StepResult := conclude s (s.npc 2) (.ok (s.setPc (s.npc 2)))

/-- LD Rd,EA (R151). -/
def execLd (rd : Reg) (ea : EA) (s : State) : StepResult :=
  conclude s (s.npc (EA.bytes ea)) do
    let v ← operand s ea
    let t ← writeReg s rd v
    .ok (t.setPc (s.npc (EA.bytes ea)))

/-- LD Rd,FLAG (R152). -/
def execLdFlag (rd : Reg) (s : State) : StepResult :=
  conclude s (s.npc 2) do
    let t ← writeReg s rd s.flag.word
    .ok (t.setPc (s.npc 2))

/-- ST Rd,EA (R153). -/
def execSt (rd : Reg) (m : MemEA) (s : State) : StepResult :=
  conclude s (s.npc (MemEA.bytes m)) do
    let v ← readReg s rd
    let t ← memStore s m v
    .ok (t.setPc (s.npc (MemEA.bytes m)))

end Sys2Proof.Machine
end

