-- ==== Sys2Proof/Machine/Dispatch.lean ====
section
/-! DEFINITION. The meaning of each instruction, one arm per constructor. -/

namespace Sys2Proof.Machine

def exec (i : Instr) (s : State) : Host.Outcome State Fault Refusal :=
  match i with
  | .no => Sys2Proof.Machine.execNo s
  | .ld rd ea => Sys2Proof.Machine.execLd rd ea s
  | .ldFlag rd => Sys2Proof.Machine.execLdFlag rd s
  | .st rd m => Sys2Proof.Machine.execSt rd m s
  | .add rd ea => Sys2Proof.Machine.execAdd rd ea s
  | .sub rd ea => Sys2Proof.Machine.execSub rd ea s
  | .cmp rd ea => Sys2Proof.Machine.execCmp rd ea s
  | .and rd ea => Sys2Proof.Machine.execAnd rd ea s
  | .or rd ea => Sys2Proof.Machine.execOr rd ea s
  | .xor rd ea => Sys2Proof.Machine.execXor rd ea s
  | .adds rd ea => Sys2Proof.Machine.execAdds rd ea s
  | .mul rd ea => Sys2Proof.Machine.execMul rd ea s
  | .div rd ea => Sys2Proof.Machine.execDiv rd ea s
  | .mod rd ea => Sys2Proof.Machine.execMod rd ea s
  | .mull rd ea => Sys2Proof.Machine.execMull rd ea s
  | .divl rd ea => Sys2Proof.Machine.execDivl rd ea s
  | .shla rd ea => Sys2Proof.Machine.execShla rd ea s
  | .shll rd ea => Sys2Proof.Machine.execShll rd ea s
  | .shra rd ea => Sys2Proof.Machine.execShra rd ea s
  | .shrl rd ea => Sys2Proof.Machine.execShrl rd ea s
  | .jz t => Sys2Proof.Machine.execJz t s
  | .jc t => Sys2Proof.Machine.execJc t s
  | .jm t => Sys2Proof.Machine.execJm t s
  | .jo t => Sys2Proof.Machine.execJo t s
  | .jgt t => Sys2Proof.Machine.execJgt t s
  | .jge t => Sys2Proof.Machine.execJge t s
  | .jle t => Sys2Proof.Machine.execJle t s
  | .jlt t => Sys2Proof.Machine.execJlt t s
  | .jnz t => Sys2Proof.Machine.execJnz t s
  | .jnc t => Sys2Proof.Machine.execJnc t s
  | .jnm t => Sys2Proof.Machine.execJnm t s
  | .jno t => Sys2Proof.Machine.execJno t s
  | .jhi t => Sys2Proof.Machine.execJhi t s
  | .jls t => Sys2Proof.Machine.execJls t s
  | .jmp t => Sys2Proof.Machine.execJmp t s
  | .call t => Sys2Proof.Machine.execCall t s
  | .inp rd p => Sys2Proof.Machine.execIn rd p s
  | .out rd p => Sys2Proof.Machine.execOut rd p s
  | .push rd => Sys2Proof.Machine.execPush rd s
  | .pop rd => Sys2Proof.Machine.execPop rd s
  | .ret => Sys2Proof.Machine.execRet s
  | .reti => Sys2Proof.Machine.execReti s
  | .ei => Sys2Proof.Machine.execEi s
  | .di => Sys2Proof.Machine.execDi s
  | .svc => Sys2Proof.Machine.execSvc s
  | .halt => Sys2Proof.Machine.execHalt s

end Sys2Proof.Machine
end

