-- ==== Sys2Proof/Machine/Fetch.lean ====
section
/-! DEFINITION. Fetching an instruction (spec/30_encoding.md R126, spec/20_memory.md R64, spec/60_exceptions.md R262, R268, R283), and the table's words where the next fetch finds them. -/

namespace Sys2Proof.Machine

/-- What the fetch at PC gives. -/
inductive Fetched where
  | instr (i : Instr)
  /-- an exception of the fetch or of the decoding, with the PC it saves -/
  | trap (c : Cause) (spc : Word)
  | refuse (r : Refusal)
deriving DecidableEq, Repr

/-- A word of the instruction at `a`; a faulting fetch saves the address it faulted at (R283). -/
def fetchWord (s : State) (a : Word) (k : Word → Fetched) : Fetched :=
  match loadWord s a with
  | .ok w => k w
  | .error (.trap c) => .trap c a
  | .error (.refuse r) => .refuse r

/-- What the decoder's answer comes to: a blank OP is the undefined instruction exception, which saves the address after
the first word (R122, R262, R283); words without a meaning are refused. -/
def fetchedOf (pc : Word) : Except DecodeError Instr → Fetched
  | .ok i => .instr i
  | .error .undefinedOp => .trap .undefinedInstruction (pc + 2)
  | .error .nonzeroField => .refuse .nonzeroField
  | .error .conditionD => .refuse .conditionD
  | .error .registerF => .refuse .registerF
  | .error .oddPair => .refuse .oddPair
  | .error .truncated => .trap .undefinedInstruction (pc + 2)

/-- The instruction at PC: the first word, its OP, the second word if there is one, the checks (R126, R268); other agents'
stores fall between the two fetches (R80). -/
def fetch (s : State) : Fetched :=
  fetchWord s s.pc fun w1 =>
    if opDefined w1 then
      if hasSecondWord w1 then fetchWord (s.interleave .secondWord) (s.pc + 2) fun w2 => fetchedOf s.pc (decodeWords w1 w2)
      else fetchedOf s.pc (decodeWords w1 0)
    else .trap .undefinedInstruction (s.pc + 2)

/-- The state in which a fetched instruction makes its operand access: what other agents store after the fetch of its
first word has come in (R80). -/
def State.afterFetch (s : State) : State := (s.interleave .secondWord).interleave .operand

/-- The physical address of the `k`-th byte of the next instruction (R78). -/
def fetchAddress (s : State) (k : Nat) : Word :=
  s.pc + BitVec.ofNat 16 k + (if s.flag.p = false ∧ s.mmu.en = true then s.mmu.base else 0)

/-- Memory with bytes placed one after the other where the next instruction is fetched, ROM or not. -/
def placeBytes (s : State) : Nat → Memory → List Byte → Memory
  | _, m, [] => m
  | k, m, b :: rest => placeBytes s (k + 1) (Memory.write m (fetchAddress s k).toNat b) rest

end Sys2Proof.Machine
end

