-- ==== Sys2Proof/Machine/Run.lean ====
section
/-! DEFINITION. What follows an instruction boundary: an interrupt's entry, or the next instruction
(spec/60_exceptions.md R275, spec/30_encoding.md R126). -/

namespace Sys2Proof.Machine

/-- Run the instruction at PC, or take the exception its fetch raises (R126, R283, R80). -/
def runInstruction (s : State) : StepResult :=
  match fetch s with
  | .instr i => exec i s.afterFetch
  | .trap c spc => enterTrap c spc s
  | .refuse r => .refused r

/-- At a boundary at which the devices have moved: an accepted interrupt is entered, with PC saved as it is; else the
next instruction runs (R275). -/
def proceed (s : State) : StepResult :=
  match accepted s with
  | some c => enterTrap c s.pc s
  | none => runInstruction s

end Sys2Proof.Machine
end

