-- ==== Sys2Proof/Machine/Step.lean ====
section
/-! DEFINITION. One step of the machine (spec/60_exceptions.md R275), and a state whose next step runs a given instruction. -/

namespace Sys2Proof.Machine

/-- One instruction boundary and what follows it; a halted CPU does nothing (spec/47_system.md R243). -/
def step (s : State) : Host.Outcome State Fault Refusal :=
  if s.halted then .fault .halted else proceed (boundary s)

/-- `s` with the instruction whose bits are the low `nbits` of `w` stored where the next step fetches; it stands for the
loading of the program from outside the machine (log entry 2). -/
def State.withFetchWord (s : State) (nbits w : Nat) : State :=
  s.setMem (placeBytes s 0 s.mem (tableBytes nbits w))

end Sys2Proof.Machine
end

