-- ==== Sys2Proof/Machine/Timing.lean ====
section
/-! DEFINITION. State counts (spec/70_reset_and_hazards.md R360 to R363). They are data: nothing in the machine reads them. -/

namespace Sys2Proof.Machine

/-- The columns Drct, Index, FP Rlt, Indr and B Indr, in that order. -/
def memStates (drct index fpRlt indr bIndr : Nat) : MemEA → Nat
  | .direct _ => drct
  | .indexed _ _ => index
  | .fpRel _ => fpRlt
  | .indirect _ => indr
  | .byteIndirect _ => bIndr

/-- A row of R361 with an operand in all eight columns: the memory forms take 2 states more than the immediate, the
indirect ones 1 more. -/
def eaStates (imm reg imm4 : Nat) : EA → Nat
  | .mem m => memStates (imm + 2) (imm + 2) (imm + 2) (imm + 1) (imm + 1) m
  | .imm _ => imm
  | .reg _ => reg
  | .imm4 _ => imm4

/-- IN and OUT (R361). -/
def ioStates (drct indr : Nat) : IoEA → Nat
  | .direct _ => drct
  | .indirect _ => indr
  | .byteIndirect _ => indr

/-- "4/5": 5 when the jump is taken (R362). -/
def jumpStates (taken : Bool) : Nat := if taken then 5 else 4

/-- `n` of the shift rows: the positions shifted (R363), not given for a count of 16 or more (log entry 31); none where
the operand cannot be read. -/
def shiftSteps (kind : ShiftKind) (ea : EA) (s : State) : Nat :=
  match operand s ea with
  | .ok n => if n.toNat < 16 then n.toNat else Config.shiftSteps s.clock kind n
  | .error _ => 0

/-- The states an instruction takes in a state (R361). -/
def states (i : Instr) (s : State) : Nat :=
  match i with
  | .no => 3
  | .ld _ ea => eaStates 5 4 4 ea
  | .ldFlag _ => 4
  | .st _ m => memStates 6 6 6 5 5 m
  | .add _ ea | .sub _ ea | .cmp _ ea | .and _ ea | .or _ ea | .xor _ ea => eaStates 5 5 4 ea
  | .adds _ ea => eaStates 6 6 5 ea
  | .mul _ ea | .mull _ ea => eaStates 55 55 54 ea
  | .div _ ea | .mod _ ea | .divl _ ea => eaStates 71 71 70 ea
  | .shla _ ea => eaStates 6 6 5 ea + shiftSteps .shla ea s
  | .shll _ ea => eaStates 6 6 5 ea + shiftSteps .shll ea s
  | .shra _ ea => eaStates 6 6 5 ea + shiftSteps .shra ea s
  | .shrl _ ea => eaStates 6 6 5 ea + shiftSteps .shrl ea s
  | .jz _ => jumpStates s.flag.z
  | .jc _ => jumpStates s.flag.c
  | .jm _ => jumpStates s.flag.s
  | .jo _ => jumpStates s.flag.v
  | .jgt _ => jumpStates (!s.flag.signedLessEq)
  | .jge _ => jumpStates (!s.flag.signedLess)
  | .jle _ => jumpStates s.flag.signedLessEq
  | .jlt _ => jumpStates s.flag.signedLess
  | .jnz _ => jumpStates (!s.flag.z)
  | .jnc _ => jumpStates (!s.flag.c)
  | .jnm _ => jumpStates (!s.flag.s)
  | .jno _ => jumpStates (!s.flag.v)
  | .jhi _ => jumpStates (!s.flag.lowerSame)
  | .jls _ => jumpStates s.flag.lowerSame
  | .jmp _ => 5
  | .call _ => 6
  | .inp _ p => ioStates 7 6 p
  | .out _ p => ioStates 6 5 p
  | .push _ => 5
  | .pop _ => 6
  | .ret => 6
  | .reti => 9
  | .ei => 5
  | .di => 5
  | .svc => 12
  | .halt => 5

end Sys2Proof.Machine
end

