-- ==== Sys2Proof/Safety.lean ====
section
/-! DEFINITION. The terms the statements are made in: the invariant of the state, what a step may leave unchanged, and a
safe run. -/

namespace Sys2Proof.Machine

/-- The invariant of the state: memory has its canonical form. -/
def State.Inv (s : State) : Prop := Memory.wf s.mem = true

/-- Every register but the listed ones holds what it held. -/
def SameRegs (except : List Home) (s t : State) : Prop := ∀ h, h ∉ except → t.get h = s.get h

/-- Every byte of memory reads as it read. -/
def SameMem (s t : State) : Prop := ∀ a : Nat, Memory.read t.mem a = Memory.read s.mem a

/-- Every byte of memory but those at the listed addresses reads as it read. -/
def SameMemBut (except : List Word) (s t : State) : Prop :=
  ∀ a : Nat, a ∉ except.map BitVec.toNat → Memory.read t.mem a = Memory.read s.mem a

/-- The MMU, the devices and the record of OUT accesses are as they were. -/
def SameIo (s t : State) : Prop := t.mmu = s.mmu ∧ t.dev = s.dev ∧ t.ioLog = s.ioLog

/-- What only HALT and the instruction boundary change: halted, the pending bits, the clock. -/
def SameRun (s t : State) : Prop := t.halted = s.halted ∧ t.pending = s.pending ∧ t.clock = s.clock

/-- E, P and I are as they were. -/
def SameMode (s t : State) : Prop := t.flag.e = s.flag.e ∧ t.flag.p = s.flag.p ∧ t.flag.i = s.flag.i

/-- Registers but the listed ones, memory, I/O, halted, pending and clock are as they were: the frame of an instruction
that works on registers alone; FLAG and PC are said apart. -/
def RegFrame (except : List Home) (s t : State) : Prop :=
  SameRegs except s t ∧ SameMem s t ∧ SameIo s t ∧ SameRun s t

/-- The frame of an instruction that stores to the listed bytes; FLAG and PC are said apart. -/
def StoreFrame (except : List Home) (bytes : List Word) (s t : State) : Prop :=
  SameRegs except s t ∧ SameMemBut bytes s t ∧ SameIo s t ∧ SameRun s t

/-- Z and S of a 16-bit result (spec/10_state.md R33). -/
def FlagsOf (r : Word) (f : Flag) : Prop := (f.z = true ↔ r = 0) ∧ (f.s = true ↔ 2 ^ 15 ≤ r.toNat)

/-- The ranges of the 93 blank OP values, as spec/30_encoding.md R122 lists them. -/
def blankRanges : List (Nat × Nat) :=
  [(0x01, 0x07), (0x12, 0x12), (0x15, 0x15), (0x78, 0x7F), (0xA2, 0xA5), (0xA7, 0xA7), (0xAA, 0xAD), (0xAF, 0xAF),
   (0xB1, 0xB5), (0xB9, 0xBD), (0xC1, 0xC3), (0xC5, 0xCF), (0xD1, 0xD3), (0xD5, 0xDF), (0xE1, 0xE3), (0xE5, 0xEF),
   (0xF1, 0xFE)]

/-- An OP value is blank (R122). -/
def BlankOp (op : Nat) : Prop := ∃ r ∈ blankRanges, r.1 ≤ op ∧ op ≤ r.2

/-- A word can be stored at the logical address `a`, whose physical address is `p` (spec/20_memory.md R66, R72, R78). -/
def WordStore (s : State) (a p : Word) : Prop :=
  a[0] = false ∧ physical s a = .ok p ∧ inRom p = false ∧ inRom (p + 1) = false

/-- A byte can be stored at the logical address `a`, whose physical address is `p` (R67, R72, R78). -/
def ByteStore (s : State) (a p : Word) : Prop := physical s a = .ok p ∧ inRom p = false

/-- The memory form moves a word. -/
def MemEA.isWord : MemEA → Bool
  | .byteIndirect _ => false
  | .direct _ | .indexed _ _ | .fpRel _ | .indirect _ => true

/-- The I/O form moves a word. -/
def IoEA.isWord : IoEA → Bool
  | .byteIndirect _ => false
  | .direct _ | .indirect _ => true

/-- The jump `i` of so many bytes goes to `x` if `taken`, else on to the next instruction, and changes nothing but PC. -/
def Goes (i : Instr) (bytes : Nat) (x : Word) (taken : Prop) (s : State) : Prop :=
  (taken → exec i s = .next { s with pc := x }) ∧ (¬ taken → exec i s = .next { s with pc := s.npc bytes })

/-- A run of so many steps that neither faults nor is refused. -/
def SafeRun (steps : Nat) (s : State) : Prop := ∃ t, Sys2Proof.core.run steps s = .next t

end Sys2Proof.Machine
end

