-- ==== Sys2Proof/Certificates/Slice0/Obligations.lean ====
section
/-! DEFINITION. The statements for the provers. They are about states that meet the hypotheses written in each, reached by a
run or not. "D<n>" is the spec's own decision of that number in spec/92_eei_decisions.md, on which the statement then rests;
"entry n" is notes/assumptions/n.md. -/

open Sys2Proof Sys2Proof.Machine

/-! ## Reset and the invariant -/

/-- What a reset leaves, whatever RN4020-RAM held before it (D19; entry 3). -/
def Obligations.ResetLeavesTheSpecifiedValues : Prop :=
  ∀ r : Byte,
    let s := State.resetKeeping r
    s.pc = 0xF000 ∧ s.flag.word = 0x0040 ∧ s.halted = false ∧ s.pending = 0 ∧ s.mmu.en = false ∧
    s.dev.timer0.intEna = false ∧ s.dev.timer0.start = false ∧ s.dev.timer0.flag = 0 ∧
    s.dev.timer1.intEna = false ∧ s.dev.timer1.start = false ∧ s.dev.timer1.flag = 0 ∧
    s.dev.ft232rl.txIntEna = false ∧ s.dev.ft232rl.rxIntEna = false ∧
    s.dev.tec.txIntEna = false ∧ s.dev.tec.rxIntEna = false ∧
    s.dev.rn4020.txIntEna = false ∧ s.dev.rn4020.rxIntEna = false ∧ s.dev.usd.intEna = false ∧
    s.dev.rnCmd = 1 ∧ s.dev.rnRam = r

/-- The invariant holds after reset (the form of memory is the model's: entry 2). -/
def Obligations.ResetMemoryIsCanonical : Prop := State.reset.Inv

/-- Every step keeps the canonical form of memory, from any state that has it (the form is the model's: entry 2). -/
def Obligations.StepKeepsMemoryCanonical : Prop := ∀ s t : State, s.Inv → step s = .next t → t.Inv

/-! ## Encoding -/

/-- Decoding the bytes of a well-formed instruction gives it back, and leaves the bytes that follow (byte order: D1). -/
def Obligations.DecodeInvertsEncode : Prop :=
  ∀ (i : Instr) (rest : List Byte), i.wellFormed = true → decode (encodeBytes i ++ rest) = .ok (i, rest)

/-- The words of a decoded instruction are the words its encoding has, so no two words mean one instruction; and it is one
the spec gives a meaning (what has none: D11, D12). -/
def Obligations.EncodeInvertsDecode : Prop :=
  ∀ (w1 w2 : Word) (i : Instr), decodeWords w1 w2 = .ok i →
    encode i = (if hasSecondWord w1 then [w1, w2] else [w1]) ∧ i.wellFormed = true

/-- The words of the one-word instructions without an operand EA decode to them, whatever follows (R120). -/
def Obligations.WrittenOutWordsDecode : Prop :=
  ∀ w2 : Word,
    decodeWords 0x0000 w2 = .ok .no ∧ decodeWords 0xD000 w2 = .ok .ret ∧ decodeWords 0xD400 w2 = .ok .reti ∧
    decodeWords 0xE000 w2 = .ok .ei ∧ decodeWords 0xE400 w2 = .ok .di ∧ decodeWords 0xF000 w2 = .ok .svc ∧
    decodeWords 0xFF00 w2 = .ok .halt ∧
    ∀ rd : Reg, rd ≠ .pc →
      decodeWords (0x14#8 ++ (rd.field ++ 0#4)) w2 = .ok (.ldFlag rd) ∧
      decodeWords (0xC0#8 ++ (rd.field ++ 0#4)) w2 = .ok (.push rd) ∧
      decodeWords (0xC4#8 ++ (rd.field ++ 0#4)) w2 = .ok (.pop rd)

/-- Words written out from the formats of the instructions with an operand; and a CALL with a nonzero field is refused
(D12; entry 14). -/
def Obligations.WordsOfOtherFormatsDecode : Prop :=
  decodeWords 0x0B08 0 = .ok (.ld (.g 0) (.mem (.fpRel 8))) ∧
  decodeWords 0x1102 0x2000 = .ok (.st (.g 0) (.indexed 0x2000 (.g 2))) ∧
  decodeWords 0x3200 0x0FF0 = .ok (.and (.g 0) (.imm 0x0FF0)) ∧
  decodeWords 0x7402 0 = .ok (.divl (.g 0) (.reg (.g 2))) ∧
  decodeWords 0x9504 0 = .ok (.shra (.g 0) (.imm4 4)) ∧
  decodeWords 0xA1F1 0x0200 = .ok (.jmp (.indexed 0x0200 (.g 1))) ∧
  decodeWords 0xA8C0 0 = .error .nonzeroField ∧
  decodeWords 0xBF01 0 = .ok (.out (.g 0) (.byteIndirect (.g 1)))

/-! ## The step -/

/-- Where no interrupt is accepted and the words at PC decode to `i`, the step is `exec i` of the state after the
devices' move and what other agents store after the fetch (D16, D21). -/
def Obligations.StepRunsTheDecodedInstruction : Prop :=
  ∀ (s : State) (w1 w2 : Word) (i : Instr),
    s.halted = false → accepted (boundary s) = none →
    loadWord (boundary s) s.pc = .ok w1 →
    (hasSecondWord w1 = true → loadWord ((boundary s).interleave .secondWord) (s.pc + 2) = .ok w2) →
    decodeWords w1 w2 = .ok i →
    step s = exec i (boundary s).afterFetch

/-- The devices' move at a boundary: registers, PC, FLAG, halted, the MMU, the record of OUTs, the device enables, the
standing command to the micro SD controller and RN4020's registers stay, and the clock advances. There and between two
accesses of an instruction, memory may change, but not the ROM's bytes, and not at all unless a uSD transfer has been
commanded; nothing else changes between accesses (the model's choice: entries 20, 23). -/
def Obligations.DevicesMoveLeavesTheCpuAlone : Prop :=
  ∀ s : State,
    SameRegs [] s (boundary s) ∧ (boundary s).pc = s.pc ∧ (boundary s).flag = s.flag ∧
    (boundary s).halted = s.halted ∧ (boundary s).mmu = s.mmu ∧ (boundary s).ioLog = s.ioLog ∧
    (boundary s).dev.enables = s.dev.enables ∧ (boundary s).dev.rnRam = s.dev.rnRam ∧
    (boundary s).dev.rnCmd = s.dev.rnCmd ∧ (boundary s).dev.usd.commanded = s.dev.usd.commanded ∧
    (boundary s).clock = s.clock + 1 ∧
    (s.dev.usd.commanded = false → SameMem s (boundary s)) ∧
    (∀ a : Word, inRom a = true → Memory.read (boundary s).mem a.toNat = Memory.read s.mem a.toNat) ∧
    ∀ k : BusSlot, (∃ m, s.interleave k = { s with mem := m }) ∧
      (s.dev.usd.commanded = false → s.interleave k = s) ∧
      ∀ a : Word, inRom a = true → Memory.read (s.interleave k).mem a.toNat = Memory.read s.mem a.toNat

/-- A blank OP traps to the undefined instruction vector, whatever follows the first word; the decoder calls exactly the 93
blank values undefined (D12, D15). -/
def Obligations.BlankOpTrapsAsUndefined : Prop :=
  (∀ w1 w2 : Word, decodeWords w1 w2 = .error .undefinedOp ↔ BlankOp (opField w1).toNat) ∧
  (∀ (s : State) (w : Word),
    s.halted = false → accepted (boundary s) = none →
    loadWord (boundary s) s.pc = .ok w → BlankOp (opField w).toNat →
    step s = enterTrap .undefinedInstruction (s.pc + 2) (boundary s))

/-- An odd PC, or one at or above the limit in user mode with the MMU on, traps at the fetch and saves that PC; so does, for
an instruction of two words, a second word at or above the limit, which saves PC + 2 (D2, D15, D20). -/
def Obligations.FaultingFetchTraps : Prop :=
  ∀ s : State, s.halted = false → accepted (boundary s) = none →
    (s.pc[0] = true → step s = enterTrap .invalidAddress s.pc (boundary s)) ∧
    (s.pc[0] = false → s.flag.p = false → s.mmu.en = true → s.mmu.limit.toNat ≤ s.pc.toNat →
      step s = enterTrap .memoryProtection s.pc (boundary s)) ∧
    (∀ w1, s.flag.p = false → s.mmu.en = true → loadWord (boundary s) s.pc = .ok w1 →
      ¬ BlankOp (opField w1).toNat → hasSecondWord w1 = true → s.mmu.limit.toNat ≤ (s.pc + 2).toNat →
      step s = enterTrap .memoryProtection (s.pc + 2) (boundary s))

/-! ## Interrupts -/

/-- With E = 1 the pending source of lowest vector is accepted before the instruction at PC, which is saved; a step of a
CPU that is not halted is this, after the devices' move (D16). -/
def Obligations.LowestPendingInterruptIsAccepted : Prop :=
  (∀ (s : State) (c : Cause), c ∈ interruptSources → s.flag.e = true → s.pending.getLsbD c.number = true →
    (∀ c' ∈ interruptSources, c'.number < c.number → s.pending.getLsbD c'.number = false) →
    proceed s = enterTrap c s.pc s) ∧
  (∀ s : State, s.halted = false → step s = proceed (boundary s))

/-- A source whose enable bit is 0 does not request, and with E = 0 none of the ten is accepted, whatever is pending
(D16). -/
def Obligations.InterruptsNeedTheirEnables : Prop :=
  ∀ s : State,
    let quiet := fun c : Cause => (boundary s).pending.getLsbD c.number = false
    (s.dev.timer0.intEna = false → quiet .timer0) ∧ (s.dev.timer1.intEna = false → quiet .timer1) ∧
    (s.dev.ft232rl.rxIntEna = false → quiet .ft232rlReceive) ∧
    (s.dev.ft232rl.txIntEna = false → quiet .ft232rlTransmit) ∧
    (s.dev.tec.rxIntEna = false → quiet .tecReceive) ∧ (s.dev.tec.txIntEna = false → quiet .tecTransmit) ∧
    (s.dev.rn4020.rxIntEna = false → quiet .rn4020Receive) ∧
    (s.dev.rn4020.txIntEna = false → quiet .rn4020Transmit) ∧
    (s.dev.usd.intEna = false → quiet .usd) ∧
    (s.flag.e = false → proceed s = runInstruction s)

/-! ## Trap entry and return -/

/-- Trap entry: FLAG, SSP, PC from the vector, and what stays; and the frame in memory, while no other agent has been
commanded to store there (D14, D21). -/
def Obligations.TrapEntryBuildsTheFrame : Prop :=
  ∀ (c : Cause) (spc : Word) (s : State),
    s.ssp[0] = false → inRom (s.ssp - 2) = false → inRom (s.ssp - 4) = false →
    ∃ t, enterTrap c spc s = .next t ∧
      t.flag.p = true ∧ t.flag.e = false ∧ t.flag.i = s.flag.i ∧ t.flag.v = s.flag.v ∧ t.flag.c = s.flag.c ∧
      t.flag.s = s.flag.s ∧ t.flag.z = s.flag.z ∧ t.ssp = s.ssp - 4 ∧
      t.pc = Memory.readWord t.mem (BitVec.ofNat 16 (0xFFE0 + 2 * c.number)) ∧
      SameRegs [.ssp] s t ∧ SameIo s t ∧ SameRun s t ∧
      (s.dev.usd.commanded = false →
        Memory.readWord t.mem t.ssp = s.flag.word ∧ Memory.readWord t.mem (t.ssp + 2) = spc ∧
        SameMemBut [s.ssp - 2, s.ssp - 1, s.ssp - 4, s.ssp - 3] s t)

/-- The sixteen causes stand in the vector table in the order of the spec (FT232RL transmit: D29). -/
def Obligations.VectorTableIsTheSpecs : Prop :=
  [Cause.timer0, .timer1, .rn4020Receive, .rn4020Transmit, .ft232rlReceive, .ft232rlTransmit, .tecReceive, .tecTransmit,
    .usd, .adc, .invalidAddress, .memoryProtection, .zeroDivide, .privilegeViolation, .undefinedInstruction, .svc].map
      Cause.vector =
    [0xFFE0, 0xFFE2, 0xFFE4, 0xFFE6, 0xFFE8, 0xFFEA, 0xFFEC, 0xFFEE, 0xFFF0, 0xFFF2, 0xFFF4, 0xFFF6, 0xFFF8, 0xFFFA,
      0xFFFC, 0xFFFE]

/-- RETI right after a trap entry gives back FLAG, PC and SSP, and everything else but the dead frame in memory, while no
other agent has been commanded to store into the frame (D14, D17, D21). -/
def Obligations.ReturnUndoesTrapEntry : Prop :=
  ∀ (c : Cause) (spc : Word) (s t : State), s.dev.usd.commanded = false → enterTrap c spc s = .next t →
    exec .reti t = .next { s with pc := spc, mem := t.mem }

/-- RETI: PC from the upper word, FLAG from the lower, the stack pointer that gave them raised by 4; in user mode E, P and I
stay. Other agents may store between the two reads, and nothing else changes memory (D17, D21). -/
def Obligations.RetiRestoresFlagAndPc : Prop :=
  ∀ (s : State) (f p : Word), loadWord s s.sp = .ok f → loadWord (s.interleave .secondPop) (s.sp + 2) = .ok p →
    ∃ t, exec .reti s = .next t ∧ t.pc = p ∧ t.get s.spHome = s.sp + 4 ∧
      t.flag.v = f[3] ∧ t.flag.c = f[2] ∧ t.flag.s = f[1] ∧ t.flag.z = f[0] ∧
      (s.flag.p = true → t.flag.e = f[7] ∧ t.flag.p = f[6] ∧ t.flag.i = f[5]) ∧
      (s.flag.p = false → SameMode s t) ∧
      RegFrame [s.spHome] (s.interleave .secondPop) t

/-- SVC, in either mode, takes the SVC exception with the address after it saved (entry: D14, D21). -/
def Obligations.SvcTraps : Prop :=
  ∀ s : State, s.ssp[0] = false → inRom (s.ssp - 2) = false → inRom (s.ssp - 4) = false →
    ∃ t, exec .svc s = .next t ∧
      t.flag = { s.flag with p := true, e := false } ∧ t.ssp = s.ssp - 4 ∧
      t.pc = Memory.readWord t.mem 0xFFFE ∧
      SameRegs [.ssp] s t ∧ SameIo s t ∧ SameRun s t ∧
      (s.dev.usd.commanded = false →
        Memory.readWord t.mem t.ssp = s.flag.word ∧ Memory.readWord t.mem (t.ssp + 2) = s.pc + 2 ∧
        SameMemBut [s.ssp - 2, s.ssp - 1, s.ssp - 4, s.ssp - 3] s t)

/-! ## Privilege -/

/-- EI, DI and HALT in user mode, and IN and OUT in user mode with I = 0, raise the privilege violation before any effect
(D13, D15). -/
def Obligations.PrivilegedInstructionsTrapInUserMode : Prop :=
  ∀ s : State, s.flag.p = false →
    (∀ i ∈ [Instr.ei, .di, .halt], exec i s = enterTrap .privilegeViolation (s.pc + 2) s) ∧
    (s.flag.i = false → ∀ (rd : Reg) (p : IoEA),
      exec (.inp rd p) s = enterTrap .privilegeViolation (s.npc (IoEA.bytes p)) s ∧
      exec (.out rd p) s = enterTrap .privilegeViolation (s.npc (IoEA.bytes p)) s)

/-- EI and DI in privileged mode write E and nothing else (their privilege: D13). -/
def Obligations.EiAndDiWriteE : Prop :=
  ∀ s : State, s.flag.p = true →
    (∃ t, exec .ei s = .next t ∧ t.flag = { s.flag with e := true } ∧ t.pc = s.pc + 2 ∧ RegFrame [] s t) ∧
    (∃ t, exec .di s = .next t ∧ t.flag = { s.flag with e := false } ∧ t.pc = s.pc + 2 ∧ RegFrame [] s t)

/-- HALT in privileged mode stops the CPU with PC after it, all else kept; a halted CPU takes no step (D13, D18). -/
def Obligations.HaltStopsTheCpu : Prop :=
  (∀ s : State, s.flag.p = true →
    ∃ t, exec .halt s = .next t ∧ t.halted = true ∧ t.pc = s.pc + 2 ∧ t.flag = s.flag ∧
      SameRegs [] s t ∧ SameMem s t ∧ SameIo s t ∧ t.pending = s.pending ∧ t.clock = s.clock) ∧
  (∀ s : State, s.halted = true → step s = .fault .halted)

/-- P becomes 1 only by a trap entry, over an instruction and over a whole step; the instruction that makes it 0 is RETI,
with bit 6 of the FLAG it pops 0; and the one that changes I is RETI in privileged mode (D13, D14, D17). -/
def Obligations.ModeChangesOnlyByTrapAndReti : Prop :=
  (∀ (i : Instr) (s t : State), exec i s = .next t →
    (s.flag.p = false → t.flag.p = true → ∃ c spc, enterTrap c spc s = .next t) ∧
    (s.flag.p = true → t.flag.p = false → i = .reti ∧ ∃ f, loadWord s s.ssp = .ok f ∧ f[6] = false) ∧
    (t.flag.i ≠ s.flag.i → i = .reti ∧ s.flag.p = true)) ∧
  (∀ s t : State, step s = .next t →
    (s.flag.p = false → t.flag.p = true →
      ∃ c spc, ∃ u ∈ [boundary s, (boundary s).afterFetch], enterTrap c spc u = .next t) ∧
    (s.flag.p = true → t.flag.p = false → exec .reti (boundary s).afterFetch = .next t) ∧
    (t.flag.i ≠ s.flag.i → s.flag.p = true ∧ exec .reti (boundary s).afterFetch = .next t))

/-- An instruction that user mode runs and stays in user mode after: E, P and I stay, SSP stays, the CPU is not halted, the
I/O space is not touched unless I = 1, and with the MMU on it changes no byte outside the relocated window; what other
agents store between RETI's two reads is not its own (D13, D17, D20, D21). -/
def Obligations.UserModeIsConfined : Prop :=
  ∀ (i : Instr) (s t : State), exec i s = .next t → s.flag.p = false → t.flag.p = false →
    SameMode s t ∧ t.ssp = s.ssp ∧ SameRun s t ∧ (s.flag.i = false → SameIo s t) ∧
    (s.mmu.en = true → ∀ a : Nat,
      (∀ x : Word, x.toNat < s.mmu.limit.toNat → (x + s.mmu.base).toNat ≠ a ∧ (x + s.mmu.base + 1).toNat ≠ a) →
      Memory.read t.mem a = Memory.read (if i = .reti then s.interleave .secondPop else s).mem a)

/-- IN and OUT alone change the I/O space, and they do not change memory; the space is rows of two cells of 8 bits, the high
byte of a row at its even address (D1, D22; entry 6). -/
def Obligations.IoSpaceChangesOnlyByInAndOut : Prop :=
  (∀ (i : Instr) (s t : State), exec i s = .next t → (∀ rd p, i ≠ .inp rd p ∧ i ≠ .out rd p) → SameIo s t) ∧
  (∀ (rd : Reg) (p : IoEA) (s t : State), (s.flag.p = true ∨ s.flag.i = true) →
    exec (.inp rd p) s = .next t ∨ exec (.out rd p) s = .next t → SameMem s t) ∧
  (∀ (s : State) (a : BitVec 8), a[0] = false → portRow s (a + 1) = portRow s a ∧
    portRow s a = ioReadByte s a ++ ioReadByte s (a + 1))

/-! ## Memory access and operands -/

/-- Word and byte accesses meet big-endian: a word's high byte is at its address and its low byte at the next; a byte write
changes one cell (D1). -/
def Obligations.MixedWidthAccessesAreBigEndian : Prop :=
  (∀ (m : Memory) (a v : Word), Memory.read (Memory.writeWord m a v) a.toNat = v.extractLsb' 8 8 ∧
    Memory.read (Memory.writeWord m a v) (a + 1).toNat = v.extractLsb' 0 8 ∧
    ∀ k : Nat, k ≠ a.toNat → k ≠ (a + 1).toNat → Memory.read (Memory.writeWord m a v) k = Memory.read m k) ∧
  (∀ (m : Memory) (a k : Nat) (b : Byte),
    Memory.read (Memory.write m a b) k = if k = a then b else Memory.read m k)

/-- Registers by number: Dh is SSP in privileged mode and USP in user mode, Eh is USP in both (the polarity is the spec's inference in R23), Fh is
refused (D11). -/
def Obligations.StackPointerIsBankedByP : Prop :=
  ∀ (s : State) (v : Word),
    readReg s .sp = .ok (if s.flag.p then s.ssp else s.usp) ∧ readReg s .usp = .ok s.usp ∧
    writeReg s .sp v = .ok (if s.flag.p then { s with ssp := v } else { s with usp := v }) ∧
    writeReg s .usp v = .ok { s with usp := v } ∧
    readReg s .fp = .ok s.fp ∧ writeReg s .fp v = .ok { s with fp := v } ∧
    (∀ n : Fin 12, readReg s (.g n) = .ok s.g[n.val] ∧ writeReg s (.g n) v = .ok { s with g := s.g.set n.val v }) ∧
    readReg s .pc = .error (.refuse .registerF) ∧ writeReg s .pc v = .error (.refuse .registerF)

/-- The operand forms direct, immediate, register, 4-bit immediate and register indirect (R110, R112, R114 to R116). -/
def Obligations.OperandFormsYieldTheirOperands : Prop :=
  ∀ s : State,
    (∀ d, memAddress s (.direct d) = .ok d ∧ operand s (.mem (.direct d)) = loadWord s d) ∧
    (∀ v, operand s (.imm v) = .ok v) ∧
    (∀ rs, operand s (.reg rs) = readReg s rs) ∧
    (∀ i4 : BitVec 4, ∃ v : Word, v.toInt = i4.toInt ∧ operand s (.imm4 i4) = .ok v) ∧
    (∀ rx x, readReg s rx = .ok x →
      memAddress s (.indirect rx) = .ok x ∧ operand s (.mem (.indirect rx)) = loadWord s x)

/-- The indexed and the FP relative form's sums wrap (D3; entry 35) and the byte form's 8 bits are zero-extended (D5); the targets of the jumps and CALL
are the addresses themselves. -/
def Obligations.SumByteAndTargetForms : Prop :=
  ∀ s : State,
    (∀ d rx x, readReg s rx = .ok x → ∃ a : Word, a.toNat = (d.toNat + x.toNat) % 2 ^ 16 ∧
      memAddress s (.indexed d rx) = .ok a ∧ operand s (.mem (.indexed d rx)) = loadWord s a ∧
      targetAddress s (.indexed d rx) = .ok a) ∧
    (∀ d4 : BitVec 4, ∃ a : Word, a.toInt = (d4.toInt * 2 + s.fp.toInt).bmod (2 ^ 16) ∧
      memAddress s (.fpRel d4) = .ok a ∧ operand s (.mem (.fpRel d4)) = loadWord s a) ∧
    (∀ rx x b, readReg s rx = .ok x → loadByte s x = .ok b →
      ∃ v : Word, v.toNat = b.toNat ∧ operand s (.mem (.byteIndirect rx)) = .ok v) ∧
    (∀ d, targetAddress s (.direct d) = .ok d) ∧
    (∀ rx x, readReg s rx = .ok x → targetAddress s (.indirect rx) = .ok x)

/-- The MMU: with P = 0 and the MMU on, an address at or above the limit is a protection violation and one below it is
moved up by the base; otherwise addresses are untranslated. A word access at an odd address is an invalid address first;
a byte access never is. A store into the ROM is refused (D2, D20; entry 15). -/
def Obligations.AddressChecksAndRelocation : Prop :=
  ∀ (s : State) (a : Word),
    let reaches := fun p : Word =>
      loadByte s a = .ok (Memory.read s.mem p.toNat) ∧
      (∀ v, storeByte s a v =
        if inRom p then .error (.refuse .romStore) else .ok { s with mem := Memory.write s.mem p.toNat v }) ∧
      (a[0] = false → loadWord s a = .ok (Memory.readWord s.mem p) ∧
        ∀ v, storeWord s a v =
          if inRom p || inRom (p + 1) then .error (.refuse .romStore)
          else .ok { s with mem := Memory.writeWord s.mem p v })
    (a[0] = true → loadWord s a = .error (.trap .invalidAddress) ∧
      ∀ v, storeWord s a v = .error (.trap .invalidAddress)) ∧
    (s.flag.p = false → s.mmu.en = true → s.mmu.limit.toNat ≤ a.toNat →
      loadByte s a = .error (.trap .memoryProtection) ∧ (∀ v, storeByte s a v = .error (.trap .memoryProtection)) ∧
      (a[0] = false → loadWord s a = .error (.trap .memoryProtection) ∧
        ∀ v, storeWord s a v = .error (.trap .memoryProtection))) ∧
    (s.flag.p = false → s.mmu.en = true → a.toNat < s.mmu.limit.toNat → reaches (a + s.mmu.base)) ∧
    ((s.flag.p = true ∨ s.mmu.en = false) → reaches a)

/-- An instruction whose operand's read, or whose store, raises an exception takes it, with the address after the
instruction saved, and has changed nothing (D15, D31). A store raises the invalid address exception at an odd address of a
word form, and the memory protection violation at or above the limit in user mode with the MMU on (D2, D20). -/
def Obligations.OperandFaultsTrapPrecisely : Prop :=
  (∀ (s : State) (rd : Reg) (ea : EA) (c : Cause), rd ≠ .pc → operand s ea = .error (.trap c) →
    (∀ i ∈ [Instr.ld rd ea, .add rd ea, .sub rd ea, .cmp rd ea, .and rd ea, .or rd ea, .xor rd ea, .adds rd ea,
      .mul rd ea, .div rd ea, .mod rd ea, .shla rd ea, .shll rd ea, .shra rd ea, .shrl rd ea],
      exec i s = enterTrap c (s.npc (EA.bytes ea)) s) ∧
    (rd.headsPair = true → ∀ i ∈ [Instr.mull rd ea, .divl rd ea], exec i s = enterTrap c (s.npc (EA.bytes ea)) s)) ∧
  (∀ (s : State) (rd : Reg) (m : MemEA) (v : Word) (c : Cause), readReg s rd = .ok v →
    memStore s m v = .error (.trap c) → exec (.st rd m) s = enterTrap c (s.npc (MemEA.bytes m)) s) ∧
  (∀ (s : State) (rd : Reg) (m : MemEA) (a : Word), rd ≠ .pc → memAddress s m = .ok a →
    (MemEA.isWord m = true → a[0] = true →
      exec (.st rd m) s = enterTrap .invalidAddress (s.npc (MemEA.bytes m)) s) ∧
    ((MemEA.isWord m = true → a[0] = false) → s.flag.p = false → s.mmu.en = true → s.mmu.limit.toNat ≤ a.toNat →
      exec (.st rd m) s = enterTrap .memoryProtection (s.npc (MemEA.bytes m)) s))

/-! ## Transfer -/

/-- NO changes nothing but PC. -/
def Obligations.NoOnlyAdvancesPc : Prop :=
  ∀ s : State, ∃ t, exec .no s = .next t ∧ t.pc = s.pc + 2 ∧ t.flag = s.flag ∧ RegFrame [] s t

/-- LD puts the operand into Rd; the flags stay. -/
def Obligations.LdLoadsTheOperand : Prop :=
  ∀ (rd : Reg) (ea : EA) (s : State) (v : Word) (h : Home), Reg.home s.flag.p rd = some h → operand s ea = .ok v →
    ∃ t, exec (.ld rd ea) s = .next t ∧ t.get h = v ∧ t.flag = s.flag ∧ t.pc = s.npc (EA.bytes ea) ∧ RegFrame [h] s t

/-- LD Rd,FLAG puts `00000000 E P I 0 V C S Z` into Rd; the zeros are D27, PC's advance D3 (entry 35). -/
def Obligations.LdFlagReadsFlag : Prop :=
  ∀ (rd : Reg) (s : State) (h : Home), Reg.home s.flag.p rd = some h →
    ∃ t, exec (.ldFlag rd) s = .next t ∧
      (t.get h).toNat = 128 * s.flag.e.toNat + 64 * s.flag.p.toNat + 32 * s.flag.i.toNat + 8 * s.flag.v.toNat +
        4 * s.flag.c.toNat + 2 * s.flag.s.toNat + s.flag.z.toNat ∧
      t.flag = s.flag ∧ t.pc = s.pc + 2 ∧ RegFrame [h] s t

/-- ST stores Rd in the two cells at `ea`, or, in the byte form, Rd's low byte in the one cell there, and changes no other
byte (D1, D5). -/
def Obligations.StStoresAtItsAddress : Prop :=
  ∀ (rd : Reg) (m : MemEA) (s : State) (h : Home) (a p : Word),
    Reg.home s.flag.p rd = some h → memAddress s m = .ok a →
    (MemEA.isWord m = true → WordStore s a p →
      ∃ t, exec (.st rd m) s = .next t ∧ Memory.readWord t.mem p = s.get h ∧ t.flag = s.flag ∧
        t.pc = s.npc (MemEA.bytes m) ∧ StoreFrame [] [p, p + 1] s t) ∧
    (MemEA.isWord m = false → ByteStore s a p →
      ∃ t, exec (.st rd m) s = .next t ∧ Memory.read t.mem p.toNat = (s.get h).extractLsb' 0 8 ∧ t.flag = s.flag ∧
        t.pc = s.npc (MemEA.bytes m) ∧ StoreFrame [] [p] s t)

/-- Refused by name, as the spec gives no meaning: ST, PUSH (of a register other than SP) and CALL storing into
F000h-FFDFh, MULL and DIVL on a register that heads no pair, a 16-bit IN or OUT at an odd I/O address, a trap entry whose
pushes meet an odd SSP or the ROM (D11, D22; entries 13, 15, 16, 17). -/
def Obligations.RomStoresBadPairsOddIoAndDoubleFaultsAreRefused : Prop :=
  (∀ (rd : Reg) (m : MemEA) (s : State) (a p : Word), rd ≠ .pc → memAddress s m = .ok a →
    (MemEA.isWord m = true → a[0] = false) → physical s a = .ok p → 0xF000 ≤ p.toNat → p.toNat < 0xFFE0 →
    exec (.st rd m) s = .refused .romStore) ∧
  (∀ (s : State) (p : Word), s.sp[0] = false → physical s (s.sp - 2) = .ok p → 0xF000 ≤ p.toNat → p.toNat < 0xFFE0 →
    (∀ rd h, Reg.home s.flag.p rd = some h → h ≠ s.spHome → exec (.push rd) s = .refused .romStore) ∧
    (∀ tgt x, targetAddress s tgt = .ok x → exec (.call tgt) s = .refused .romStore)) ∧
  (∀ (rd : Reg) (ea : EA) (s : State), rd.headsPair = false →
    exec (.mull rd ea) s = .refused .oddPair ∧ exec (.divl rd ea) s = .refused .oddPair) ∧
  (∀ (rd : Reg) (p : IoEA) (s : State) (a : BitVec 8), rd ≠ .pc → (s.flag.p = true ∨ s.flag.i = true) →
    ioAddress s p = .ok a → IoEA.isWord p = true → a[0] = true →
    exec (.inp rd p) s = .refused .oddIoAddress ∧ exec (.out rd p) s = .refused .oddIoAddress) ∧
  (∀ (c : Cause) (spc : Word) (s : State), (s.ssp[0] = true ∨ inRom (s.ssp - 2) = true ∨ inRom (s.ssp - 4) = true) →
    enterTrap c spc s = .refused .trapEntry)

/-! ## Arithmetic and logic -/

/-- ADD: the sum, its carry and its signed overflow (D6). -/
def Obligations.AddGivesSumAndFlags : Prop :=
  ∀ (rd : Reg) (ea : EA) (s : State) (b : Word) (h : Home), Reg.home s.flag.p rd = some h → operand s ea = .ok b →
    ∃ t, exec (.add rd ea) s = .next t ∧
      (t.get h).toNat = ((s.get h).toNat + b.toNat) % 2 ^ 16 ∧
      (t.flag.c = true ↔ 2 ^ 16 ≤ (s.get h).toNat + b.toNat) ∧
      (t.flag.v = true ↔ (s.get h)[15] = b[15] ∧ (t.get h)[15] ≠ (s.get h)[15]) ∧
      (t.flag.v = true ↔ (s.get h).toInt + b.toInt < -2 ^ 15 ∨ 2 ^ 15 ≤ (s.get h).toInt + b.toInt) ∧
      FlagsOf (t.get h) t.flag ∧ SameMode s t ∧ t.pc = s.npc (EA.bytes ea) ∧ RegFrame [h] s t

/-- SUB: the difference, its borrow and its signed overflow (D6). -/
def Obligations.SubGivesDifferenceAndFlags : Prop :=
  ∀ (rd : Reg) (ea : EA) (s : State) (b : Word) (h : Home), Reg.home s.flag.p rd = some h → operand s ea = .ok b →
    ∃ t, exec (.sub rd ea) s = .next t ∧
      (t.get h).toInt = ((s.get h).toInt - b.toInt).bmod (2 ^ 16) ∧
      (t.flag.c = true ↔ (s.get h).toNat < b.toNat) ∧
      (t.flag.v = true ↔ (s.get h)[15] ≠ b[15] ∧ (t.get h)[15] ≠ (s.get h)[15]) ∧
      (t.flag.v = true ↔ (s.get h).toInt - b.toInt < -2 ^ 15 ∨ 2 ^ 15 ≤ (s.get h).toInt - b.toInt) ∧
      FlagsOf (t.get h) t.flag ∧ SameMode s t ∧ t.pc = s.npc (EA.bytes ea) ∧ RegFrame [h] s t

/-- CMP writes no register, and its flags say how Rd and the operand compare (D6). -/
def Obligations.CmpOnlySetsFlags : Prop :=
  ∀ (rd : Reg) (ea : EA) (s : State) (a b : Word), readReg s rd = .ok a → operand s ea = .ok b →
    ∃ t, exec (.cmp rd ea) s = .next t ∧
      (t.flag.c = true ↔ a.toNat < b.toNat) ∧ (t.flag.s ≠ t.flag.v ↔ a.toInt < b.toInt) ∧
      (t.flag.v = true ↔ a[15] ≠ b[15] ∧ (a - b)[15] ≠ a[15]) ∧ FlagsOf (a - b) t.flag ∧
      SameMode s t ∧ t.pc = s.npc (EA.bytes ea) ∧ RegFrame [] s t

/-- The compare and jump table: after CMP, each jump is taken exactly in its relation, signed or unsigned (D6). -/
def Obligations.CompareAndJumpTable : Prop :=
  ∀ (rd : Reg) (ea : EA) (s : State) (a b : Word), readReg s rd = .ok a → operand s ea = .ok b →
    ∃ t, exec (.cmp rd ea) s = .next t ∧
      ∀ (tgt : Target) (x : Word), targetAddress t tgt = .ok x →
        let jump := fun (i : Instr) (taken : Prop) => Goes i (Target.bytes tgt) x taken t
        jump (.jgt tgt) (b.toInt < a.toInt) ∧ jump (.jge tgt) (b.toInt ≤ a.toInt) ∧
        jump (.jle tgt) (a.toInt ≤ b.toInt) ∧ jump (.jlt tgt) (a.toInt < b.toInt) ∧
        jump (.jhi tgt) (b.toNat < a.toNat) ∧ jump (.jnc tgt) (b.toNat ≤ a.toNat) ∧
        jump (.jls tgt) (a.toNat ≤ b.toNat) ∧ jump (.jc tgt) (a.toNat < b.toNat) ∧
        jump (.jz tgt) (a = b) ∧ jump (.jnz tgt) (a ≠ b)

/-- AND, OR and XOR act bit by bit and clear C and V (D7). -/
def Obligations.LogicGivesBitsAndFlags : Prop :=
  ∀ (rd : Reg) (ea : EA) (s : State) (b : Word) (h : Home), Reg.home s.flag.p rd = some h → operand s ea = .ok b →
    ∀ p ∈ [(Instr.and rd ea, Bool.and), (Instr.or rd ea, Bool.or), (Instr.xor rd ea, Bool.xor)],
      ∃ t, exec p.1 s = .next t ∧
        (∀ k : Fin 16, (t.get h)[k.val] = p.2 (s.get h)[k.val] b[k.val]) ∧
        t.flag.c = false ∧ t.flag.v = false ∧
        FlagsOf (t.get h) t.flag ∧ SameMode s t ∧ t.pc = s.npc (EA.bytes ea) ∧ RegFrame [h] s t

/-- ADDS adds the doubled operand, whose bit 15 is lost (D8). -/
def Obligations.AddsAddsTheDoubledOperand : Prop :=
  ∀ (rd : Reg) (ea : EA) (s : State) (b : Word) (h : Home), Reg.home s.flag.p rd = some h → operand s ea = .ok b →
    let b2 := b.toNat * 2 % 2 ^ 16
    ∃ t, exec (.adds rd ea) s = .next t ∧
      (t.get h).toNat = ((s.get h).toNat + b2) % 2 ^ 16 ∧
      (t.flag.c = true ↔ 2 ^ 16 ≤ (s.get h).toNat + b2) ∧
      (t.flag.v = true ↔ (s.get h)[15] = b[14] ∧ (t.get h)[15] ≠ (s.get h)[15]) ∧
      FlagsOf (t.get h) t.flag ∧ SameMode s t ∧ t.pc = s.npc (EA.bytes ea) ∧ RegFrame [h] s t

/-! ## Multiply and divide -/

/-- MUL keeps the low 16 bits of the product; MULL puts the 32-bit product into Rd+1 (high word) and Rd (low word) (D9). -/
def Obligations.MulAndMullGiveTheProduct : Prop :=
  (∀ (rd : Reg) (ea : EA) (s : State) (b : Word) (h : Home), Reg.home s.flag.p rd = some h → operand s ea = .ok b →
    ∃ t, exec (.mul rd ea) s = .next t ∧
      (t.get h).toNat = (s.get h).toNat * b.toNat % 2 ^ 16 ∧ t.flag.c = false ∧ t.flag.v = false ∧
      FlagsOf (t.get h) t.flag ∧ SameMode s t ∧ t.pc = s.npc (EA.bytes ea) ∧ RegFrame [h] s t) ∧
  (∀ (rd rd' : Reg) (ea : EA) (s : State) (b : Word) (h h' : Home), Reg.partner rd = some rd' →
    Reg.home s.flag.p rd = some h → Reg.home s.flag.p rd' = some h' → operand s ea = .ok b →
    ∃ t, exec (.mull rd ea) s = .next t ∧
      (t.get h').toNat * 2 ^ 16 + (t.get h).toNat = (s.get h).toNat * b.toNat ∧
      t.flag.c = false ∧ t.flag.v = false ∧
      FlagsOf (t.get h) t.flag ∧ SameMode s t ∧ t.pc = s.npc (EA.bytes ea) ∧ RegFrame [h, h'] s t)

/-- DIV and MOD by a nonzero operand: unsigned quotient and remainder (D9). -/
def Obligations.DivAndModGiveQuotientAndRemainder : Prop :=
  ∀ (rd : Reg) (ea : EA) (s : State) (b : Word) (h : Home), Reg.home s.flag.p rd = some h → operand s ea = .ok b → b ≠ 0 →
    ∃ q m, exec (.div rd ea) s = .next q ∧ exec (.mod rd ea) s = .next m ∧
      (s.get h).toNat = b.toNat * (q.get h).toNat + (m.get h).toNat ∧ (m.get h).toNat < b.toNat ∧
      ∀ t ∈ [q, m], t.flag.c = false ∧ t.flag.v = false ∧ FlagsOf (t.get h) t.flag ∧ SameMode s t ∧
        t.pc = s.npc (EA.bytes ea) ∧ RegFrame [h] s t

/-- DIV, MOD and DIVL by 0 take the division by zero exception and change no register and no condition flag (D24). -/
def Obligations.DivisionByZeroTraps : Prop :=
  ∀ (rd : Reg) (ea : EA) (s : State), rd ≠ .pc → operand s ea = .ok 0 →
    exec (.div rd ea) s = enterTrap .zeroDivide (s.npc (EA.bytes ea)) s ∧
    exec (.mod rd ea) s = enterTrap .zeroDivide (s.npc (EA.bytes ea)) s ∧
    (rd.headsPair = true → exec (.divl rd ea) s = enterTrap .zeroDivide (s.npc (EA.bytes ea)) s)

/-- DIVL with a quotient that fits: quotient in Rd, remainder in Rd+1 (D9). -/
def Obligations.DivlGivesQuotientAndRemainder : Prop :=
  ∀ (rd rd' : Reg) (ea : EA) (s : State) (b : Word) (h h' : Home), Reg.partner rd = some rd' →
    Reg.home s.flag.p rd = some h → Reg.home s.flag.p rd' = some h' → operand s ea = .ok b →
    (s.get h').toNat < b.toNat →
    ∃ t, exec (.divl rd ea) s = .next t ∧
      (s.get h').toNat * 2 ^ 16 + (s.get h).toNat = b.toNat * (t.get h).toNat + (t.get h').toNat ∧
      (t.get h').toNat < b.toNat ∧
      t.flag.c = false ∧ t.flag.v = false ∧
      FlagsOf (t.get h) t.flag ∧ SameMode s t ∧ t.pc = s.npc (EA.bytes ea) ∧ RegFrame [h, h'] s t

/-- Refused by name: a DIVL whose quotient does not fit, the operand being nonzero and not above Rd+1 (D25; entry 10). -/
def Obligations.DivlOverflowIsRefused : Prop :=
  ∀ (rd rd' : Reg) (ea : EA) (s : State) (b : Word) (h h' : Home), Reg.partner rd = some rd' →
    Reg.home s.flag.p rd = some h → Reg.home s.flag.p rd' = some h' → operand s ea = .ok b → b ≠ 0 →
    b.toNat ≤ (s.get h').toNat →
    exec (.divl rd ea) s = .refused .quotientOverflow

/-! ## Shifts -/

/-- SHLA and SHLL by 0 to 15: the low 16 bits of a * 2^n, C the last bit out of bit 15 (D10). -/
def Obligations.LeftShiftsMultiply : Prop :=
  ∀ (rd : Reg) (ea : EA) (s : State) (n : Word) (h : Home), Reg.home s.flag.p rd = some h → operand s ea = .ok n →
    n.toNat < 16 → ∀ i ∈ [Instr.shla rd ea, .shll rd ea],
    ∃ t, exec i s = .next t ∧
      (t.get h).toNat = (s.get h).toNat * 2 ^ n.toNat % 2 ^ 16 ∧
      (t.flag.c = true ↔ (s.get h).toNat * 2 ^ n.toNat / 2 ^ 16 % 2 = 1) ∧ t.flag.v = false ∧
      FlagsOf (t.get h) t.flag ∧ SameMode s t ∧ t.pc = s.npc (EA.bytes ea) ∧ RegFrame [h] s t

/-- SHRA and SHRL by 0 to 15: the floor of a / 2^n, a signed and unsigned, C the last bit out of bit 0 (D10). -/
def Obligations.RightShiftsDivide : Prop :=
  ∀ (rd : Reg) (ea : EA) (s : State) (n : Word) (h : Home), Reg.home s.flag.p rd = some h → operand s ea = .ok n →
    n.toNat < 16 →
    ∃ a l, exec (.shra rd ea) s = .next a ∧ exec (.shrl rd ea) s = .next l ∧
      (a.get h).toInt = (s.get h).toInt / 2 ^ n.toNat ∧ (l.get h).toNat = (s.get h).toNat / 2 ^ n.toNat ∧
      ∀ t ∈ [a, l], (t.flag.c = true ↔ n.toNat ≠ 0 ∧ (s.get h).toNat / 2 ^ (n.toNat - 1) % 2 = 1) ∧ t.flag.v = false ∧
        FlagsOf (t.get h) t.flag ∧ SameMode s t ∧ t.pc = s.npc (EA.bytes ea) ∧ RegFrame [h] s t

/-- The model's choice (entry 9): a shift by 16 or more goes on, with nothing said of the word it leaves in Rd and of C; V is
0, and Z and S go by that word. -/
def Obligations.LargeShiftsGoOn : Prop :=
  ∀ (rd : Reg) (ea : EA) (s : State) (n : Word) (h : Home), Reg.home s.flag.p rd = some h → operand s ea = .ok n →
    16 ≤ n.toNat → ∀ i ∈ [Instr.shla rd ea, .shll rd ea, .shra rd ea, .shrl rd ea],
    ∃ t, exec i s = .next t ∧ t.flag.v = false ∧
      FlagsOf (t.get h) t.flag ∧ SameMode s t ∧ t.pc = s.npc (EA.bytes ea) ∧ RegFrame [h] s t

/-! ## Jumps and CALL -/

/-- The fifteen jumps go by their conditions on the flags and change nothing but PC. -/
def Obligations.JumpsGoByTheirConditions : Prop :=
  ∀ (tgt : Target) (s : State) (x : Word), targetAddress s tgt = .ok x →
    let jump := fun (i : Instr) (taken : Prop) => Goes i (Target.bytes tgt) x taken s
    let f := s.flag
    jump (.jz tgt) (f.z = true) ∧ jump (.jc tgt) (f.c = true) ∧ jump (.jm tgt) (f.s = true) ∧ jump (.jo tgt) (f.v = true) ∧
    jump (.jgt tgt) (f.z = false ∧ f.s = f.v) ∧ jump (.jge tgt) (f.s = f.v) ∧
    jump (.jle tgt) (f.z = true ∨ f.s ≠ f.v) ∧ jump (.jlt tgt) (f.s ≠ f.v) ∧
    jump (.jnz tgt) (f.z = false) ∧ jump (.jnc tgt) (f.c = false) ∧ jump (.jnm tgt) (f.s = false) ∧ jump (.jno tgt) (f.v = false) ∧
    jump (.jhi tgt) (f.z = false ∧ f.c = false) ∧ jump (.jls tgt) (f.z = true ∨ f.c = true) ∧ jump (.jmp tgt) True

/-- CALL stores the address of the next instruction below SP, lowers SP to it and goes to the target formed before that (D3, D4). -/
def Obligations.CallPushesTheReturnAddress : Prop :=
  ∀ (tgt : Target) (s : State) (x p : Word), targetAddress s tgt = .ok x → WordStore s (s.sp - 2) p →
    ∃ t, exec (.call tgt) s = .next t ∧ t.pc = x ∧ Memory.readWord t.mem p = s.npc (Target.bytes tgt) ∧
      t.get s.spHome = s.sp - 2 ∧ t.flag = s.flag ∧ StoreFrame [s.spHome] [p, p + 1] s t

/-! ## Stack -/

/-- PUSH of a register other than the stack pointer stores it below SP and lowers SP to it (D4). -/
def Obligations.PushStoresBelowSp : Prop :=
  ∀ (rd : Reg) (s : State) (h : Home) (p : Word), Reg.home s.flag.p rd = some h → h ≠ s.spHome →
    WordStore s (s.sp - 2) p →
    ∃ t, exec (.push rd) s = .next t ∧ Memory.readWord t.mem p = s.get h ∧ t.get s.spHome = s.sp - 2 ∧
      t.flag = s.flag ∧ t.pc = s.pc + 2 ∧ StoreFrame [s.spHome] [p, p + 1] s t

/-- Refused by name, whatever SP holds: PUSH and POP of the current stack pointer, Dh in both modes and Eh in user mode, and
of no other register (D30; entries 11, 12). -/
def Obligations.PushAndPopRefuseTheStackPointer : Prop :=
  ∀ (rd : Reg) (s : State),
    (exec (.push rd) s = .refused .ownStackPointer ↔ rd = .sp ∨ (rd = .usp ∧ s.flag.p = false)) ∧
    (exec (.pop rd) s = .refused .ownStackPointer ↔ rd = .sp ∨ (rd = .usp ∧ s.flag.p = false))

/-- POP into a register other than the stack pointer, and RET into PC, load the word at SP and raise SP past it (D4). -/
def Obligations.PopAndRetLoadFromSp : Prop :=
  ∀ (s : State) (v : Word), loadWord s s.sp = .ok v →
    (∀ (rd : Reg) (h : Home), Reg.home s.flag.p rd = some h → h ≠ s.spHome →
      ∃ t, exec (.pop rd) s = .next t ∧ t.get h = v ∧ t.get s.spHome = s.sp + 2 ∧
        t.flag = s.flag ∧ t.pc = s.pc + 2 ∧ RegFrame [h, s.spHome] s t) ∧
    (∃ t, exec .ret s = .next t ∧ t.pc = v ∧ t.get s.spHome = s.sp + 2 ∧ t.flag = s.flag ∧ RegFrame [s.spHome] s t)

/-- What PUSH stores, the next POP loads, and RET after CALL goes to the instruction after the CALL; SP is then as it was
(D3, D4). -/
def Obligations.StackUndoesItself : Prop :=
  ∀ (s : State) (p : Word), WordStore s (s.sp - 2) p →
    (∀ (rd rd' : Reg) (h h' : Home), Reg.home s.flag.p rd = some h → Reg.home s.flag.p rd' = some h' →
      h ≠ s.spHome → h' ≠ s.spHome →
      ∃ t u, exec (.push rd) s = .next t ∧ exec (.pop rd') t = .next u ∧ u.get h' = s.get h ∧
        u.flag = s.flag ∧ u.pc = s.pc + 4 ∧ StoreFrame [h'] [p, p + 1] s u) ∧
    (∀ (tgt : Target) (x : Word), targetAddress s tgt = .ok x →
      ∃ t u, exec (.call tgt) s = .next t ∧ exec .ret t = .next u ∧ u.pc = s.npc (Target.bytes tgt) ∧
        u.flag = s.flag ∧ StoreFrame [] [p, p + 1] s u)

/-- PUSH, CALL, POP, RET and RETI take the invalid address exception at an odd SP, and at an even one the memory protection
violation where, in user mode with the MMU on, their stack access is at or above the limit (for RETI also its second
read, at SP + 2); they have changed nothing before it (D2, D15, D20, D31). PUSH and POP of the stack pointer itself are
refused at any SP: PushAndPopRefuseTheStackPointer. -/
def Obligations.StackAccessFaultsTrap : Prop :=
  ∀ s : State,
    let stores := fun c : Cause =>
      (∀ rd h, Reg.home s.flag.p rd = some h → h ≠ s.spHome → exec (.push rd) s = enterTrap c (s.pc + 2) s) ∧
      (∀ tgt x, targetAddress s tgt = .ok x → exec (.call tgt) s = enterTrap c (s.npc (Target.bytes tgt)) s)
    let loads := fun c : Cause =>
      (∀ rd h, Reg.home s.flag.p rd = some h → h ≠ s.spHome → exec (.pop rd) s = enterTrap c (s.pc + 2) s) ∧
      exec .ret s = enterTrap c (s.pc + 2) s ∧
      exec .reti s = enterTrap c (s.pc + 2) s
    (s.sp[0] = true → stores .invalidAddress ∧ loads .invalidAddress) ∧
    (s.sp[0] = false → s.flag.p = false → s.mmu.en = true →
      (s.mmu.limit.toNat ≤ (s.sp - 2).toNat → stores .memoryProtection) ∧
      (s.mmu.limit.toNat ≤ s.sp.toNat → loads .memoryProtection) ∧
      (s.sp.toNat < s.mmu.limit.toNat → s.mmu.limit.toNat ≤ (s.sp + 2).toNat →
        exec .reti s = enterTrap .memoryProtection (s.pc + 2) s))

/-! ## Input and output -/

/-- IN, allowed by P or I: the word of an even row, or the one cell, zero-extended, in the byte form (D13, D22, D32; entries
26, 35). That the devices and the pending bits stay is the model's choice (entry 20): a read "may have side effects"
(spec/20_memory.md R75), which the model shows in the free values of the next boundary only. -/
def Obligations.InReadsThePort : Prop :=
  ∀ (rd : Reg) (p : IoEA) (s : State) (h : Home) (a : BitVec 8), (s.flag.p = true ∨ s.flag.i = true) →
    Reg.home s.flag.p rd = some h → ioAddress s p = .ok a → (IoEA.isWord p = true → a[0] = false) →
    ∃ t, exec (.inp rd p) s = .next t ∧
      (IoEA.isWord p = true → t.get h = portRow s a) ∧
      (IoEA.isWord p = false → (t.get h).toNat =
        if a[0] then (portRow s a).toNat % 2 ^ 8 else (portRow s a).toNat / 2 ^ 8) ∧
      t.flag = s.flag ∧ t.pc = s.npc (IoEA.bytes p) ∧ RegFrame [h] s t

/-- OUT, allowed by P or I: the cells of the row, or the one cell in the byte form, take Rd, and the access is recorded
(D13, D22, D32; entry 21). -/
def Obligations.OutWritesThePort : Prop :=
  ∀ (rd : Reg) (p : IoEA) (s : State) (h : Home) (a : BitVec 8), (s.flag.p = true ∨ s.flag.i = true) →
    Reg.home s.flag.p rd = some h → ioAddress s p = .ok a → (IoEA.isWord p = true → a[0] = false) →
    ∃ t, exec (.out rd p) s = .next t ∧
      (IoEA.isWord p = true → t.ioLog = .word a (s.get h) :: s.ioLog ∧
        t.dev = (writeCell (writeCell s a (hiByte (s.get h))) (a + 1) (loByte (s.get h))).dev ∧
        t.mmu = (writeCell (writeCell s a (hiByte (s.get h))) (a + 1) (loByte (s.get h))).mmu) ∧
      (IoEA.isWord p = false → t.ioLog = .byte a (loByte (s.get h)) :: s.ioLog ∧
        t.dev = (writeCell s a (loByte (s.get h))).dev ∧ t.mmu = (writeCell s a (loByte (s.get h))).mmu) ∧
      t.flag = s.flag ∧ t.pc = s.npc (IoEA.bytes p) ∧ SameRegs [] s t ∧ SameMem s t ∧ SameRun s t

/-- Word OUTs to the MMU's rows and to the rows of the timers, the serial devices, the micro SD controller and RN4020-RAM set
the fields the layouts name, cell by cell (D22; entry 21). The rows F2h, F4h and F6h and the high byte of F0h read 0. -/
def Obligations.ControlPortsSetTheirFields : Prop :=
  ∀ (s : State) (v : Word),
    let out := fun (a : BitVec 8) => ioWriteWord s a v
    (∃ t, out 0xF0 = .ok t ∧ t.mmu = { s.mmu with en := v[0] } ∧ t.dev = s.dev) ∧
    (∃ t, out 0xF4 = .ok t ∧ t.mmu = { s.mmu with base := v } ∧ t.dev = s.dev) ∧
    (∃ t, out 0xF6 = .ok t ∧ t.mmu = { s.mmu with limit := v } ∧ t.dev = s.dev) ∧
    (∃ t, out 0x00 = .ok t ∧ t.dev.timer0 = { s.dev.timer0 with period := v } ∧ t.mmu = s.mmu) ∧
    (∃ t, out 0x02 = .ok t ∧ t.dev.timer0 = { s.dev.timer0 with intEna := v[15], start := v[0] } ∧ t.mmu = s.mmu) ∧
    (∃ t, out 0x04 = .ok t ∧ t.dev.timer1 = { s.dev.timer1 with period := v } ∧ t.mmu = s.mmu) ∧
    (∃ t, out 0x06 = .ok t ∧ t.dev.timer1 = { s.dev.timer1 with intEna := v[15], start := v[0] } ∧ t.mmu = s.mmu) ∧
    (∃ t, out 0x0A = .ok t ∧ t.dev.ft232rl = { s.dev.ft232rl with txIntEna := v[7], rxIntEna := v[6] }) ∧
    (∃ t, out 0x0E = .ok t ∧ t.dev.tec = { s.dev.tec with txIntEna := v[7], rxIntEna := v[6] }) ∧
    (∃ t, out 0x2A = .ok t ∧ t.dev.rn4020 = { s.dev.rn4020 with txIntEna := v[7], rxIntEna := v[6] }) ∧
    (∃ t, out 0x10 = .ok t ∧ t.dev.usd.intEna = v[7] ∧ t.dev.usd.init = v[2] ∧ t.dev.usd.read = v[1] ∧
      t.dev.usd.write = v[0]) ∧
    (∃ t, out 0x12 = .ok t ∧ t.dev.usd = { s.dev.usd with memAddr := v }) ∧
    (∃ t, out 0x14 = .ok t ∧ t.dev.usd = { s.dev.usd with blkAddrH := v }) ∧
    (∃ t, out 0x16 = .ok t ∧ t.dev.usd = { s.dev.usd with blkAddrL := v }) ∧
    (∃ t, out 0x2E = .ok t ∧ portRow t 0x2E = v &&& 0x00FF) ∧
    portRow s 0xF0 &&& 0xFF00 = 0 ∧ portRow s 0xF2 = 0 ∧ portRow s 0xF4 = 0 ∧ portRow s 0xF6 = 0

/-- What an IN of the ports with fixed bits reads: the mode (entry 29), the empty rows, the Stat layouts, the zeros in the
"+0" cells of the 8-bit ports. A write to an empty row has no effect (entry 21). -/
def Obligations.FixedPortBitsReadAsTheSpecSays : Prop :=
  ∀ s : State,
    portRow s 0x1E = 0x0001 ∧
    (∀ a : BitVec 8, 0x38 ≤ a.toNat → a.toNat ≤ 0xEF → portRow s a = 0 ∧ ∀ v, writeCell s a v = s) ∧
    (∀ a ∈ [(0x08 : BitVec 8), 0x0C, 0x18, 0x1A, 0x1C, 0x28, 0x2E, 0x30, 0x36, 0xF0], portRow s a &&& 0xFF00 = 0) ∧
    (∀ a ∈ [(0x0A : BitVec 8), 0x0E, 0x2A], portRow s a &&& 0xFF3F = 0) ∧
    portRow s 0x10 &&& 0xFF3E = 0 ∧ portRow s 0x2C &&& 0xFFF0 = 0 ∧ portRow s 0xFC &&& 0xFFE0 = 0 ∧
    portRow s 0xFE &&& 0xFFF0 = 0 ∧ portRow s 0x32 = 0 ∧ portRow s 0x34 = 0
end

