-- ==== Sys2Proof/Laws/Decode.lean ====
section
/-! SUPPORT. The fields of an encoded first word, and the register fields both ways. -/

namespace Sys2Proof

theorem getLsbD_firstWord (op : BitVec 8) (rd rx : BitVec 4) (i : Nat) :
    (firstWord op rd rx).getLsbD i =
      if i < 8 then (if i < 4 then rx.getLsbD i else rd.getLsbD (i - 4)) else op.getLsbD (i - 8) := by
  have h : (rd ++ rx).getLsbD i = if i < 4 then rx.getLsbD i else rd.getLsbD (i - 4) := BitVec.getLsbD_append
  rw [← h]
  exact BitVec.getLsbD_append

@[simp] theorem opField_firstWord (op : BitVec 8) (rd rx : BitVec 4) : opField (firstWord op rd rx) = op := by
  refine BitVec.eq_of_getLsbD_eq fun i hi => ?_
  simp [opField, getLsbD_firstWord, hi]

@[simp] theorem rdField_firstWord (op : BitVec 8) (rd rx : BitVec 4) : rdField (firstWord op rd rx) = rd := by
  refine BitVec.eq_of_getLsbD_eq fun i hi => ?_
  have h : 4 + i < 8 := by omega
  simp [rdField, getLsbD_firstWord, hi, h]

@[simp] theorem rxField_firstWord (op : BitVec 8) (rd rx : BitVec 4) : rxField (firstWord op rd rx) = rx := by
  refine BitVec.eq_of_getLsbD_eq fun i hi => ?_
  have h : i < 8 := by omega
  simp [rxField, getLsbD_firstWord, hi, h]

@[simp] theorem opRow_firstWord (op : BitVec 8) (rd rx : BitVec 4) : opRow (firstWord op rd rx) = op.toNat / 8 := by
  simp [opRow]

@[simp] theorem opColumn_firstWord (op : BitVec 8) (rd rx : BitVec 4) :
    opColumn (firstWord op rd rx) = op.toNat % 8 := by
  simp [opColumn]

/-- A word is its three fields. -/
theorem firstWord_fields (w : Word) : firstWord (opField w) (rdField w) (rxField w) = w := by
  refine BitVec.eq_of_getLsbD_eq fun i hi => ?_
  simp only [getLsbD_firstWord, opField, rdField, rxField, BitVec.getLsbD_extractLsb']
  split
  · split
    · simp_all
    · have : i - 4 < 4 := by omega
      simp only [this, decide_true, Bool.true_and]
      congr 1; omega
  · have : i - 8 < 8 := by omega
    simp only [this, decide_true, Bool.true_and]
    congr 1; omega

@[simp] theorem Reg.ofField_field (r : Reg) : Reg.ofField r.field = r := by
  cases r with
  | g n => revert n; decide
  | fp | sp | usp | pc => decide

@[simp] theorem Reg.field_ofField (v : BitVec 4) : (Reg.ofField v).field = v := by revert v; decide

theorem checkRegisters_ok {i j : Instr} : checkRegisters i = .ok j ↔ i = j ∧ i.wellFormed = true := by
  unfold checkRegisters Instr.wellFormed
  cases i.named <;> cases i.paired <;> simp

theorem zeroField_ok {α : Type} {v : BitVec 4} {a b : α} : zeroField v a = .ok b ↔ v = 0 ∧ a = b := by
  unfold zeroField
  split <;> simp_all

theorem decodeBare_ok {w : Word} {i j : Instr} :
    decodeBare w i = .ok j ↔ rdField w = 0 ∧ rxField w = 0 ∧ i = j := by
  unfold decodeBare
  split <;> simp_all

end Sys2Proof
end

