-- ==== Sys2Proof/Laws/State.lean ====
section
/-! SUPPORT. One lemma per field per named update of the state. -/

namespace Sys2Proof.Machine

@[simp] theorem State.setPc_g (s : State) (v : Word) : (s.setPc v).g = s.g := rfl
@[simp] theorem State.setPc_fp (s : State) (v : Word) : (s.setPc v).fp = s.fp := rfl
@[simp] theorem State.setPc_ssp (s : State) (v : Word) : (s.setPc v).ssp = s.ssp := rfl
@[simp] theorem State.setPc_usp (s : State) (v : Word) : (s.setPc v).usp = s.usp := rfl
@[simp] theorem State.setPc_pc (s : State) (v : Word) : (s.setPc v).pc = v := rfl
@[simp] theorem State.setPc_flag (s : State) (v : Word) : (s.setPc v).flag = s.flag := rfl
@[simp] theorem State.setPc_halted (s : State) (v : Word) : (s.setPc v).halted = s.halted := rfl
@[simp] theorem State.setPc_pending (s : State) (v : Word) : (s.setPc v).pending = s.pending := rfl
@[simp] theorem State.setPc_mem (s : State) (v : Word) : (s.setPc v).mem = s.mem := rfl
@[simp] theorem State.setPc_mmu (s : State) (v : Word) : (s.setPc v).mmu = s.mmu := rfl
@[simp] theorem State.setPc_dev (s : State) (v : Word) : (s.setPc v).dev = s.dev := rfl
@[simp] theorem State.setPc_ioLog (s : State) (v : Word) : (s.setPc v).ioLog = s.ioLog := rfl
@[simp] theorem State.setPc_clock (s : State) (v : Word) : (s.setPc v).clock = s.clock := rfl
@[simp] theorem State.get_setPc (s : State) (v : Word) (h : Home) : (s.setPc v).get h = s.get h := by cases h <;> rfl

@[simp] theorem State.setFlag_g (s : State) (f : Flag) : (s.setFlag f).g = s.g := rfl
@[simp] theorem State.setFlag_fp (s : State) (f : Flag) : (s.setFlag f).fp = s.fp := rfl
@[simp] theorem State.setFlag_ssp (s : State) (f : Flag) : (s.setFlag f).ssp = s.ssp := rfl
@[simp] theorem State.setFlag_usp (s : State) (f : Flag) : (s.setFlag f).usp = s.usp := rfl
@[simp] theorem State.setFlag_pc (s : State) (f : Flag) : (s.setFlag f).pc = s.pc := rfl
@[simp] theorem State.setFlag_flag (s : State) (f : Flag) : (s.setFlag f).flag = f := rfl
@[simp] theorem State.setFlag_halted (s : State) (f : Flag) : (s.setFlag f).halted = s.halted := rfl
@[simp] theorem State.setFlag_pending (s : State) (f : Flag) : (s.setFlag f).pending = s.pending := rfl
@[simp] theorem State.setFlag_mem (s : State) (f : Flag) : (s.setFlag f).mem = s.mem := rfl
@[simp] theorem State.setFlag_mmu (s : State) (f : Flag) : (s.setFlag f).mmu = s.mmu := rfl
@[simp] theorem State.setFlag_dev (s : State) (f : Flag) : (s.setFlag f).dev = s.dev := rfl
@[simp] theorem State.setFlag_ioLog (s : State) (f : Flag) : (s.setFlag f).ioLog = s.ioLog := rfl
@[simp] theorem State.setFlag_clock (s : State) (f : Flag) : (s.setFlag f).clock = s.clock := rfl
@[simp] theorem State.get_setFlag (s : State) (f : Flag) (h : Home) : (s.setFlag f).get h = s.get h := by cases h <;> rfl

@[simp] theorem State.setMem_g (s : State) (m : Memory) : (s.setMem m).g = s.g := rfl
@[simp] theorem State.setMem_fp (s : State) (m : Memory) : (s.setMem m).fp = s.fp := rfl
@[simp] theorem State.setMem_ssp (s : State) (m : Memory) : (s.setMem m).ssp = s.ssp := rfl
@[simp] theorem State.setMem_usp (s : State) (m : Memory) : (s.setMem m).usp = s.usp := rfl
@[simp] theorem State.setMem_pc (s : State) (m : Memory) : (s.setMem m).pc = s.pc := rfl
@[simp] theorem State.setMem_flag (s : State) (m : Memory) : (s.setMem m).flag = s.flag := rfl
@[simp] theorem State.setMem_halted (s : State) (m : Memory) : (s.setMem m).halted = s.halted := rfl
@[simp] theorem State.setMem_pending (s : State) (m : Memory) : (s.setMem m).pending = s.pending := rfl
@[simp] theorem State.setMem_mem (s : State) (m : Memory) : (s.setMem m).mem = m := rfl
@[simp] theorem State.setMem_mmu (s : State) (m : Memory) : (s.setMem m).mmu = s.mmu := rfl
@[simp] theorem State.setMem_dev (s : State) (m : Memory) : (s.setMem m).dev = s.dev := rfl
@[simp] theorem State.setMem_ioLog (s : State) (m : Memory) : (s.setMem m).ioLog = s.ioLog := rfl
@[simp] theorem State.setMem_clock (s : State) (m : Memory) : (s.setMem m).clock = s.clock := rfl
@[simp] theorem State.get_setMem (s : State) (m : Memory) (h : Home) : (s.setMem m).get h = s.get h := by cases h <;> rfl

@[simp] theorem State.interleave_g (s : State) (k : BusSlot) : (s.interleave k).g = s.g := rfl
@[simp] theorem State.interleave_fp (s : State) (k : BusSlot) : (s.interleave k).fp = s.fp := rfl
@[simp] theorem State.interleave_ssp (s : State) (k : BusSlot) : (s.interleave k).ssp = s.ssp := rfl
@[simp] theorem State.interleave_usp (s : State) (k : BusSlot) : (s.interleave k).usp = s.usp := rfl
@[simp] theorem State.interleave_pc (s : State) (k : BusSlot) : (s.interleave k).pc = s.pc := rfl
@[simp] theorem State.interleave_flag (s : State) (k : BusSlot) : (s.interleave k).flag = s.flag := rfl
@[simp] theorem State.interleave_halted (s : State) (k : BusSlot) : (s.interleave k).halted = s.halted := rfl
@[simp] theorem State.interleave_pending (s : State) (k : BusSlot) : (s.interleave k).pending = s.pending := rfl
@[simp] theorem State.interleave_mmu (s : State) (k : BusSlot) : (s.interleave k).mmu = s.mmu := rfl
@[simp] theorem State.interleave_dev (s : State) (k : BusSlot) : (s.interleave k).dev = s.dev := rfl
@[simp] theorem State.interleave_ioLog (s : State) (k : BusSlot) : (s.interleave k).ioLog = s.ioLog := rfl
@[simp] theorem State.interleave_clock (s : State) (k : BusSlot) : (s.interleave k).clock = s.clock := rfl
@[simp] theorem State.interleave_mem (s : State) (k : BusSlot) : (s.interleave k).mem = s.usdMem k s.mem := rfl
@[simp] theorem State.get_interleave (s : State) (k : BusSlot) (h : Home) : (s.interleave k).get h = s.get h := by cases h <;> rfl

@[simp] theorem State.afterFetch_g (s : State) : s.afterFetch.g = s.g := rfl
@[simp] theorem State.afterFetch_fp (s : State) : s.afterFetch.fp = s.fp := rfl
@[simp] theorem State.afterFetch_ssp (s : State) : s.afterFetch.ssp = s.ssp := rfl
@[simp] theorem State.afterFetch_usp (s : State) : s.afterFetch.usp = s.usp := rfl
@[simp] theorem State.afterFetch_pc (s : State) : s.afterFetch.pc = s.pc := rfl
@[simp] theorem State.afterFetch_flag (s : State) : s.afterFetch.flag = s.flag := rfl
@[simp] theorem State.afterFetch_halted (s : State) : s.afterFetch.halted = s.halted := rfl
@[simp] theorem State.afterFetch_pending (s : State) : s.afterFetch.pending = s.pending := rfl
@[simp] theorem State.afterFetch_mmu (s : State) : s.afterFetch.mmu = s.mmu := rfl
@[simp] theorem State.afterFetch_dev (s : State) : s.afterFetch.dev = s.dev := rfl
@[simp] theorem State.afterFetch_ioLog (s : State) : s.afterFetch.ioLog = s.ioLog := rfl
@[simp] theorem State.afterFetch_clock (s : State) : s.afterFetch.clock = s.clock := rfl
@[simp] theorem State.get_afterFetch (s : State) (h : Home) : s.afterFetch.get h = s.get h := by cases h <;> rfl

@[simp] theorem State.record_g (s : State) (e : IoEvent) : (s.record e).g = s.g := rfl
@[simp] theorem State.record_fp (s : State) (e : IoEvent) : (s.record e).fp = s.fp := rfl
@[simp] theorem State.record_ssp (s : State) (e : IoEvent) : (s.record e).ssp = s.ssp := rfl
@[simp] theorem State.record_usp (s : State) (e : IoEvent) : (s.record e).usp = s.usp := rfl
@[simp] theorem State.record_pc (s : State) (e : IoEvent) : (s.record e).pc = s.pc := rfl
@[simp] theorem State.record_flag (s : State) (e : IoEvent) : (s.record e).flag = s.flag := rfl
@[simp] theorem State.record_halted (s : State) (e : IoEvent) : (s.record e).halted = s.halted := rfl
@[simp] theorem State.record_pending (s : State) (e : IoEvent) : (s.record e).pending = s.pending := rfl
@[simp] theorem State.record_mem (s : State) (e : IoEvent) : (s.record e).mem = s.mem := rfl
@[simp] theorem State.record_mmu (s : State) (e : IoEvent) : (s.record e).mmu = s.mmu := rfl
@[simp] theorem State.record_dev (s : State) (e : IoEvent) : (s.record e).dev = s.dev := rfl
@[simp] theorem State.record_ioLog (s : State) (e : IoEvent) : (s.record e).ioLog = e :: s.ioLog := rfl
@[simp] theorem State.record_clock (s : State) (e : IoEvent) : (s.record e).clock = s.clock := rfl
@[simp] theorem State.get_record (s : State) (e : IoEvent) (h : Home) : (s.record e).get h = s.get h := by cases h <;> rfl

@[simp] theorem State.put_pc (s : State) (v : Word) (h : Home) : (s.put v h).pc = s.pc := by cases h <;> rfl
@[simp] theorem State.put_flag (s : State) (v : Word) (h : Home) : (s.put v h).flag = s.flag := by cases h <;> rfl
@[simp] theorem State.put_halted (s : State) (v : Word) (h : Home) : (s.put v h).halted = s.halted := by cases h <;> rfl
@[simp] theorem State.put_pending (s : State) (v : Word) (h : Home) : (s.put v h).pending = s.pending := by cases h <;> rfl
@[simp] theorem State.put_mem (s : State) (v : Word) (h : Home) : (s.put v h).mem = s.mem := by cases h <;> rfl
@[simp] theorem State.put_mmu (s : State) (v : Word) (h : Home) : (s.put v h).mmu = s.mmu := by cases h <;> rfl
@[simp] theorem State.put_dev (s : State) (v : Word) (h : Home) : (s.put v h).dev = s.dev := by cases h <;> rfl
@[simp] theorem State.put_ioLog (s : State) (v : Word) (h : Home) : (s.put v h).ioLog = s.ioLog := by cases h <;> rfl
@[simp] theorem State.put_clock (s : State) (v : Word) (h : Home) : (s.put v h).clock = s.clock := by cases h <;> rfl

theorem State.get_put (s : State) (v : Word) (h k : Home) : (s.put v h).get k = if k = h then v else s.get k := by
  cases h with
  | g n =>
    cases k with
    | g m =>
      simp only [State.put, State.get, Home.g.injEq, Vector.getElem_set, Fin.ext_iff, eq_comm]
    | fp | ssp | usp => simp [State.put, State.get]
  | fp | ssp | usp => cases k <;> simp [State.put, State.get]

@[simp] theorem State.get_put_same (s : State) (v : Word) (h : Home) : (s.put v h).get h = v := by
  simp [State.get_put]

theorem State.get_put_ne (s : State) (v : Word) {h k : Home} (hk : k ≠ h) : (s.put v h).get k = s.get k := by
  simp [State.get_put, hk]

/-- Putting back what a register held changes nothing. -/
@[simp] theorem State.put_get (s : State) (h : Home) : s.put (s.get h) h = s := by
  cases h <;> simp [State.put, State.get]

@[simp] theorem State.put_put (s : State) (v w : Word) (h : Home) : (s.put v h).put w h = s.put w h := by
  cases h <;> simp [State.put]

@[simp] theorem State.spHome_setPc (s : State) (v : Word) : (s.setPc v).spHome = s.spHome := rfl
@[simp] theorem State.spHome_setMem (s : State) (m : Memory) : (s.setMem m).spHome = s.spHome := rfl
@[simp] theorem State.spHome_put (s : State) (v : Word) (h : Home) : (s.put v h).spHome = s.spHome := by
  simp [State.spHome]

/-- A write to one register leaves the machine outside the registers alone. -/
theorem sameRegs_put (s : State) (v : Word) (h : Home) : SameRegs [h] s (s.put v h) := by
  intro k hk
  exact State.get_put_ne s v (by simpa using hk)

theorem sameMem_put (s : State) (v : Word) (h : Home) : SameMem s (s.put v h) := by intro a; simp

theorem sameIo_put (s : State) (v : Word) (h : Home) : SameIo s (s.put v h) := by simp [SameIo]

theorem sameRun_put (s : State) (v : Word) (h : Home) : SameRun s (s.put v h) := by simp [SameRun]

end Sys2Proof.Machine
end

