-- ==== Sys2Proof/Laws/Memory.lean ====
section
/-! SUPPORT. Memory: what a write leaves to read, and that every operation keeps the canonical form. -/

namespace Sys2Proof.Machine

theorem Memory.wfFrom_mono {lo lo' : Nat} (h : lo' ≤ lo) : ∀ {m : Memory}, Memory.wfFrom lo m = true → Memory.wfFrom lo' m = true
  | [], _ => rfl
  | (k, v) :: rest, hm => by
    simp only [Memory.wfFrom, Bool.and_eq_true, decide_eq_true_eq] at hm ⊢
    exact ⟨⟨⟨by omega, hm.1.1.2⟩, hm.1.2⟩, hm.2⟩

theorem Memory.read_insert : ∀ (m : Memory) (a : Nat) (b : Byte) (k : Nat),
    Memory.read (Memory.insert m a b) k = if k = a then b else Memory.read m k
  | [], a, b, k => by simp [Memory.insert, Memory.read]
  | (k', v) :: rest, a, b, k => by
    unfold Memory.insert
    split
    · rfl
    · split
      · next h => subst h; simp only [Memory.read]; split <;> simp_all
      · next h1 h2 =>
        simp only [Memory.read, Memory.read_insert rest a b k]
        split <;> split <;> simp_all

theorem Memory.read_erase : ∀ (m : Memory) (a k : Nat),
    Memory.read (Memory.erase m a) k = if k = a then Memory.unlisted else Memory.read m k
  | [], a, k => by simp [Memory.erase, Memory.read]
  | (k', v) :: rest, a, k => by
    have ih := Memory.read_erase rest a k
    unfold Memory.erase
    split
    · next h => subst h; rw [ih]; simp only [Memory.read]; split <;> rfl
    · next h =>
      simp only [Memory.read, ih]
      split <;> split <;> simp_all

/-- A read after a write: the byte written at its address, the old byte everywhere else. -/
theorem Memory.read_write (m : Memory) (a : Nat) (b : Byte) (k : Nat) :
    Memory.read (Memory.write m a b) k = if k = a then b else Memory.read m k := by
  unfold Memory.write
  split
  · next h => rw [Memory.read_erase, h]
  · exact Memory.read_insert m a b k

theorem Memory.wfFrom_erase : ∀ {m : Memory} {lo : Nat} (a : Nat), Memory.wfFrom lo m = true →
    Memory.wfFrom lo (Memory.erase m a) = true
  | [], _, _, _ => rfl
  | (k, v) :: rest, lo, a, hm => by
    have h := hm
    simp only [Memory.wfFrom, Bool.and_eq_true, decide_eq_true_eq] at h
    unfold Memory.erase
    split
    · exact Memory.wfFrom_mono (by omega) (Memory.wfFrom_erase a h.2)
    · simp only [Memory.wfFrom, Bool.and_eq_true, decide_eq_true_eq]
      exact ⟨h.1, Memory.wfFrom_erase a h.2⟩

theorem Memory.wfFrom_insert : ∀ {m : Memory} {lo : Nat} {a : Nat} {b : Byte}, Memory.wfFrom lo m = true → lo ≤ a →
    a < 0x10000 → b ≠ Memory.unlisted → Memory.wfFrom lo (Memory.insert m a b) = true
  | [], lo, a, b, _, h1, h2, h3 => by simp [Memory.insert, Memory.wfFrom, h1, h3]; omega
  | (k, v) :: rest, lo, a, b, hm, h1, h2, h3 => by
    have h := hm
    simp only [Memory.wfFrom, Bool.and_eq_true, decide_eq_true_eq] at h
    unfold Memory.insert
    split
    · simp only [Memory.wfFrom, Bool.and_eq_true, decide_eq_true_eq]
      exact ⟨⟨⟨h1, h2⟩, h3⟩, ⟨⟨by omega, h.1.1.2⟩, h.1.2⟩, h.2⟩
    · split
      · next hk =>
        subst hk
        simp only [Memory.wfFrom, Bool.and_eq_true, decide_eq_true_eq]
        exact ⟨⟨⟨h1, h2⟩, h3⟩, h.2⟩
      · simp only [Memory.wfFrom, Bool.and_eq_true, decide_eq_true_eq]
        exact ⟨h.1, Memory.wfFrom_insert h.2 (by omega) h2 h3⟩

/-- A write keeps the canonical form. -/
theorem Memory.wf_write {m : Memory} (hm : Memory.wf m = true) {a : Nat} (ha : a < 0x10000) (b : Byte) :
    Memory.wf (Memory.write m a b) = true := by
  unfold Memory.write
  split
  · exact Memory.wfFrom_erase a hm
  · next h => exact Memory.wfFrom_insert hm (Nat.zero_le a) ha h

theorem Memory.wf_writeWord {m : Memory} (hm : Memory.wf m = true) (a v : Word) :
    Memory.wf (Memory.writeWord m a v) = true :=
  Memory.wf_write (Memory.wf_write hm a.isLt _) (a + 1).isLt _

theorem Memory.wf_applyStores : ∀ (l : List (Word × Byte)) {m : Memory}, Memory.wf m = true →
    Memory.wf (applyStores m l) = true
  | [], _, hm => hm
  | (a, v) :: rest, m, hm => by
    unfold applyStores
    apply Memory.wf_applyStores rest
    split
    · exact hm
    · exact Memory.wf_write hm a.isLt v

theorem Memory.wf_placeBytes (s : State) : ∀ (l : List Byte) (k : Nat) {m : Memory}, Memory.wf m = true →
    Memory.wf (placeBytes s k m l) = true
  | [], _, _, hm => hm
  | _ :: rest, k, _, hm => Memory.wf_placeBytes s rest (k + 1) (Memory.wf_write hm (fetchAddress s k).isLt _)

theorem reset_mem_wf : Memory.wf State.reset.mem = true := rfl

theorem getLsbD_joinBytes (h l : Byte) (i : Nat) :
    (joinBytes h l).getLsbD i = if i < 8 then l.getLsbD i else h.getLsbD (i - 8) :=
  BitVec.getLsbD_append

theorem hiByte_joinBytes (h l : Byte) : hiByte (joinBytes h l) = h := by
  refine BitVec.eq_of_getLsbD_eq fun i hi => ?_
  simp only [hiByte, BitVec.getLsbD_extractLsb', getLsbD_joinBytes, hi, decide_true, Bool.true_and]
  simp

theorem loByte_joinBytes (h l : Byte) : loByte (joinBytes h l) = l := by
  refine BitVec.eq_of_getLsbD_eq fun i hi => ?_
  simp [loByte, getLsbD_joinBytes, hi]

theorem joinBytes_hiByte_loByte (w : Word) : joinBytes (hiByte w) (loByte w) = w := by
  refine BitVec.eq_of_getLsbD_eq fun i hi => ?_
  simp only [getLsbD_joinBytes, hiByte, loByte, BitVec.getLsbD_extractLsb']
  split
  · simp_all
  · have h8 : i - 8 < 8 := by omega
    simp only [h8, decide_true, Bool.true_and]
    congr 1
    omega

theorem succ_ne_self (a : Word) : (a + 1).toNat ≠ a.toNat := by
  have := a.isLt
  rw [BitVec.toNat_add]; simp; omega

/-- The bytes a word write leaves: high byte first, every other cell as it was. -/
theorem Memory.read_writeWord (m : Memory) (a v : Word) (k : Nat) : Memory.read (Memory.writeWord m a v) k =
    if k = (a + 1).toNat then loByte v else if k = a.toNat then hiByte v else Memory.read m k := by
  rw [Memory.writeWord, Memory.read_write, Memory.read_write]

/-- A word read after a word write at the same address. -/
theorem Memory.readWord_writeWord (m : Memory) (a v : Word) : Memory.readWord (Memory.writeWord m a v) a = v := by
  rw [Memory.readWord, Memory.read_writeWord, Memory.read_writeWord, if_neg (succ_ne_self a).symm, if_pos rfl,
    if_pos rfl, joinBytes_hiByte_loByte]

end Sys2Proof.Machine
end

