-- ==== Sys2Proof/Laws/Ops.lean ====
section
/-! SUPPORT. What each shared operation can do, said once: cite these instead of unfolding the operations. -/

namespace Sys2Proof.Machine

/-! ## The steps of an instruction -/

theorem except_bind_ok {ε α β : Type} {x : Except ε α} {f : α → Except ε β} {b : β} :
    (x >>= f) = .ok b ↔ ∃ a, x = .ok a ∧ f a = .ok b := by
  cases x <;> simp [bind, Except.bind]

theorem except_bind_ok' {ε α β : Type} {x : Except ε α} {f : α → Except ε β} {b : β} :
    x.bind f = .ok b ↔ ∃ a, x = .ok a ∧ f a = .ok b := by
  cases x <;> simp [Except.bind]

theorem except_map_ok {ε α β : Type} {x : Except ε α} {f : α → β} {b : β} :
    x.map f = .ok b ↔ ∃ a, x = .ok a ∧ f a = b := by
  cases x <;> simp [Except.map]

/-- An instruction ends in its own next state, or in the entry of the exception it raised. -/
theorem conclude_next {s t : State} {npc : Word} {x : Except Stop State} :
    conclude s npc x = .next t ↔ x = .ok t ∨ ∃ c, x = .error (.trap c) ∧ enterTrap c npc s = .next t := by
  cases x with
  | ok u => simp [conclude]
  | error e => cases e <;> simp [conclude]

theorem conclude_ok {s t : State} {npc : Word} {x : Except Stop State} (h : x = .ok t) :
    conclude s npc x = .next t := by
  rw [h]; rfl

/-! ## Registers -/

theorem readReg_ok {s : State} {r : Reg} {v : Word} :
    readReg s r = .ok v ↔ ∃ h, Reg.home s.flag.p r = some h ∧ s.get h = v := by
  unfold readReg
  cases Reg.home s.flag.p r <;> simp

theorem writeReg_ok {s t : State} {r : Reg} {v : Word} :
    writeReg s r v = .ok t ↔ ∃ h, Reg.home s.flag.p r = some h ∧ s.put v h = t := by
  unfold writeReg
  cases Reg.home s.flag.p r <;> simp

/-- Every register number but Fh leads to a register. -/
theorem home_of_ne_pc {r : Reg} (h : r ≠ .pc) (p : Bool) : ∃ k, Reg.home p r = some k := by
  cases r <;> simp_all [Reg.home]

theorem home_spHome (s : State) : Reg.home s.flag.p .sp = some s.spHome := rfl

/-! ## Memory -/

theorem physical_privileged {s : State} (h : s.flag.p = true) (a : Word) : physical s a = .ok a := by
  simp [physical, h]

theorem physicalWord_ok {s : State} {a p : Word} :
    physicalWord s a = .ok p ↔ a[0] = false ∧ physical s a = .ok p := by
  unfold physicalWord
  cases h : a[0] <;> simp

theorem loadWord_ok {s : State} {a v : Word} :
    loadWord s a = .ok v ↔ ∃ p, physicalWord s a = .ok p ∧ Memory.readWord s.mem p = v := except_map_ok

theorem loadByte_ok {s : State} {a : Word} {v : Byte} :
    loadByte s a = .ok v ↔ ∃ p, physical s a = .ok p ∧ Memory.read s.mem p.toNat = v := except_map_ok

theorem storeWord_ok {s t : State} {a v : Word} :
    storeWord s a v = .ok t ↔ ∃ p, physicalWord s a = .ok p ∧ inRom p = false ∧ inRom (p + 1) = false ∧
      s.setMem (Memory.writeWord s.mem p v) = t := by
  rw [storeWord, except_bind_ok']
  refine exists_congr fun p => and_congr_right fun _ => ?_
  cases inRom p <;> cases inRom (p + 1) <;> simp

theorem storeByte_ok {s t : State} {a : Word} {v : Byte} :
    storeByte s a v = .ok t ↔ ∃ p, physical s a = .ok p ∧ inRom p = false ∧
      s.setMem (Memory.write s.mem p.toNat v) = t := by
  rw [storeByte, except_bind_ok']
  refine exists_congr fun p => and_congr_right fun _ => ?_
  cases inRom p <;> simp

/-! ## Stack -/

@[simp] theorem isSp_iff {s : State} {r : Reg} : s.isSp r = true ↔ Reg.home s.flag.p r = some s.spHome := by
  simp [State.isSp]

/-- The stack pointer's numbers: Dh in both modes, Eh in user mode. -/
theorem home_eq_spHome {s : State} {r : Reg} :
    Reg.home s.flag.p r = some s.spHome ↔ r = .sp ∨ (r = .usp ∧ s.flag.p = false) := by
  unfold State.spHome
  generalize s.flag.p = p
  cases p <;> cases r <;> simp [Reg.home]

theorem notOwnSp_ok {s : State} {r : Reg} :
    notOwnSp s r = .ok () ↔ Reg.home s.flag.p r ≠ some s.spHome := by
  rw [notOwnSp, ne_eq, ← isSp_iff]
  split <;> simp [*]

theorem notOwnSp_error {s : State} {r : Reg} {e : Stop} :
    notOwnSp s r = .error e ↔ Reg.home s.flag.p r = some s.spHome ∧ e = .refuse .ownStackPointer := by
  rw [notOwnSp, ← isSp_iff]
  split <;> simp [*, eq_comm]

theorem pushWord_ok {s t : State} {v : Word} :
    pushWord s v = .ok t ↔ ∃ u, storeWord s (s.sp - 2) v = .ok u ∧ u.put (s.sp - 2) s.spHome = t := except_map_ok

theorem popWord_ok {s t : State} {v : Word} :
    popWord s = .ok (v, t) ↔ loadWord s s.sp = .ok v ∧ s.put (s.sp + 2) s.spHome = t := by
  rw [popWord, except_map_ok]
  simp

theorem pushWord_flag {s t : State} {v : Word} (h : pushWord s v = .ok t) : t.flag = s.flag := by
  obtain ⟨u, hu, rfl⟩ := pushWord_ok.1 h
  obtain ⟨p, _, _, _, rfl⟩ := storeWord_ok.1 hu
  simp

/-! ## The canonical form of memory -/

theorem storeWord_inv {s t : State} {a v : Word} (hs : s.Inv) (h : storeWord s a v = .ok t) : t.Inv := by
  obtain ⟨p, _, _, _, rfl⟩ := storeWord_ok.1 h
  exact Memory.wf_writeWord hs p v

theorem storeByte_inv {s t : State} {a : Word} {v : Byte} (hs : s.Inv) (h : storeByte s a v = .ok t) : t.Inv := by
  obtain ⟨p, _, _, rfl⟩ := storeByte_ok.1 h
  exact Memory.wf_write hs p.isLt v

theorem pushWord_inv {s t : State} {v : Word} (hs : s.Inv) (h : pushWord s v = .ok t) : t.Inv := by
  obtain ⟨u, hu, rfl⟩ := pushWord_ok.1 h
  simpa [State.Inv] using storeWord_inv hs hu

theorem popWord_inv {s t : State} {v : Word} (hs : s.Inv) (h : popWord s = .ok (v, t)) : t.Inv := by
  obtain ⟨_, rfl⟩ := popWord_ok.1 h
  simpa [State.Inv] using hs

theorem usdMem_wf (s : State) (slot : BusSlot) {m : Memory} (hm : Memory.wf m = true) :
    Memory.wf (s.usdMem slot m) = true := by
  unfold State.usdMem
  split
  · exact Memory.wf_applyStores _ hm
  · exact hm

theorem interleave_inv {s : State} (hs : s.Inv) (slot : BusSlot) : (s.interleave slot).Inv := usdMem_wf s slot hs

theorem afterFetch_inv {s : State} (hs : s.Inv) : s.afterFetch.Inv := interleave_inv (interleave_inv hs _) _

theorem boundary_inv {s : State} (hs : s.Inv) : (boundary s).Inv := usdMem_wf s _ hs

theorem withFetchWord_inv {s : State} (hs : s.Inv) (nbits w : Nat) : (s.withFetchWord nbits w).Inv :=
  Memory.wf_placeBytes s _ 0 hs

@[simp] theorem writeCell_mem (s : State) (a : BitVec 8) (v : Byte) : (writeCell s a v).mem = s.mem := by
  unfold writeCell
  split <;> rfl

/-! ## Other agents' stores -/

/-- While no transfer has been commanded, nothing is stored between the CPU's accesses. -/
theorem interleave_quiet {s : State} (h : s.dev.usd.commanded = false) (k : BusSlot) : s.interleave k = s := by
  simp [State.interleave, State.usdMem, h, State.setMem]

theorem afterFetch_quiet {s : State} (h : s.dev.usd.commanded = false) : s.afterFetch = s := by
  simp [State.afterFetch, interleave_quiet h]

/-- Other agents' stores leave the ROM's bytes as they are. -/
theorem read_applyStores_of_inRom {a : Word} (ha : inRom a = true) : ∀ (l : List (Word × Byte)) (m : Memory),
    Memory.read (applyStores m l) a.toNat = Memory.read m a.toNat
  | [], _ => rfl
  | (b, v) :: rest, m => by
    rw [applyStores, read_applyStores_of_inRom ha rest]
    split
    · rfl
    · next hb =>
      rw [Memory.read_write, if_neg]
      intro h
      exact hb (BitVec.toNat_inj.1 h ▸ ha)

/-! ## Traps -/

/-- Where the pushes of an entry can be made: SSP even and its two words outside the ROM. -/
def EntryRoom (s : State) : Prop := s.ssp[0] = false ∧ inRom (s.ssp - 2) = false ∧ inRom (s.ssp - 4) = false

/-- Memory after an entry: the two pushes, with what other agents store before each access. -/
def enteredMem (spc : Word) (s : State) : Memory :=
  let m1 := Memory.writeWord (s.usdMem .pushPc s.mem) (s.ssp - 2) spc
  s.usdMem .vector (Memory.writeWord (s.usdMem .pushFlag m1) (s.ssp - 4) s.flag.word)

/-- The state an entry leads to. -/
def entered (c : Cause) (spc : Word) (s : State) : State :=
  { s with
    flag := s.flag.entered, ssp := s.ssp - 4, mem := enteredMem spc s, pc := Memory.readWord (enteredMem spc s) c.vector }

/-- While no transfer has been commanded, an entry changes memory by its two pushes alone. -/
theorem enteredMem_quiet {s : State} (h : s.dev.usd.commanded = false) (spc : Word) :
    enteredMem spc s = Memory.writeWord (Memory.writeWord s.mem (s.ssp - 2) spc) (s.ssp - 4) s.flag.word := by
  simp [enteredMem, State.usdMem, h]

theorem bit0_sub_two {a : Word} (h : a[0] = false) : (a - 2)[0] = false := by
  have hb : ∀ x : Word, x[0] = false ↔ x.toNat % 2 = 0 := fun x => by
    rw [BitVec.getElem_eq_testBit_toNat, Nat.testBit_zero]; simp
  rw [hb] at h ⊢
  bv_omega

theorem inRom_succ_of_even {a : Word} (h : a[0] = false) (hr : inRom a = false) : inRom (a + 1) = false := by
  have hb : a.toNat % 2 = 0 := by
    rw [BitVec.getElem_eq_testBit_toNat, Nat.testBit_zero] at h; simpa using h
  unfold inRom at *
  simp only [Bool.and_eq_false_iff, decide_eq_false_iff_not] at *
  bv_omega

theorem vector_even (c : Cause) : c.vector[0] = false := by cases c <;> decide

/-- A push on an even SSP outside the ROM, in privileged mode. -/
theorem pushWord_privileged {s : State} (hp : s.flag.p = true) (h0 : s.ssp[0] = false) (hr : inRom (s.ssp - 2) = false)
    (v : Word) :
    pushWord s v = .ok { s with ssp := s.ssp - 2, mem := Memory.writeWord s.mem (s.ssp - 2) v } := by
  have hh : s.spHome = .ssp := by simp [State.spHome, hp]
  have hsp : s.sp = s.ssp := by rw [State.sp, hh]; rfl
  refine pushWord_ok.2 ⟨_, storeWord_ok.2 ⟨s.ssp - 2, ?_, hr, inRom_succ_of_even (bit0_sub_two h0) hr, rfl⟩, ?_⟩
  · rw [hsp]
    exact physicalWord_ok.2 ⟨bit0_sub_two h0, physical_privileged hp _⟩
  · rw [hh, hsp]; rfl

/-- Where there is room, an entry succeeds and leads to `entered`. -/
theorem enterTrap_of_room {s : State} (h : EntryRoom s) (c : Cause) (spc : Word) :
    enterTrap c spc s = .next (entered c spc s) := by
  obtain ⟨h0, h2, h4⟩ := h
  have e1 := pushWord_privileged (s := (s.setFlag s.flag.entered).interleave .pushPc) rfl h0 h2 spc
  have e2 := pushWord_privileged
    (s := State.interleave { s with
      flag := s.flag.entered, ssp := s.ssp - 2
      mem := Memory.writeWord (s.usdMem .pushPc s.mem) (s.ssp - 2) spc } .pushFlag)
    rfl (bit0_sub_two h0) (by simpa [BitVec.sub_sub] using h4) s.flag.word
  have e3 : ∀ u : State, u.flag.p = true → loadWord u c.vector = .ok (Memory.readWord u.mem c.vector) := fun u hu =>
    loadWord_ok.2 ⟨_, physicalWord_ok.2 ⟨vector_even c, physical_privileged hu _⟩, rfl⟩
  unfold enterTrap
  simp only [e1]
  simp only [bind, Except.bind]
  erw [e2]
  simp only
  rw [e3 _ rfl]
  simp [entered, enteredMem, State.interleave, State.usdMem, State.setMem, State.setPc, BitVec.sub_sub]

/-- A push that succeeds in privileged mode had an even SSP and room below it. -/
theorem room_of_pushWord {s t : State} {v : Word} (hp : s.flag.p = true) (h : pushWord s v = .ok t) :
    s.ssp[0] = false ∧ inRom (s.ssp - 2) = false := by
  obtain ⟨u, hu, -⟩ := pushWord_ok.1 h
  obtain ⟨p, ht, hr, -, -⟩ := storeWord_ok.1 hu
  have hsp : s.sp = s.ssp := by simp [State.sp, State.spHome, hp, State.get]
  rw [hsp, physicalWord_ok, physical_privileged hp, Except.ok.injEq] at ht
  obtain ⟨h0, rfl⟩ := ht
  refine ⟨?_, hr⟩
  have hb : ∀ x : Word, x[0] = false ↔ x.toNat % 2 = 0 := fun x => by
    rw [BitVec.getElem_eq_testBit_toNat, Nat.testBit_zero]; simp
  rw [hb] at h0 ⊢
  bv_omega

/-- An entry succeeds exactly where there is room, and then leads to `entered`. -/
theorem enterTrap_next {s t : State} {c : Cause} {spc : Word} :
    enterTrap c spc s = .next t ↔ EntryRoom s ∧ entered c spc s = t := by
  constructor
  · intro h
    have room : EntryRoom s := by
      unfold enterTrap at h
      simp only at h
      split at h
      · next u hu =>
        obtain ⟨s1, h1, hu⟩ := except_bind_ok.1 hu
        obtain ⟨s2, h2, -⟩ := except_bind_ok.1 hu
        have r1 := room_of_pushWord (s := (s.setFlag s.flag.entered).interleave .pushPc) rfl h1
        have hs1 := pushWord_privileged (s := (s.setFlag s.flag.entered).interleave .pushPc) rfl r1.1 r1.2 spc
        rw [h1, Except.ok.injEq] at hs1
        subst hs1
        have r2 := room_of_pushWord rfl h2
        simp only [State.interleave_ssp, State.setFlag_ssp, BitVec.sub_sub] at r1 r2
        exact ⟨r1.1, r1.2, r2.2⟩
      · cases h
    refine ⟨room, ?_⟩
    rw [enterTrap_of_room room, Host.Outcome.next.injEq] at h
    exact h
  · rintro ⟨room, rfl⟩
    exact enterTrap_of_room room c spc

/-- An entry is refused where there is no room (spec/60_exceptions.md R282). -/
theorem enterTrap_refused {s : State} (h : ¬ EntryRoom s) (c : Cause) (spc : Word) :
    enterTrap c spc s = .refused .trapEntry := by
  have h' : ∀ t, enterTrap c spc s ≠ .next t := fun t ht => h (enterTrap_next.1 ht).1
  unfold enterTrap at h' ⊢
  simp only at h' ⊢
  split
  · next u hu => simp [hu] at h'
  · rfl

theorem entered_inv {s : State} (hs : s.Inv) (c : Cause) (spc : Word) : (entered c spc s).Inv :=
  usdMem_wf _ _ (Memory.wf_writeWord (usdMem_wf _ _ (Memory.wf_writeWord (usdMem_wf _ _ hs) _ _)) _ _)

end Sys2Proof.Machine
end

