-- ==== Sys2Proof/Laws/Operands.lean ====
section
/-! SUPPORT. What the shared shapes of the meanings can do, said once: cite these instead of unfolding the shapes. -/

namespace Sys2Proof.Machine

/-! ## `Rd ← f(Rd, opnd)` -/

/-- The state a result written to one register leads to. -/
def intoReg (s : State) (h : Home) (r : AluResult) (npc : Word) : State :=
  ((s.put r.value h).setFlag (s.flag.withResult r)).setPc npc

/-- What the steps of `aluInto` come to. -/
theorem aluInto_eq {f : Word → Word → Except Stop AluResult} {rd : Reg} {ea : EA} {s : State} {b : Word} {h : Home}
    (hh : Reg.home s.flag.p rd = some h) (hb : operand s ea = .ok b) :
    aluInto f rd ea s = conclude s (s.npc (EA.bytes ea)) ((f (s.get h) b).map fun r => intoReg s h r (s.npc (EA.bytes ea))) := by
  have h1 : readReg s rd = .ok (s.get h) := readReg_ok.2 ⟨h, hh, rfl⟩
  have h2 : ∀ v, writeReg s rd v = .ok (s.put v h) := fun v => writeReg_ok.2 ⟨h, hh, rfl⟩
  unfold aluInto
  rw [h1, hb]
  simp only [bind, Except.bind]
  cases f (s.get h) b with
  | ok r => simp only [h2, Except.map, intoReg]
  | error e => simp only [Except.map]

theorem aluInto_ok {f : Word → Word → Except Stop AluResult} {rd : Reg} {ea : EA} {s : State} {b : Word} {h : Home}
    {r : AluResult} (hh : Reg.home s.flag.p rd = some h) (hb : operand s ea = .ok b) (hf : f (s.get h) b = .ok r) :
    aluInto f rd ea s = .next (intoReg s h r (s.npc (EA.bytes ea))) := by
  rw [aluInto_eq hh hb, hf]; rfl

/-- A next state of `aluInto` is the result in its register, or the entry of an exception. -/
theorem aluInto_next {f : Word → Word → Except Stop AluResult} {rd : Reg} {ea : EA} {s t : State}
    (h : aluInto f rd ea s = .next t) :
    (∃ k b r, Reg.home s.flag.p rd = some k ∧ operand s ea = .ok b ∧ f (s.get k) b = .ok r ∧
      t = intoReg s k r (s.npc (EA.bytes ea))) ∨
    ∃ c, enterTrap c (s.npc (EA.bytes ea)) s = .next t := by
  rcases conclude_next.1 h with h | ⟨c, -, h⟩
  · left
    obtain ⟨a, ha, h⟩ := except_bind_ok.1 h
    obtain ⟨b, hb, h⟩ := except_bind_ok.1 h
    obtain ⟨r, hr, h⟩ := except_bind_ok.1 h
    obtain ⟨u, hu, h⟩ := except_bind_ok.1 h
    obtain ⟨k, hk, rfl⟩ := readReg_ok.1 ha
    obtain ⟨k', hk', rfl⟩ := writeReg_ok.1 hu
    obtain rfl : k = k' := by rw [hk] at hk'; exact Option.some.inj hk'
    exact ⟨k, b, r, hk, hb, hr, (Except.ok.inj h).symm⟩
  · exact .inr ⟨c, h⟩

/-! ## Register pairs -/

/-- The state a result written to a pair leads to. -/
def intoPair (s : State) (h h' : Home) (r : PairResult) (npc : Word) : State :=
  (((s.put r.low.value h).put r.high h').setFlag (s.flag.withResult r.low)).setPc npc

theorem pairOf_ok {r r' : Reg} : pairOf r = .ok r' ↔ Reg.partner r = some r' := by
  unfold pairOf
  cases Reg.partner r <;> simp

/-- The two registers of a pair are two registers, in either mode. -/
theorem pair_homes_ne {rd rd' : Reg} (hp : Reg.partner rd = some rd') (p : Bool) : Reg.home p rd' ≠ Reg.home p rd := by
  cases rd with
  | g n =>
    simp only [Reg.partner] at hp
    split at hp
    · split at hp
      · obtain rfl := Option.some.inj hp
        simp [Reg.home, Fin.ext_iff]
      · obtain rfl := Option.some.inj hp
        simp [Reg.home]
    · cases hp
  | fp =>
    obtain rfl := Option.some.inj hp
    cases p <;> simp [Reg.home]
  | sp | usp | pc => cases hp

theorem aluIntoPair_eq {f : Word → Word → Word → Except Stop PairResult} {rd rd' : Reg} {ea : EA} {s : State} {b : Word}
    {h h' : Home} (hp : Reg.partner rd = some rd') (hh : Reg.home s.flag.p rd = some h)
    (hh' : Reg.home s.flag.p rd' = some h') (hb : operand s ea = .ok b) :
    aluIntoPair f rd ea s = conclude s (s.npc (EA.bytes ea))
      ((f (s.get h') (s.get h) b).map fun r => intoPair s h h' r (s.npc (EA.bytes ea))) := by
  have h0 : pairOf rd = .ok rd' := pairOf_ok.2 hp
  have h1 : readReg s rd = .ok (s.get h) := readReg_ok.2 ⟨h, hh, rfl⟩
  have h1' : readReg s rd' = .ok (s.get h') := readReg_ok.2 ⟨h', hh', rfl⟩
  have h2 : ∀ v, writeReg s rd v = .ok (s.put v h) := fun v => writeReg_ok.2 ⟨h, hh, rfl⟩
  have h2' : ∀ v w, writeReg (s.put w h) rd' v = .ok ((s.put w h).put v h') := fun v w =>
    writeReg_ok.2 ⟨h', by simpa using hh', rfl⟩
  unfold aluIntoPair
  rw [h0, h1, hb]
  simp only [bind, Except.bind, h1']
  cases f (s.get h') (s.get h) b with
  | ok r => simp only [h2, h2', Except.map, intoPair]
  | error e => simp only [Except.map]

theorem aluIntoPair_ok {f : Word → Word → Word → Except Stop PairResult} {rd rd' : Reg} {ea : EA} {s : State} {b : Word}
    {h h' : Home} {r : PairResult} (hp : Reg.partner rd = some rd') (hh : Reg.home s.flag.p rd = some h)
    (hh' : Reg.home s.flag.p rd' = some h') (hb : operand s ea = .ok b) (hf : f (s.get h') (s.get h) b = .ok r) :
    aluIntoPair f rd ea s = .next (intoPair s h h' r (s.npc (EA.bytes ea))) := by
  rw [aluIntoPair_eq hp hh hh' hb, hf]; rfl

/-- A next state of `aluIntoPair` is the result in its two registers, or the entry of an exception. -/
theorem aluIntoPair_next {f : Word → Word → Word → Except Stop PairResult} {rd : Reg} {ea : EA} {s t : State}
    (h : aluIntoPair f rd ea s = .next t) :
    (∃ rd' k k' b r, Reg.partner rd = some rd' ∧ Reg.home s.flag.p rd = some k ∧ Reg.home s.flag.p rd' = some k' ∧
      operand s ea = .ok b ∧ f (s.get k') (s.get k) b = .ok r ∧ t = intoPair s k k' r (s.npc (EA.bytes ea))) ∨
    ∃ c, enterTrap c (s.npc (EA.bytes ea)) s = .next t := by
  rcases conclude_next.1 h with h | ⟨c, -, h⟩
  · left
    obtain ⟨rd', hp, h⟩ := except_bind_ok.1 h
    obtain ⟨hi, hhi, h⟩ := except_bind_ok.1 h
    obtain ⟨lo, hlo, h⟩ := except_bind_ok.1 h
    obtain ⟨b, hb, h⟩ := except_bind_ok.1 h
    obtain ⟨r, hr, h⟩ := except_bind_ok.1 h
    obtain ⟨u, hu, h⟩ := except_bind_ok.1 h
    obtain ⟨v, hv, h⟩ := except_bind_ok.1 h
    obtain ⟨k', hk', rfl⟩ := readReg_ok.1 hhi
    obtain ⟨k, hk, rfl⟩ := readReg_ok.1 hlo
    obtain ⟨j, hj, rfl⟩ := writeReg_ok.1 hu
    obtain ⟨j', hj', rfl⟩ := writeReg_ok.1 hv
    obtain rfl : k = j := by rw [hk] at hj; exact Option.some.inj hj
    obtain rfl : k' = j' := by simp only [State.put_flag] at hj'; rw [hk'] at hj'; exact Option.some.inj hj'
    exact ⟨rd', k, k', b, r, pairOf_ok.1 hp, hk, hk', hb, hr, (Except.ok.inj h).symm⟩
  · exact .inr ⟨c, h⟩

/-! ## Flags of a result -/

theorem flagsOf_withResult (f : Flag) (r : AluResult) : FlagsOf r.value (f.withResult r) := by
  refine ⟨by simp [Flag.withResult], ?_⟩
  simp only [Flag.withResult, BitVec.msb_eq_decide, decide_eq_true_eq]

/-- What both shapes leave alone. -/
theorem intoReg_frame (s : State) (h : Home) (r : AluResult) (npc : Word) :
    SameMode s (intoReg s h r npc) ∧ RegFrame [h] s (intoReg s h r npc) := by
  refine ⟨⟨rfl, rfl, rfl⟩, ⟨?_, ?_, ?_, ?_⟩⟩
  · intro k hk
    simpa [intoReg] using sameRegs_put s r.value h k hk
  · intro a; simp [intoReg]
  · simp [SameIo, intoReg]
  · simp [SameRun, intoReg]

theorem intoPair_frame (s : State) (h h' : Home) (r : PairResult) (npc : Word) :
    SameMode s (intoPair s h h' r npc) ∧ RegFrame [h, h'] s (intoPair s h h' r npc) := by
  refine ⟨⟨rfl, rfl, rfl⟩, ⟨?_, ?_, ?_, ?_⟩⟩
  · intro k hk
    simp only [List.mem_cons, List.not_mem_nil, or_false, not_or] at hk
    simp [intoPair, State.get_put, hk.1, hk.2]
  · intro a; simp [intoPair]
  · simp [SameIo, intoPair]
  · simp [SameRun, intoPair]

/-! ## Memory operands and stores -/

theorem memStore_ok {s t : State} {m : MemEA} {v : Word} : memStore s m v = .ok t ↔
    ∃ a, memAddress s m = .ok a ∧
      (MemEA.isWord m = true ∧ storeWord s a v = .ok t ∨ MemEA.isWord m = false ∧ storeByte s a (loByte v) = .ok t) := by
  unfold memStore
  rw [except_bind_ok]
  cases m <;> simp [MemEA.isWord]

theorem memStore_inv {s t : State} {m : MemEA} {v : Word} (hs : s.Inv) (h : memStore s m v = .ok t) : t.Inv := by
  obtain ⟨a, -, ⟨-, h⟩ | ⟨-, h⟩⟩ := memStore_ok.1 h
  · exact storeWord_inv hs h
  · exact storeByte_inv hs h

theorem memOperand_ok {s : State} {m : MemEA} {v : Word} : memOperand s m = .ok v ↔
    ∃ a, memAddress s m = .ok a ∧
      (MemEA.isWord m = true ∧ loadWord s a = .ok v ∨
        MemEA.isWord m = false ∧ ∃ b, loadByte s a = .ok b ∧ b.zeroExtend 16 = v) := by
  unfold memOperand
  rw [except_bind_ok]
  cases m <;> simp [MemEA.isWord, except_map_ok]

/-! ## Jumps -/

theorem jumpIf_ok {cond : Bool} {tgt : Target} {s : State} {x : Word} (h : targetAddress s tgt = .ok x) :
    jumpIf cond tgt s = .next (s.setPc (if cond then x else s.npc (Target.bytes tgt))) := by
  unfold jumpIf
  rw [h]
  rfl

/-- A jump that answers a next state has changed PC alone: its target's address raises no exception. -/
theorem jumpIf_next {cond : Bool} {tgt : Target} {s t : State} (h : jumpIf cond tgt s = .next t) :
    ∃ x, targetAddress s tgt = .ok x ∧ t = s.setPc (if cond then x else s.npc (Target.bytes tgt)) := by
  have hx : ∀ c, targetAddress s tgt ≠ .error (.trap c) := by
    intro c
    cases tgt with
    | direct d => simp [targetAddress]
    | indexed d rx | indirect rx =>
      simp only [targetAddress, readReg]
      cases Reg.home s.flag.p rx <;> simp [Except.map]
  unfold jumpIf at h
  cases ht : targetAddress s tgt with
  | ok x => rw [ht] at h; exact ⟨x, rfl, (Host.Outcome.next.inj h).symm⟩
  | error e =>
    cases e with
    | trap c => exact absurd ht (hx c)
    | refuse r => rw [ht] at h; cases h

end Sys2Proof.Machine
end

