-- ==== Sys2Proof/Laws/PerInstr.lean ====
section
/-! SUPPORT. Facts about each instruction as syntax, one lemma per constructor. -/

namespace Sys2Proof.Laws

/-- The OP is in the OP map, and asks for a second word as `two` says. -/
def inMap (op : BitVec 8) (two : Bool) : Bool :=
  opDefined (firstWord op 0 0) && (hasSecondWord (firstWord op 0 0) == two)

/-- The list of words has the shape of an instruction. -/
def Shaped (l : List Word) : Prop :=
  ∃ w ws, l = w :: ws ∧ opDefined w = true ∧ ws.length = if hasSecondWord w then 1 else 0

theorem opDefined_firstWord (op : BitVec 8) (rd rx : BitVec 4) :
    opDefined (firstWord op rd rx) = opDefined (firstWord op 0 0) := by
  simp [opDefined]

theorem hasSecondWord_firstWord (op : BitVec 8) (rd rx : BitVec 4) :
    hasSecondWord (firstWord op rd rx) = hasSecondWord (firstWord op 0 0) := by
  simp [hasSecondWord]

theorem shaped_one {op : BitVec 8} (h : inMap op false = true) (rd rx : BitVec 4) : Shaped [firstWord op rd rx] := by
  rw [inMap, Bool.and_eq_true, beq_iff_eq] at h
  exact ⟨_, _, rfl, by rw [opDefined_firstWord, h.1], by rw [hasSecondWord_firstWord, h.2]; rfl⟩

theorem shaped_two {op : BitVec 8} (h : inMap op true = true) (rd rx : BitVec 4) (d : Word) :
    Shaped [firstWord op rd rx, d] := by
  rw [inMap, Bool.and_eq_true, beq_iff_eq] at h
  exact ⟨_, _, rfl, by rw [opDefined_firstWord, h.1], by rw [hasSecondWord_firstWord, h.2]; rfl⟩

/-- An instruction is encoded in a first word of the OP map, and in a second word exactly when the first one asks for it
(spec/30_encoding.md R101, R103, R121). -/
def EncodeShape.Statement (i : Instr) : Prop :=
  Shaped (encode i)

theorem encodeMemEA_shape (base : BitVec 8)
    (h : (inMap base true && inMap (base + 1) true && inMap (base + 3) false && inMap (base + 6) false && inMap (base + 7) false) = true)
    (rd : BitVec 4) (m : MemEA) : Shaped (encodeMemEA base rd m) := by
  simp only [Bool.and_eq_true] at h
  obtain ⟨⟨⟨⟨h0, h1⟩, h3⟩, h6⟩, h7⟩ := h
  cases m with
  | direct d => exact shaped_two h0 rd 0 d
  | indexed d rx => exact shaped_two h1 rd rx.field d
  | fpRel d4 => exact shaped_one h3 rd d4
  | indirect rx => exact shaped_one h6 rd rx.field
  | byteIndirect rx => exact shaped_one h7 rd rx.field

theorem encodeEA_shape (base : BitVec 8)
    (h : ((inMap base true && inMap (base + 1) true && inMap (base + 3) false && inMap (base + 6) false && inMap (base + 7) false)
      && (inMap (base + 2) true && inMap (base + 4) false && inMap (base + 5) false)) = true)
    (rd : Reg) (ea : EA) : Shaped (encodeEA base rd ea) := by
  rw [Bool.and_eq_true] at h
  obtain ⟨hm, h'⟩ := h
  simp only [Bool.and_eq_true] at h'
  obtain ⟨⟨h2, h4⟩, h5⟩ := h'
  cases ea with
  | mem m => exact encodeMemEA_shape base hm rd.field m
  | imm v => exact shaped_two h2 rd.field 0 v
  | reg rs => exact shaped_one h4 rd.field rs.field
  | imm4 i4 => exact shaped_one h5 rd.field i4

theorem encodeTarget_shape (base : BitVec 8)
    (h : (inMap base true && inMap (base + 1) true && inMap (base + 6) false) = true)
    (cc : BitVec 4) (t : Target) : Shaped (encodeTarget base cc t) := by
  simp only [Bool.and_eq_true] at h
  obtain ⟨⟨h0, h1⟩, h6⟩ := h
  cases t with
  | direct d => exact shaped_two h0 cc 0 d
  | indexed d rx => exact shaped_two h1 cc rx.field d
  | indirect rx => exact shaped_one h6 cc rx.field

theorem encodeIoEA_shape (base : BitVec 8)
    (h : (inMap base true && inMap (base + 6) false && inMap (base + 7) false) = true)
    (rd : Reg) (p : IoEA) : Shaped (encodeIoEA base rd p) := by
  simp only [Bool.and_eq_true] at h
  obtain ⟨⟨h0, h6⟩, h7⟩ := h
  cases p with
  | direct d => exact shaped_two h0 rd.field 0 d
  | indirect rx => exact shaped_one h6 rd.field rx.field
  | byteIndirect rx => exact shaped_one h7 rd.field rx.field

theorem EncodeShape.no : EncodeShape.Statement .no :=
  shaped_one (by decide) _ _

theorem EncodeShape.ld (rd : Reg) (ea : EA) : EncodeShape.Statement (.ld rd ea) :=
  encodeEA_shape 0x08 (by decide) rd ea

theorem EncodeShape.ldFlag (rd : Reg) : EncodeShape.Statement (.ldFlag rd) :=
  shaped_one (by decide) _ _

theorem EncodeShape.st (rd : Reg) (m : MemEA) : EncodeShape.Statement (.st rd m) :=
  encodeMemEA_shape 0x10 (by decide) rd.field m

theorem EncodeShape.add (rd : Reg) (ea : EA) : EncodeShape.Statement (.add rd ea) :=
  encodeEA_shape 0x18 (by decide) rd ea

theorem EncodeShape.sub (rd : Reg) (ea : EA) : EncodeShape.Statement (.sub rd ea) :=
  encodeEA_shape 0x20 (by decide) rd ea

theorem EncodeShape.cmp (rd : Reg) (ea : EA) : EncodeShape.Statement (.cmp rd ea) :=
  encodeEA_shape 0x28 (by decide) rd ea

theorem EncodeShape.and (rd : Reg) (ea : EA) : EncodeShape.Statement (.and rd ea) :=
  encodeEA_shape 0x30 (by decide) rd ea

theorem EncodeShape.or (rd : Reg) (ea : EA) : EncodeShape.Statement (.or rd ea) :=
  encodeEA_shape 0x38 (by decide) rd ea

theorem EncodeShape.xor (rd : Reg) (ea : EA) : EncodeShape.Statement (.xor rd ea) :=
  encodeEA_shape 0x40 (by decide) rd ea

theorem EncodeShape.adds (rd : Reg) (ea : EA) : EncodeShape.Statement (.adds rd ea) :=
  encodeEA_shape 0x48 (by decide) rd ea

theorem EncodeShape.mul (rd : Reg) (ea : EA) : EncodeShape.Statement (.mul rd ea) :=
  encodeEA_shape 0x50 (by decide) rd ea

theorem EncodeShape.div (rd : Reg) (ea : EA) : EncodeShape.Statement (.div rd ea) :=
  encodeEA_shape 0x58 (by decide) rd ea

theorem EncodeShape.mod (rd : Reg) (ea : EA) : EncodeShape.Statement (.mod rd ea) :=
  encodeEA_shape 0x60 (by decide) rd ea

theorem EncodeShape.mull (rd : Reg) (ea : EA) : EncodeShape.Statement (.mull rd ea) :=
  encodeEA_shape 0x68 (by decide) rd ea

theorem EncodeShape.divl (rd : Reg) (ea : EA) : EncodeShape.Statement (.divl rd ea) :=
  encodeEA_shape 0x70 (by decide) rd ea

theorem EncodeShape.shla (rd : Reg) (ea : EA) : EncodeShape.Statement (.shla rd ea) :=
  encodeEA_shape 0x80 (by decide) rd ea

theorem EncodeShape.shll (rd : Reg) (ea : EA) : EncodeShape.Statement (.shll rd ea) :=
  encodeEA_shape 0x88 (by decide) rd ea

theorem EncodeShape.shra (rd : Reg) (ea : EA) : EncodeShape.Statement (.shra rd ea) :=
  encodeEA_shape 0x90 (by decide) rd ea

theorem EncodeShape.shrl (rd : Reg) (ea : EA) : EncodeShape.Statement (.shrl rd ea) :=
  encodeEA_shape 0x98 (by decide) rd ea

theorem EncodeShape.jz (t : Target) : EncodeShape.Statement (.jz t) :=
  encodeTarget_shape 0xA0 (by decide) 0x0 t

theorem EncodeShape.jc (t : Target) : EncodeShape.Statement (.jc t) :=
  encodeTarget_shape 0xA0 (by decide) 0x1 t

theorem EncodeShape.jm (t : Target) : EncodeShape.Statement (.jm t) :=
  encodeTarget_shape 0xA0 (by decide) 0x2 t

theorem EncodeShape.jo (t : Target) : EncodeShape.Statement (.jo t) :=
  encodeTarget_shape 0xA0 (by decide) 0x3 t

theorem EncodeShape.jgt (t : Target) : EncodeShape.Statement (.jgt t) :=
  encodeTarget_shape 0xA0 (by decide) 0x4 t

theorem EncodeShape.jge (t : Target) : EncodeShape.Statement (.jge t) :=
  encodeTarget_shape 0xA0 (by decide) 0x5 t

theorem EncodeShape.jle (t : Target) : EncodeShape.Statement (.jle t) :=
  encodeTarget_shape 0xA0 (by decide) 0x6 t

theorem EncodeShape.jlt (t : Target) : EncodeShape.Statement (.jlt t) :=
  encodeTarget_shape 0xA0 (by decide) 0x7 t

theorem EncodeShape.jnz (t : Target) : EncodeShape.Statement (.jnz t) :=
  encodeTarget_shape 0xA0 (by decide) 0x8 t

theorem EncodeShape.jnc (t : Target) : EncodeShape.Statement (.jnc t) :=
  encodeTarget_shape 0xA0 (by decide) 0x9 t

theorem EncodeShape.jnm (t : Target) : EncodeShape.Statement (.jnm t) :=
  encodeTarget_shape 0xA0 (by decide) 0xA t

theorem EncodeShape.jno (t : Target) : EncodeShape.Statement (.jno t) :=
  encodeTarget_shape 0xA0 (by decide) 0xB t

theorem EncodeShape.jhi (t : Target) : EncodeShape.Statement (.jhi t) :=
  encodeTarget_shape 0xA0 (by decide) 0xC t

theorem EncodeShape.jls (t : Target) : EncodeShape.Statement (.jls t) :=
  encodeTarget_shape 0xA0 (by decide) 0xE t

theorem EncodeShape.jmp (t : Target) : EncodeShape.Statement (.jmp t) :=
  encodeTarget_shape 0xA0 (by decide) 0xF t

theorem EncodeShape.call (t : Target) : EncodeShape.Statement (.call t) :=
  encodeTarget_shape 0xA8 (by decide) 0x0 t

theorem EncodeShape.inp (rd : Reg) (p : IoEA) : EncodeShape.Statement (.inp rd p) :=
  encodeIoEA_shape 0xB0 (by decide) rd p

theorem EncodeShape.out (rd : Reg) (p : IoEA) : EncodeShape.Statement (.out rd p) :=
  encodeIoEA_shape 0xB8 (by decide) rd p

theorem EncodeShape.push (rd : Reg) : EncodeShape.Statement (.push rd) :=
  shaped_one (by decide) _ _

theorem EncodeShape.pop (rd : Reg) : EncodeShape.Statement (.pop rd) :=
  shaped_one (by decide) _ _

theorem EncodeShape.ret : EncodeShape.Statement .ret :=
  shaped_one (by decide) _ _

theorem EncodeShape.reti : EncodeShape.Statement .reti :=
  shaped_one (by decide) _ _

theorem EncodeShape.ei : EncodeShape.Statement .ei :=
  shaped_one (by decide) _ _

theorem EncodeShape.di : EncodeShape.Statement .di :=
  shaped_one (by decide) _ _

theorem EncodeShape.svc : EncodeShape.Statement .svc :=
  shaped_one (by decide) _ _

theorem EncodeShape.halt : EncodeShape.Statement .halt :=
  shaped_one (by decide) _ _

end Sys2Proof.Laws
end

