-- ==== Sys2Proof/Laws/Step.lean ====
section
/-! SUPPORT. What a port write, the devices' move and a step can do, said once. -/

namespace Sys2Proof.Machine

/-! ## Writing a port -/

/-- A port write leaves the CPU, memory, the pending bits, the record and the clock alone: it changes the MMU and the
devices only. -/
theorem writeCell_eq (s : State) (a : BitVec 8) (v : Byte) :
    writeCell s a v = { s with mmu := (writeCell s a v).mmu, dev := (writeCell s a v).dev } := by
  unfold writeCell
  split <;> rfl

@[simp] theorem writeCell_flag (s : State) (a : BitVec 8) (v : Byte) : (writeCell s a v).flag = s.flag := by
  rw [writeCell_eq]
@[simp] theorem writeCell_ssp (s : State) (a : BitVec 8) (v : Byte) : (writeCell s a v).ssp = s.ssp := by
  rw [writeCell_eq]
@[simp] theorem writeCell_halted (s : State) (a : BitVec 8) (v : Byte) : (writeCell s a v).halted = s.halted := by
  rw [writeCell_eq]
@[simp] theorem writeCell_pending (s : State) (a : BitVec 8) (v : Byte) : (writeCell s a v).pending = s.pending := by
  rw [writeCell_eq]
@[simp] theorem writeCell_ioLog (s : State) (a : BitVec 8) (v : Byte) : (writeCell s a v).ioLog = s.ioLog := by
  rw [writeCell_eq]
@[simp] theorem writeCell_clock (s : State) (a : BitVec 8) (v : Byte) : (writeCell s a v).clock = s.clock := by
  rw [writeCell_eq]
@[simp] theorem get_writeCell (s : State) (a : BitVec 8) (v : Byte) (h : Home) : (writeCell s a v).get h = s.get h := by
  rw [writeCell_eq]; cases h <;> rfl

theorem ioWriteWord_ok {s t : State} {a : BitVec 8} {v : Word} : ioWriteWord s a v = .ok t ↔
    a[0] = false ∧ (writeCell (writeCell s a (hiByte v)) (a + 1) (loByte v)).record (.word a v) = t := by
  unfold ioWriteWord
  cases h : a[0] <;> simp

theorem ioReadWord_ok {s : State} {a : BitVec 8} {v : Word} : ioReadWord s a = .ok v ↔ a[0] = false ∧ portRow s a = v := by
  unfold ioReadWord
  cases h : a[0] <;> simp

/-! ## The devices' move -/

@[simp] theorem boundary_pc (s : State) : (boundary s).pc = s.pc := rfl
@[simp] theorem boundary_flag (s : State) : (boundary s).flag = s.flag := rfl
@[simp] theorem boundary_ssp (s : State) : (boundary s).ssp = s.ssp := rfl
@[simp] theorem boundary_mmu (s : State) : (boundary s).mmu = s.mmu := rfl
@[simp] theorem boundary_halted (s : State) : (boundary s).halted = s.halted := rfl
@[simp] theorem get_boundary (s : State) (h : Home) : (boundary s).get h = s.get h := by cases h <;> rfl

/-! ## The step -/

/-- A next state of a step is an instruction's, in the state after its fetch, or the entry of an interrupt or of an
exception of the fetch, in the state after the devices' move. -/
theorem step_next {s t : State} (h : step s = .next t) :
    (∃ i, exec i (boundary s).afterFetch = .next t) ∨ ∃ c spc, enterTrap c spc (boundary s) = .next t := by
  unfold step at h
  split at h
  · cases h
  · unfold proceed at h
    split at h
    · exact .inr ⟨_, _, h⟩
    · unfold runInstruction at h
      split at h
      · exact .inl ⟨_, h⟩
      · exact .inr ⟨_, _, h⟩
      · cases h

end Sys2Proof.Machine
end

