-- ==== Sys2Proof/Tests/Slice0.lean ====
section
/-! SUPPORT. Tests. Expected results are those of spec/95_test_vectors.md (its line in brackets) or read by hand from the
rule named. First well-formedness and decoding, then single steps, then for each statement with hypotheses a state that
meets them. -/

namespace Sys2Proof.Tests

open Sys2Proof Sys2Proof.Machine

/-! ## WellFormed: an ill-formed term for each check -/

theorem test_register_F_as_rd : (Instr.ldFlag .pc).wellFormed = false ∧ (Instr.push .pc).wellFormed = false ∧
    (Instr.st .pc (.direct 0)).wellFormed = false ∧ (Instr.add .pc (.imm 0)).wellFormed = false ∧
    (Instr.inp .pc (.direct 0)).wellFormed = false := by decide

theorem test_register_F_in_the_operand : (Instr.ld (.g 0) (.reg .pc)).wellFormed = false ∧
    (Instr.ld (.g 0) (.mem (.indexed 0 .pc))).wellFormed = false ∧ (Instr.st (.g 0) (.indirect .pc)).wellFormed = false ∧
    (Instr.st (.g 0) (.byteIndirect .pc)).wellFormed = false := by decide

theorem test_register_F_in_the_target : (Instr.jmp (.indexed 0 .pc)).wellFormed = false ∧
    (Instr.call (.indirect .pc)).wellFormed = false := by decide

theorem test_register_F_in_the_io_address : (Instr.inp (.g 0) (.indirect .pc)).wellFormed = false ∧
    (Instr.out (.g 0) (.byteIndirect .pc)).wellFormed = false := by decide

theorem test_no_pair : (Instr.mull (.g 1) (.imm 2)).wellFormed = false ∧ (Instr.divl (.g 11) (.imm 2)).wellFormed = false ∧
    (Instr.divl .sp (.imm 2)).wellFormed = false ∧ (Instr.mull .usp (.imm 2)).wellFormed = false := by decide

theorem test_pairs : (Instr.mull (.g 10) (.imm 2)).wellFormed = true ∧ (Instr.divl .fp (.imm 2)).wellFormed = true := by
  decide

/-! ## Decoding: words written out from the formats (R100 to R121, R125) -/

theorem test_decode_transfer :
    decodeWords 0x0000 0 = .ok .no ∧
    decodeWords 0x0810 0x2000 = .ok (.ld (.g 1) (.mem (.direct 0x2000))) ∧
    decodeWords 0x0912 0x2000 = .ok (.ld (.g 1) (.mem (.indexed 0x2000 (.g 2)))) ∧
    decodeWords 0x0A10 0x8000 = .ok (.ld (.g 1) (.imm 0x8000)) ∧
    decodeWords 0x0B18 0 = .ok (.ld (.g 1) (.mem (.fpRel 0x8))) ∧
    decodeWords 0x0C12 0 = .ok (.ld (.g 1) (.reg (.g 2))) ∧
    decodeWords 0x0D18 0 = .ok (.ld (.g 1) (.imm4 0x8)) ∧
    decodeWords 0x0E12 0 = .ok (.ld (.g 1) (.mem (.indirect (.g 2)))) ∧
    decodeWords 0x0F12 0 = .ok (.ld (.g 1) (.mem (.byteIndirect (.g 2)))) ∧
    decodeWords 0x1430 0 = .ok (.ldFlag (.g 3)) ∧
    decodeWords 0x1701 0 = .ok (.st (.g 0) (.byteIndirect (.g 1))) := by decide

theorem test_decode_arithmetic :
    decodeWords 0x1C01 0 = .ok (.add (.g 0) (.reg (.g 1))) ∧ decodeWords 0x2401 0 = .ok (.sub (.g 0) (.reg (.g 1))) ∧
    decodeWords 0x2C01 0 = .ok (.cmp (.g 0) (.reg (.g 1))) ∧ decodeWords 0x3401 0 = .ok (.and (.g 0) (.reg (.g 1))) ∧
    decodeWords 0x3C01 0 = .ok (.or (.g 0) (.reg (.g 1))) ∧ decodeWords 0x4401 0 = .ok (.xor (.g 0) (.reg (.g 1))) ∧
    decodeWords 0x4C01 0 = .ok (.adds (.g 0) (.reg (.g 1))) := by decide

theorem test_decode_multiply_and_divide :
    decodeWords 0x5506 0 = .ok (.mul (.g 0) (.imm4 6)) ∧ decodeWords 0x5D07 0 = .ok (.div (.g 0) (.imm4 7)) ∧
    decodeWords 0x6507 0 = .ok (.mod (.g 0) (.imm4 7)) ∧ decodeWords 0x6A00 0x1000 = .ok (.mull (.g 0) (.imm 0x1000)) ∧
    decodeWords 0x7402 0 = .ok (.divl (.g 0) (.reg (.g 2))) := by decide

theorem test_decode_shifts :
    decodeWords 0x8504 0 = .ok (.shla (.g 0) (.imm4 4)) ∧ decodeWords 0x8C01 0 = .ok (.shll (.g 0) (.reg (.g 1))) ∧
    decodeWords 0x9504 0 = .ok (.shra (.g 0) (.imm4 4)) ∧ decodeWords 0x9D04 0 = .ok (.shrl (.g 0) (.imm4 4)) := by decide

theorem test_decode_jumps :
    decodeWords 0xA000 0x200 = .ok (.jz (.direct 0x200)) ∧ decodeWords 0xA010 0x200 = .ok (.jc (.direct 0x200)) ∧
    decodeWords 0xA020 0x200 = .ok (.jm (.direct 0x200)) ∧ decodeWords 0xA030 0x200 = .ok (.jo (.direct 0x200)) ∧
    decodeWords 0xA040 0x200 = .ok (.jgt (.direct 0x200)) ∧ decodeWords 0xA050 0x200 = .ok (.jge (.direct 0x200)) ∧
    decodeWords 0xA060 0x200 = .ok (.jle (.direct 0x200)) ∧ decodeWords 0xA070 0x200 = .ok (.jlt (.direct 0x200)) ∧
    decodeWords 0xA080 0x200 = .ok (.jnz (.direct 0x200)) ∧ decodeWords 0xA692 0 = .ok (.jnc (.indirect (.g 2))) ∧
    decodeWords 0xA0A0 0x200 = .ok (.jnm (.direct 0x200)) ∧ decodeWords 0xA0B0 0x200 = .ok (.jno (.direct 0x200)) ∧
    decodeWords 0xA0C0 0x200 = .ok (.jhi (.direct 0x200)) ∧ decodeWords 0xA0E0 0x200 = .ok (.jls (.direct 0x200)) ∧
    decodeWords 0xA1F1 0x200 = .ok (.jmp (.indexed 0x200 (.g 1))) ∧
    decodeWords 0xAE03 0 = .ok (.call (.indirect (.g 3))) := by decide

theorem test_decode_io_stack_system :
    decodeWords 0xB000 0x1E = .ok (.inp (.g 0) (.direct 0x1E)) ∧ decodeWords 0xB601 0 = .ok (.inp (.g 0) (.indirect (.g 1))) ∧
    decodeWords 0xBF01 0 = .ok (.out (.g 0) (.byteIndirect (.g 1))) ∧
    decodeWords 0xC050 0 = .ok (.push (.g 5)) ∧ decodeWords 0xC4C0 0 = .ok (.pop .fp) ∧
    decodeWords 0xD000 0 = .ok .ret ∧ decodeWords 0xD400 0 = .ok .reti ∧ decodeWords 0xE000 0 = .ok .ei ∧
    decodeWords 0xE400 0 = .ok .di ∧ decodeWords 0xF000 0 = .ok .svc ∧ decodeWords 0xFF00 0 = .ok .halt := by decide

/-- The decoder's refusals (R122 to R125, R173). -/
theorem test_decode_refuses :
    decodeWords 0x0100 0 = .error .undefinedOp ∧ decodeWords 0x1200 0x1234 = .error .undefinedOp ∧
    decodeWords 0xFE00 0 = .error .undefinedOp ∧ decodeWords 0xE010 0 = .error .nonzeroField ∧
    decodeWords 0x0801 0x2000 = .error .nonzeroField ∧ decodeWords 0xA810 0x200 = .error .nonzeroField ∧
    decodeWords 0xC051 0 = .error .nonzeroField ∧ decodeWords 0xA0D0 0x200 = .error .conditionD ∧
    decodeWords 0x0CF1 0 = .error .registerF ∧ decodeWords 0x0C1F 0 = .error .registerF ∧
    decodeWords 0x6D12 0 = .error .oddPair ∧ decode [0x08, 0x10, 0x20] = .error .truncated := by decide

theorem test_table_word : decodeTableWord 32 0x20000912 = some (.ld (.g 1) (.mem (.indexed 0x2000 (.g 2)))) ∧
    decodeTableWord 16 0x0912 = some (.ld (.g 1) (.mem (.indexed 0 (.g 2)))) := by decide

/-! ## Single steps -/

/-- The start state of the vectors: PC = 0100h, FLAG = 0040h, SSP = F000h, USP = E000h. -/
def start : State := { State.reset with pc := 0x0100, ssp := 0xF000, usp := 0xE000 }

def withWord (s : State) (a w : Word) : State := s.setMem (Memory.writeWord s.mem a w)

/-- Two words at PC. -/
def code (s : State) (w1 w2 : Word) : State := withWord (withWord s s.pc w1) (s.pc + 2) w2

def withFlag (s : State) (f : Word) : State := s.setFlag (Flag.ofWord f)

def withG (s : State) (g0 g1 : Word) : State := (s.put g0 (.g 0)).put g1 (.g 1)

/-- What a step leads to, where it answers a next state. -/
def after {α : Type} (f : State → α) : StepResult → Option α
  | .next t => some (f t)
  | .fault _ | .refused _ => none

/-- Why a step is refused, where it is. -/
def refusal : StepResult → Option Refusal
  | .refused r => some r
  | .next _ | .fault _ => none

/-- G0, G1 and FLAG after a one-word instruction, FLAG being 004Fh before it. -/
def alu (w g0 g1 : Word) : Option (Word × Word × Word) :=
  after (fun t => (t.g[0], t.g[1], t.flag.word)) (step (code (withG (withFlag start 0x004F) g0 g1) w 0))

/-- PC after a jump to 0200h with V, C, S, Z as given. -/
def jump (w : Word) (vcsz : Word) : Option Word := after State.pc (step (code (withFlag start (0x0040 + vcsz)) w 0x0200))

/-- PC, FLAG, SSP and the two words on the system stack. -/
def frame (t : State) : Word × Word × Word × Word × Word :=
  (t.pc, t.flag.word, t.ssp, Memory.readWord t.mem t.ssp, Memory.readWord t.mem (t.ssp + 2))

theorem test_no : after (fun t => (t.pc, t.flag.word)) (step (code start 0x0000 0)) = some (0x0102, 0x0040) := by decide -- Y1

theorem test_ld_fp_relative : after (fun t => (t.g[0], t.pc))
    (step (code (withWord (start.put 0x3000 .fp) 0x2FF0 0xCAFE) 0x0B08 0)) = some (0xCAFE, 0x0102) := by decide -- L5
theorem test_ld_byte_at_odd_address : after (fun t => t.g[0])
    (step (code (withWord (withG start 0 0x2001) 0x2000 0xA1B2) 0x0F01 0)) = some 0x00B2 := by decide -- L12
theorem test_ld_flag : after (fun t => t.g[3]) (exec (.ldFlag (.g 3)) (withFlag start 0x00C5)) = some 0x00C5 := by
  decide -- L15
theorem test_st_word : after (fun t => (Memory.read t.mem 0x2000, Memory.read t.mem 0x2001))
    (step (code (withG start 0x1234 0) 0x1000 0x2000)) = some (0x12, 0x34) := by decide -- T1
theorem test_st_byte : after (fun t => Memory.readWord t.mem 0x2000)
    (step (code (withWord (withG start 0x1234 0x2001) 0x2000 0xAAAA) 0x1701 0)) = some 0xAA34 := by decide -- T5

theorem test_add_overflow : alu 0x1C01 0x8000 0x8000 = some (0, 0x8000, 0x4D) := by decide -- A4
theorem test_add_wraps : alu 0x1C01 0xFFFF 0x0001 = some (0, 1, 0x45) := by decide -- A2
theorem test_sub_borrow : alu 0x2401 0x0000 0x8000 = some (0x8000, 0x8000, 0x4E) := by decide -- A13
theorem test_sub_overflow : alu 0x2401 0x8000 0x0001 = some (0x7FFF, 1, 0x48) := by decide -- A11
theorem test_cmp_keeps_rd : alu 0x2C01 0x0001 0x8000 = some (0x0001, 0x8000, 0x4E) := by decide -- A19
theorem test_and : alu 0x3401 0xF0F0 0x0FF0 = some (0x00F0, 0x0FF0, 0x40) := by decide -- A22
theorem test_or : alu 0x3C01 0x00F0 0xFFF8 = some (0xFFF8, 0xFFF8, 0x42) := by decide -- A25
theorem test_xor : alu 0x4401 0xAAAA 0x5555 = some (0xFFFF, 0x5555, 0x42) := by decide -- A29
theorem test_adds_loses_bit_15 : alu 0x4C01 0x0000 0x8001 = some (2, 0x8001, 0x40) := by decide -- A32
theorem test_adds_overflow : alu 0x4C01 0x8000 0xC000 = some (0, 0xC000, 0x4D) := by decide -- A36

theorem test_mul : alu 0x5401 0xFFFF 0xFFFF = some (1, 0xFFFF, 0x40) := by decide -- M2
theorem test_div_unsigned : alu 0x5C01 0xFFFF 0x0002 = some (0x7FFF, 2, 0x40) := by decide -- M6
theorem test_div_by_zero : after frame (step (code (withWord (withFlag start 0x004F) 0xFFF8 0xF1C0) 0x5D00 0)) =
    some (0xF1C0, 0x004F, 0xEFFC, 0x004F, 0x0102) := by decide -- M8
theorem test_mod : alu 0x6401 0x0003 0x0005 = some (3, 5, 0x40) := by decide -- M10
theorem test_mull : alu 0x6C01 0xFFFF 0xFFFF = some (1, 0xFFFE, 0x40) := by decide -- M14
theorem test_mull_of_itself : alu 0x6C00 0x0100 0x5555 = some (0, 1, 0x41) := by decide -- M15
theorem test_divl : alu 0x7503 0x0000 0x0001 = some (0x5555, 1, 0x40) := by decide -- M16

theorem test_shla : alu 0x8504 0xFF00 0 = some (0xF000, 0, 0x46) := by decide -- S4
theorem test_shll : alu 0x8C01 0x0001 0x000F = some (0x8000, 0xF, 0x42) := by decide -- S9
theorem test_shra : alu 0x9501 0x8001 0 = some (0xC000, 0, 0x46) := by decide -- S14
theorem test_shra_of_nothing_shifted : alu 0x9500 0x8001 0 = some (0x8001, 0, 0x42) := by decide -- S13
theorem test_shrl : alu 0x9D01 0x8001 0 = some (0x4000, 0, 0x44) := by decide -- S20

/-! The jumps, at a flag pattern V C S Z where they are taken and one where they are not (vectors 2.4). -/

theorem test_jz : jump 0xA000 0x1 = some 0x0200 ∧ jump 0xA000 0xE = some 0x0104 := by decide
theorem test_jc : jump 0xA010 0x4 = some 0x0200 ∧ jump 0xA010 0xB = some 0x0104 := by decide
theorem test_jm : jump 0xA020 0x2 = some 0x0200 ∧ jump 0xA020 0xD = some 0x0104 := by decide
theorem test_jo : jump 0xA030 0x8 = some 0x0200 ∧ jump 0xA030 0x7 = some 0x0104 := by decide
theorem test_jgt : jump 0xA040 0xA = some 0x0200 ∧ jump 0xA040 0xB = some 0x0104 := by decide
theorem test_jge : jump 0xA050 0xB = some 0x0200 ∧ jump 0xA050 0x8 = some 0x0104 := by decide
theorem test_jle : jump 0xA060 0xB = some 0x0200 ∧ jump 0xA060 0xA = some 0x0104 := by decide
theorem test_jlt : jump 0xA070 0x8 = some 0x0200 ∧ jump 0xA070 0xB = some 0x0104 := by decide
theorem test_jnz : jump 0xA080 0xE = some 0x0200 ∧ jump 0xA080 0x1 = some 0x0104 := by decide
theorem test_jnc : jump 0xA090 0xB = some 0x0200 ∧ jump 0xA090 0x4 = some 0x0104 := by decide
theorem test_jnm : jump 0xA0A0 0xD = some 0x0200 ∧ jump 0xA0A0 0x2 = some 0x0104 := by decide
theorem test_jno : jump 0xA0B0 0x7 = some 0x0200 ∧ jump 0xA0B0 0x8 = some 0x0104 := by decide
theorem test_jhi : jump 0xA0C0 0xA = some 0x0200 ∧ jump 0xA0C0 0x1 = some 0x0104 := by decide
theorem test_jls : jump 0xA0E0 0x4 = some 0x0200 ∧ jump 0xA0E0 0xA = some 0x0104 := by decide
theorem test_jmp_indexed : after State.pc (step (code (withG start 0 0x0020) 0xA1F1 0x0200)) = some 0x0220 := by decide -- J3

theorem test_call : after (fun t => (t.pc, t.ssp, Memory.readWord t.mem 0xEFFE)) (step (code start 0xA800 0x0200)) =
    some (0x0200, 0xEFFE, 0x0104) := by decide -- K1
theorem test_call_in_user_mode : after (fun t => (t.usp, t.ssp, Memory.readWord t.mem 0xDFFE))
    (step (code (withFlag start 0) 0xA800 0x0200)) = some (0xDFFE, 0xF000, 0x0104) := by decide -- K4
theorem test_ret : after (fun t => (t.pc, t.ssp))
    (step (code (withWord (start.put 0xEFFE .ssp) 0xEFFE 0x0104) 0xD000 0)) = some (0x0104, 0xF000) := by decide -- K6
theorem test_push : after (fun t => (t.ssp, Memory.readWord t.mem 0xEFFE))
    (step (code (start.put 0xABCD (.g 5)) 0xC050 0)) = some (0xEFFE, 0xABCD) := by decide -- Q1
theorem test_push_double_fault : refusal (step (code (start.put 0xEFFD .ssp) 0xC050 0)) = some .trapEntry := by decide -- Q4
theorem test_pop : after (fun t => (t.g[6], t.ssp))
    (step (code (withWord (start.put 0xEFFE .ssp) 0xEFFE 0xABCD) 0xC460 0)) = some (0xABCD, 0xF000) := by decide -- Q2
theorem test_reti_reserved_bits : after (fun t => (t.flag.word, t.pc, t.ssp))
    (step (code (withWord (withWord (start.put 0xEFFC .ssp) 0xEFFC 0xFFFF) 0xEFFE 0x1234) 0xD400 0)) =
    some (0x00EF, 0x1234, 0xF000) := by decide -- Q7
theorem test_reti_in_user_mode : after (fun t => (t.flag.word, t.pc, t.usp, t.ssp))
    (step (code (withWord (withWord ((withFlag start 0).put 0xDFFC .usp) 0xDFFC 0x00EF) 0xDFFE 0x1234) 0xD400 0)) =
    some (0x000F, 0x1234, 0xE000, 0xF000) := by decide -- Q8

theorem test_in_mode_port : after (fun t => (t.g[0], t.pc)) (step (code start 0xB000 0x001E)) = some (1, 0x0104) := by
  decide -- I1
theorem test_in_is_privileged : after frame (exec (.inp (.g 0) (.direct 0x1E))
    (withWord (withFlag start 0x0080) 0xFFFA 0xF1D0)) = some (0xF1D0, 0x0040, 0xEFFC, 0x0080, 0x0104) := by decide -- I7
theorem test_out_word : after (fun t => (t.ioLog, t.dev.timer1.period))
    (step (code (withG start 0x8001 0) 0xB800 0x0004)) = some ([.word 0x04 0x8001], 0x8001) := by decide -- I4
theorem test_out_byte : after (fun t => (t.ioLog, t.dev.ft232rl.sent))
    (step (code (withG start 0x1241 0x0009) 0xBF01 0)) = some ([.byte 0x09 0x41], 0x41) := by decide -- I5

theorem test_ei : after (fun t => (t.flag.word, t.pc)) (step (code start 0xE000 0)) = some (0x00C0, 0x0102) := by decide -- Y2
theorem test_ei_is_privileged : after frame (exec .ei (withWord (withFlag start 0x0080) 0xFFFA 0xF1D0)) =
    some (0xF1D0, 0x0040, 0xEFFC, 0x0080, 0x0102) := by decide -- Y4
theorem test_di : after (fun t => (t.flag.word, t.pc)) (exec .di (withFlag start 0x00CF)) = some (0x004F, 0x0102) := by
  decide -- Y3
theorem test_svc : after frame (exec .svc (withWord (withFlag start 0x00A5) 0xFFFE 0xF1F0)) =
    some (0xF1F0, 0x0065, 0xEFFC, 0x00A5, 0x0102) := by decide -- Y8
theorem test_halt : after (fun t => (t.halted, t.pc)) (step (code start 0xFF00 0)) = some (true, 0x0102) := by decide -- Y7
theorem test_halt_is_privileged : after (fun t => (t.halted, frame t))
    (exec .halt (withWord (withFlag start 0x0080) 0xFFFA 0xF1D0)) =
    some (false, 0xF1D0, 0x0040, 0xEFFC, 0x0080, 0x0102) := by decide -- Y6

/-! Exceptions, interrupts, the MMU. -/

theorem test_blank_op : after frame (step (code (withWord start 0xFFFC 0xF1E0) 0x1200 0x1234)) =
    some (0xF1E0, 0x0040, 0xEFFC, 0x0040, 0x0102) := by decide -- X4
theorem test_odd_pc : after frame (step (withWord (start.setPc 0x0101) 0xFFF4 0xF1A0)) =
    some (0xF1A0, 0x0040, 0xEFFC, 0x0040, 0x0101) := by decide -- X2
theorem test_odd_operand : after frame (step (code (withWord start 0xFFF4 0xF1A0) 0x0800 0x2001)) =
    some (0xF1A0, 0x0040, 0xEFFC, 0x0040, 0x0104) := by decide -- L14
theorem test_interrupt : after frame (proceed (withWord
    { withFlag (start.setPc 0x0300) 0x0085 with pending := 0x003 } 0xFFE0 0xF100)) =
    some (0xF100, 0x0045, 0xEFFC, 0x0085, 0x0300) := by decide -- X5, X7

/-- User mode, the MMU on, base 4000h, limit 1000h. -/
def relocated : State := { withFlag start 0 with mmu := { en := true, base := 0x4000, limit := 0x1000 } }

theorem test_relocated_read : after (fun t => (t.g[0], t.pc))
    (step (withWord (withWord (withWord relocated 0x4100 0x0800) 0x4102 0x0200) 0x4200 0x9ABC)) =
    some (0x9ABC, 0x0104) := by decide -- X9
theorem test_protected_read : after frame
    (step (withWord (withWord (withWord relocated 0x4100 0x0800) 0x4102 0x2000) 0xFFF6 0xF1B0)) =
    some (0xF1B0, 0x0040, 0xEFFC, 0x0000, 0x0104) := by decide -- X8

theorem test_refused_uses : refusal (step (code start 0x1000 0xF000)) = some .romStore ∧ -- T7
    refusal (step (code start 0x6D12 0)) = some .oddPair ∧ -- M20
    refusal (step (code (withG start 0 0x0005) 0xB601 0)) = some .oddIoAddress ∧ -- I9
    refusal (step (code (withG start 9 2) 0x7401 0)) = some .quotientOverflow ∧ -- E14
    refusal (step (code ((withG start 0 5).put 5 (.g 2)) 0x7402 0)) = some .quotientOverflow ∧ -- M18
    refusal (step (code start 0xC0D0 0)) = some .ownStackPointer ∧ -- Q5
    refusal (step (code start 0xC4D0 0)) = some .ownStackPointer ∧
    refusal (step (code (withFlag start 0) 0xC4E0 0)) = some .ownStackPointer ∧
    refusal (step (code start 0xA0D0 0x0200)) = some .conditionD ∧ -- J8
    refusal (step (code start 0xE010 0)) = some .nonzeroField ∧ -- Y10
    refusal (step (code start 0x0C0F 0)) = some .registerF := by decide

theorem test_canonical_memory : Memory.write (Memory.write [] 5 7) 5 0 = [] ∧
    Memory.write (Memory.write [] 9 1) 5 7 = [(5, 7), (9, 1)] ∧ Memory.wf [(9, 1), (5, 7)] = false ∧
    Memory.wf [(5, 0)] = false ∧ Memory.wf [(0x10000, 1)] = false := by decide

/-- A program's first instruction from reset: LD G1,2000h,G2 and RETI (log entry 2). -/
theorem test_withFetchWord : after (fun t => t.pc) (step (State.reset.withFetchWord 32 0x20000912)) = some 0xF004 ∧
    after (fun t => t.ssp) (step (State.reset.withFetchWord 16 0xD400)) = some 4 := by decide

/-! ## Witnesses: for each statement with hypotheses, a state and operands that meet them -/

theorem next_of_after {α : Type} {f : State → α} {o : StepResult} (h : (after f o).isSome = true) : ∃ t, o = .next t := by
  cases o with
  | next t => exact ⟨t, rfl⟩
  | fault _ | refused _ => cases h

theorem witness_StepKeepsMemoryCanonical : start.Inv ∧ ∃ t, step start = .next t :=
  ⟨rfl, next_of_after (f := State.pc) (by decide)⟩
theorem witness_DecodeInvertsEncode : (Instr.divl .fp (.mem (.fpRel 0x8))).wellFormed = true := by decide
theorem witness_EncodeInvertsDecode : decodeWords 0x7503 0 = .ok (.divl (.g 0) (.imm4 3)) ∧
    decodeWords 0xA1F1 0x0200 = .ok (.jmp (.indexed 0x0200 (.g 1))) := by decide

theorem witness_WrittenOutWordsDecode : Reg.usp ≠ .pc := by decide

/-- A two-word and a one-word instruction at PC. -/
theorem witness_StepRunsTheDecodedInstruction :
    (let s := code start 0x0912 0x2000
     s.halted = false ∧ accepted (boundary s) = none ∧ loadWord (boundary s) s.pc = .ok 0x0912 ∧
     hasSecondWord 0x0912 = true ∧ loadWord ((boundary s).interleave .secondWord) (s.pc + 2) = .ok 0x2000 ∧
     decodeWords 0x0912 0x2000 = .ok (.ld (.g 1) (.mem (.indexed 0x2000 (.g 2))))) ∧
    (let s := code start 0xD400 0
     s.halted = false ∧ accepted (boundary s) = none ∧ loadWord (boundary s) s.pc = .ok 0xD400 ∧
     hasSecondWord 0xD400 = false ∧ decodeWords 0xD400 0 = .ok .reti) := by decide
theorem witness_DevicesMoveLeavesTheCpuAlone : start.dev.usd.commanded = false ∧ inRom 0xF000 = true ∧
    inRom 0xFFDF = true := by decide

/-- The first and the last blank OP. -/
theorem witness_BlankOpTrapsAsUndefined :
    start.halted = false ∧ accepted (boundary (code start 0x0100 0)) = none ∧
    loadWord (boundary (code start 0x0100 0)) start.pc = .ok 0x0100 ∧ BlankOp (opField 0x0100).toNat ∧
    accepted (boundary (code start 0xFE00 0)) = none ∧
    loadWord (boundary (code start 0xFE00 0)) start.pc = .ok 0xFE00 ∧ BlankOp (opField 0xFE00).toNat := by
  unfold BlankOp; decide

/-- An odd PC; a PC at the limit; a two-word instruction whose second word is at the limit. -/
theorem witness_FaultingFetchTraps :
    (let s := start.setPc 0x0101
     s.halted = false ∧ accepted (boundary s) = none ∧ s.pc[0] = true) ∧
    (let s := relocated.setPc 0x1000
     s.halted = false ∧ accepted (boundary s) = none ∧ s.pc[0] = false ∧ s.flag.p = false ∧ s.mmu.en = true ∧
     s.mmu.limit.toNat ≤ s.pc.toNat) ∧
    (let s := (withWord relocated 0x4FFE 0x0800).setPc 0x0FFE
     s.halted = false ∧ accepted (boundary s) = none ∧ s.flag.p = false ∧ s.mmu.en = true ∧
     loadWord (boundary s) s.pc = .ok 0x0800 ∧ ¬ BlankOp (opField 0x0800).toNat ∧ hasSecondWord 0x0800 = true ∧
     s.mmu.limit.toNat ≤ (s.pc + 2).toNat) := by
  unfold BlankOp; decide

/-- The first source with another one pending; the last source alone. -/
theorem witness_LowestPendingInterruptIsAccepted :
    (let s := { withFlag start 0x00C0 with pending := 0x003 }
     Cause.timer0 ∈ interruptSources ∧ s.flag.e = true ∧ s.pending.getLsbD Cause.timer0.number = true ∧
     ∀ c' ∈ interruptSources, c'.number < Cause.timer0.number → s.pending.getLsbD c'.number = false) ∧
    (let s := { withFlag start 0x00C0 with pending := 0x200 }
     Cause.adc ∈ interruptSources ∧ s.flag.e = true ∧ s.pending.getLsbD Cause.adc.number = true ∧
     ∀ c' ∈ interruptSources, c'.number < Cause.adc.number → s.pending.getLsbD c'.number = false) ∧
    start.halted = false := by decide
theorem witness_InterruptsNeedTheirEnables :
    let d := start.dev
    d.timer0.intEna = false ∧ d.timer1.intEna = false ∧ d.ft232rl.rxIntEna = false ∧ d.ft232rl.txIntEna = false ∧
    d.tec.rxIntEna = false ∧ d.tec.txIntEna = false ∧ d.rn4020.rxIntEna = false ∧ d.rn4020.txIntEna = false ∧
    d.usd.intEna = false ∧ start.flag.e = false := by decide

/-- Below the ROM, above it, and across the top of memory. -/
theorem witness_TrapEntryBuildsTheFrame : ([0xF000, 0xFFE4, 0x0002] : List Word).all (fun sp =>
    let s := start.put sp .ssp
    decide (s.ssp[0] = false ∧ inRom (s.ssp - 2) = false ∧ inRom (s.ssp - 4) = false ∧
      s.dev.usd.commanded = false)) = true := by decide
theorem witness_ReturnUndoesTrapEntry : start.dev.usd.commanded = false ∧ ∃ t, enterTrap .svc 0x0102 start = .next t :=
  ⟨rfl, next_of_after (f := State.pc) (by decide)⟩

/-- In privileged and in user mode. -/
theorem witness_RetiRestoresFlagAndPc :
    (loadWord start start.sp = .ok 0 ∧ loadWord (start.interleave .secondPop) (start.sp + 2) = .ok 0 ∧
      start.flag.p = true) ∧
    (let s := withFlag start 0
     loadWord s s.sp = .ok 0 ∧ loadWord (s.interleave .secondPop) (s.sp + 2) = .ok 0 ∧ s.flag.p = false) := by decide
theorem witness_SvcTraps : ∀ s ∈ [start, withFlag start 0],
    s.ssp[0] = false ∧ inRom (s.ssp - 2) = false ∧ inRom (s.ssp - 4) = false ∧ s.dev.usd.commanded = false := by decide
theorem witness_PrivilegedInstructionsTrapInUserMode :
    (withFlag start 0x0080).flag.p = false ∧ (withFlag start 0x0080).flag.i = false := by decide
theorem witness_EiAndDiWriteE : start.flag.p = true := by decide
theorem witness_HaltStopsTheCpu : start.flag.p = true ∧
    ({ start with halted := true } : State).halted = true := by decide

/-- SVC out of user mode, RETI into it, steps that are an SVC and a RETI, and a RETI that pops I = 1. -/
theorem witness_ModeChangesOnlyByTrapAndReti :
    (after (fun t => t.flag.p) (exec .svc (withFlag start 0)) = some true ∧ (withFlag start 0).flag.p = false) ∧
    (after (fun t => t.flag.p) (exec .reti start) = some false ∧ start.flag.p = true) ∧
    after (fun t => t.flag.p) (step (code (withFlag start 0) 0xF000 0)) = some true ∧
    after (fun t => t.flag.p) (step (code start 0xD400 0)) = some false ∧
    (let s := start.setMem [(0xF001, 0x20)]
     after (fun t => t.flag.i) (exec .reti s) = some true ∧ s.flag.i = false) ∧
    after (fun t => t.flag.i) (step ((code start 0xD400 0).put 0x0040 .ssp |>.setMem [(0x0041, 0x20), (0x0100, 0xD4)])) =
      some true := by decide

/-- User mode with the MMU on, and 5001h, the first byte above the relocated window. -/
theorem witness_UserModeIsConfined :
    (∃ t, exec .no relocated = .next t ∧ t.flag.p = false) ∧ relocated.flag.p = false ∧ relocated.flag.i = false ∧
    relocated.mmu.en = true ∧ ∀ x : Word, x.toNat < relocated.mmu.limit.toNat →
      (x + relocated.mmu.base).toNat ≠ 0x5001 ∧ (x + relocated.mmu.base + 1).toNat ≠ 0x5001 := by
  refine ⟨⟨_, rfl, rfl⟩, rfl, rfl, rfl, fun x hx => ?_⟩
  have h1 : relocated.mmu.base = 0x4000 := rfl
  have h2 : relocated.mmu.limit.toNat = 0x1000 := rfl
  rw [h1]; rw [h2] at hx
  bv_omega

/-- A store; an IN and an OUT of user mode with I = 1; a row. -/
theorem witness_IoSpaceChangesOnlyByInAndOut :
    (∃ t, exec (.st (.g 0) (.direct 0x2000)) start = .next t) ∧
    (let s := withFlag start 0x0020
     s.flag.i = true ∧ (∃ t, exec (.inp (.g 0) (.direct 0x001E)) s = .next t) ∧
     ∃ t, exec (.out (.g 0) (.direct 0x0004)) s = .next t) ∧ (0xFE : BitVec 8)[0] = false :=
  ⟨next_of_after (f := State.pc) (by decide), ⟨rfl, next_of_after (f := State.pc) (by decide),
    next_of_after (f := State.pc) (by decide)⟩, rfl⟩

theorem witness_OperandFormsYieldTheirOperands : readReg start .fp = .ok 0 := by decide
theorem witness_SumByteAndTargetForms : readReg start .fp = .ok 0 ∧ loadByte start 0 = .ok 0 := by decide

/-- An odd address; the limit itself, and the last address below it; the MMU off; privileged mode. -/
theorem witness_AddressChecksAndRelocation :
    (0x0FFF : Word)[0] = true ∧
    (relocated.flag.p = false ∧ relocated.mmu.en = true ∧ relocated.mmu.limit.toNat ≤ (0x1000 : Word).toNat ∧
      (0x1000 : Word)[0] = false) ∧
    ((0x0FFF : Word).toNat < relocated.mmu.limit.toNat ∧ (0x0FFE : Word).toNat < relocated.mmu.limit.toNat ∧
      (0x0FFE : Word)[0] = false) ∧
    start.mmu.en = false ∧ start.flag.p = true := by decide
theorem witness_OperandFaultsTrapPrecisely : operand start (.mem (.direct 0x2001)) = .error (.trap .invalidAddress) ∧
    operand relocated (.mem (.direct 0x1000)) = .error (.trap .memoryProtection) ∧ Reg.g 0 ≠ .pc ∧
    (Reg.g 0).headsPair = true ∧
    (readReg start (.g 0) = .ok 0 ∧ memStore start (.direct 0x2001) 0 = .error (.trap .invalidAddress)) ∧
    (memAddress start (.direct 0x2001) = .ok 0x2001 ∧ MemEA.isWord (.direct 0x2001) = true ∧ (0x2001 : Word)[0] = true) ∧
    (memAddress relocated (.direct 0x1000) = .ok 0x1000 ∧ (0x1000 : Word)[0] = false ∧ relocated.flag.p = false ∧
      relocated.mmu.en = true ∧ relocated.mmu.limit.toNat ≤ (0x1000 : Word).toNat) ∧
    (memAddress (withG relocated 0 0x1001) (.byteIndirect (.g 1)) = .ok 0x1001 ∧
      MemEA.isWord (.byteIndirect (.g 1)) = false) := by decide

theorem witness_LdLoadsTheOperand : Reg.home start.flag.p (.g 0) = some (.g 0) ∧ operand start (.imm 1) = .ok 1 := by decide
theorem witness_LdFlagReadsFlag : Reg.home start.flag.p (.g 0) = some (.g 0) := by decide

/-- The words just below and just above the ROM, and the byte just below it. -/
theorem witness_StStoresAtItsAddress : Reg.home start.flag.p (.g 0) = some (.g 0) ∧
    memAddress start (.direct 0xEFFE) = .ok 0xEFFE ∧ WordStore start 0xEFFE 0xEFFE ∧
    memAddress start (.direct 0xFFE0) = .ok 0xFFE0 ∧ WordStore start 0xFFE0 0xFFE0 ∧
    memAddress (withG start 0 0xEFFF) (.byteIndirect (.g 1)) = .ok 0xEFFF ∧
    ByteStore (withG start 0 0xEFFF) 0xEFFF 0xEFFF := by
  unfold WordStore ByteStore; decide

/-- The ends of the ROM, for ST and for a push; registers that head no pair; an odd row; an odd SSP, and one whose first or second push meets the
ROM. -/
theorem witness_RomStoresBadPairsOddIoAndDoubleFaultsAreRefused :
    (memAddress start (.direct 0xF000) = .ok 0xF000 ∧ physical start 0xF000 = .ok 0xF000 ∧ (0xF000 : Word)[0] = false) ∧
    (memAddress (withG start 0 0xFFDF) (.byteIndirect (.g 1)) = .ok 0xFFDF ∧
      physical (withG start 0 0xFFDF) 0xFFDF = .ok 0xFFDF ∧ MemEA.isWord (.byteIndirect (.g 1)) = false) ∧
    ([0xF002, 0xFFE0] : List Word).all (fun sp =>
      let s := start.put sp .ssp
      decide (s.sp[0] = false ∧ physical s (s.sp - 2) = .ok (s.sp - 2) ∧ 0xF000 ≤ (s.sp - 2).toNat ∧
        (s.sp - 2).toNat < 0xFFE0 ∧ Reg.home s.flag.p (.g 5) = some (.g 5) ∧ Home.g 5 ≠ s.spHome ∧
        targetAddress s (.direct 0x0200) = .ok 0x0200)) = true ∧
    ((Reg.g 11).headsPair = false ∧ Reg.usp.headsPair = false) ∧
    (start.flag.p = true ∧ ioAddress start (.direct 0x0005) = .ok 0x05 ∧ IoEA.isWord (.direct 0x0005) = true ∧
      (0x05 : BitVec 8)[0] = true) ∧
    ((0xEFFD : Word)[0] = true ∧ inRom (0xFFE0 - 2) = true ∧ inRom (0xFFE2 - 4) = true) := by decide

theorem witness_AddGivesSumAndFlags : Reg.home start.flag.p (.g 0) = some (.g 0) ∧ operand start (.imm 1) = .ok 1 := by decide
theorem witness_SubGivesDifferenceAndFlags : Reg.home start.flag.p (.g 0) = some (.g 0) ∧ operand start (.imm 1) = .ok 1 := by decide
theorem witness_CmpOnlySetsFlags : readReg start (.g 0) = .ok 0 ∧ operand start (.imm 1) = .ok 1 := by
  decide
theorem witness_CompareAndJumpTable : readReg start (.g 0) = .ok 0 ∧ operand start (.imm 1) = .ok 1 ∧ targetAddress start (.direct 0x0200) = .ok 0x0200 := by
  decide
theorem witness_LogicGivesBitsAndFlags : Reg.home start.flag.p (.g 0) = some (.g 0) ∧ operand start (.imm 1) = .ok 1 := by decide
theorem witness_AddsAddsTheDoubledOperand : Reg.home start.flag.p (.g 0) = some (.g 0) ∧ operand start (.imm 1) = .ok 1 := by decide
theorem witness_DivAndModGiveQuotientAndRemainder : Reg.home start.flag.p (.g 0) = some (.g 0) ∧
    operand start (.imm 1) = .ok 1 ∧ (1 : Word) ≠ 0 := by decide
theorem witness_DivisionByZeroTraps : Reg.g 0 ≠ .pc ∧ operand start (.imm 0) = .ok 0 ∧ (Reg.g 0).headsPair = true := by decide

/-- A register, which heads a pair of general registers, and the pair FP, SP. -/
theorem witness_MulAndMullGiveTheProduct :
    (Reg.partner (.g 0) = some (.g 1) ∧ Reg.home start.flag.p (.g 0) = some (.g 0) ∧
      Reg.home start.flag.p (.g 1) = some (.g 1) ∧ operand start (.imm 3) = .ok 3) ∧
    (Reg.partner .fp = some .sp ∧ Reg.home start.flag.p .fp = some .fp ∧ Reg.home start.flag.p .sp = some .ssp) := by decide

/-- The largest high word whose quotient fits, and the smallest whose quotient does not. -/
theorem witness_DivlGivesQuotientAndRemainder : Reg.partner (.g 0) = some (.g 1) ∧
    Reg.home start.flag.p (.g 0) = some (.g 0) ∧ Reg.home start.flag.p (.g 1) = some (.g 1) ∧
    operand (withG start 0 2) (.imm 3) = .ok 3 ∧ ((withG start 0 2).get (.g 1)).toNat < (3 : Word).toNat := by decide
theorem witness_DivlOverflowIsRefused : Reg.partner (.g 0) = some (.g 1) ∧
    Reg.home start.flag.p (.g 0) = some (.g 0) ∧ Reg.home start.flag.p (.g 1) = some (.g 1) ∧
    operand (withG start 0 3) (.imm 3) = .ok 3 ∧ (3 : Word) ≠ 0 ∧
    (3 : Word).toNat ≤ ((withG start 0 3).get (.g 1)).toNat := by decide
theorem witness_LeftShiftsMultiply : Reg.home start.flag.p (.g 0) = some (.g 0) ∧
    operand start (.imm4 0) = .ok 0 ∧ operand start (.imm 1) = .ok 1 ∧ operand start (.imm 15) = .ok 15 ∧
    (15 : Word).toNat < 16 := by decide
theorem witness_RightShiftsDivide : Reg.home start.flag.p (.g 0) = some (.g 0) ∧
    operand start (.imm4 0) = .ok 0 ∧ operand start (.imm 1) = .ok 1 ∧ operand start (.imm 15) = .ok 15 ∧
    (15 : Word).toNat < 16 := by decide
theorem witness_LargeShiftsGoOn : Reg.home start.flag.p (.g 0) = some (.g 0) ∧
    operand start (.imm 16) = .ok 16 ∧ 16 ≤ (16 : Word).toNat ∧ operand start (.imm4 0xF) = .ok 0xFFFF ∧
    16 ≤ (0xFFFF : Word).toNat := by decide
theorem witness_JumpsGoByTheirConditions : targetAddress start (.direct 0x0200) = .ok 0x0200 := by decide
theorem witness_CallPushesTheReturnAddress : targetAddress start (.direct 0x0200) = .ok 0x0200 ∧
    WordStore start (start.sp - 2) 0xEFFE := by unfold WordStore; decide
theorem witness_PushStoresBelowSp : Reg.home start.flag.p .fp = some .fp ∧ Home.fp ≠ start.spHome ∧
    WordStore start (start.sp - 2) 0xEFFE := by unfold WordStore; decide

theorem witness_PopAndRetLoadFromSp : Reg.home start.flag.p .usp = some .usp ∧ Home.usp ≠ start.spHome ∧
    loadWord start start.sp = .ok 0 := by decide
theorem witness_StackUndoesItself : WordStore start (start.sp - 2) 0xEFFE ∧
    Reg.home start.flag.p (.g 5) = some (.g 5) ∧ Reg.home start.flag.p (.g 6) = some (.g 6) ∧
    Home.g 5 ≠ start.spHome ∧ Home.g 6 ≠ start.spHome ∧ targetAddress start (.direct 0x0200) = .ok 0x0200 := by
  unfold WordStore; decide

/-- An odd SP; with a limit of 1000h an SP whose push, whose pop and whose second read alone is at the limit. -/
theorem witness_StackAccessFaultsTrap :
    (let s := start.put 0xEFFD .ssp
     s.sp[0] = true ∧ Reg.home s.flag.p .usp = some .usp ∧ Home.usp ≠ s.spHome ∧
      targetAddress s (.direct 0x0200) = .ok 0x0200) ∧
    (relocated.flag.p = false ∧ relocated.mmu.en = true ∧ Reg.home relocated.flag.p (.g 5) = some (.g 5) ∧
      Home.g 5 ≠ relocated.spHome) ∧
    (let s := relocated.put 0x1002 .usp
     s.sp[0] = false ∧ s.mmu.limit.toNat ≤ (s.sp - 2).toNat) ∧
    (let s := relocated.put 0x1000 .usp
     s.sp[0] = false ∧ s.mmu.limit.toNat ≤ s.sp.toNat) ∧
    (let s := relocated.put 0x0FFE .usp
     s.sp[0] = false ∧ s.sp.toNat < s.mmu.limit.toNat ∧ s.mmu.limit.toNat ≤ (s.sp + 2).toNat) := by decide

/-- A word access in privileged mode; a byte access at an odd and at an even address in user mode with I = 1. -/
theorem witness_InReadsThePort : start.flag.p = true ∧ Reg.home start.flag.p (.g 0) = some (.g 0) ∧
    ioAddress start (.direct 0x001E) = .ok 0x1E ∧ IoEA.isWord (.direct 0x001E) = true ∧ (0x1E : BitVec 8)[0] = false ∧
    ([0x1F, 0x1E] : List (BitVec 8)).all (fun a =>
      let s := withG (withFlag start 0x0020) 0 (a.zeroExtend 16)
      decide (s.flag.i = true ∧ ioAddress s (.byteIndirect (.g 1)) = .ok a ∧
        IoEA.isWord (.byteIndirect (.g 1)) = false)) = true := by decide
theorem witness_OutWritesThePort : start.flag.p = true ∧ Reg.home start.flag.p (.g 0) = some (.g 0) ∧
    ioAddress start (.direct 0x0004) = .ok 0x04 ∧ IoEA.isWord (.direct 0x0004) = true ∧ (0x04 : BitVec 8)[0] = false ∧
    (let s := withG (withFlag start 0x0020) 0 0x0009
     s.flag.i = true ∧ ioAddress s (.byteIndirect (.g 1)) = .ok 0x09 ∧ IoEA.isWord (.byteIndirect (.g 1)) = false) := by
  decide
theorem witness_FixedPortBitsReadAsTheSpecSays :
    0x38 ≤ (0x38 : BitVec 8).toNat ∧ (0xEF : BitVec 8).toNat ≤ 0xEF := by decide

end Sys2Proof.Tests
end

section
/-! PROOFS. The I/O space (spec/20_memory.md section 4): what no instruction but IN and OUT changes, what IN and OUT leave
unchanged, and its rows of two cells. -/

namespace Sys2Proof.Machine

/-! ## The operations leave the I/O space alone -/

@[simp] theorem sameIo_refl (s : State) : SameIo s s := ⟨rfl, rfl, rfl⟩

theorem SameIo.trans {s t u : State} (h : SameIo s t) (h' : SameIo t u) : SameIo s u := by
  obtain ⟨hmmu, hdev, hlog⟩ := h
  obtain ⟨hmmu', hdev', hlog'⟩ := h'
  exact ⟨hmmu'.trans hmmu, hdev'.trans hdev, hlog'.trans hlog⟩

@[simp] theorem sameIo_setPc_iff {s t : State} {v : Word} : SameIo s (t.setPc v) ↔ SameIo s t := Iff.rfl

@[simp] theorem sameIo_setFlag_iff {s t : State} {f : Flag} : SameIo s (t.setFlag f) ↔ SameIo s t := Iff.rfl

theorem sameIo_setMem (s : State) (m : Memory) : SameIo s (s.setMem m) := ⟨rfl, rfl, rfl⟩

theorem sameIo_interleave (s : State) (k : BusSlot) : SameIo s (s.interleave k) := sameIo_setMem s _

theorem sameIo_entered (c : Cause) (spc : Word) (s : State) : SameIo s (entered c spc s) := ⟨rfl, rfl, rfl⟩

theorem writeReg_sameIo {s t : State} {r : Reg} {v : Word} (h : writeReg s r v = .ok t) : SameIo s t := by
  obtain ⟨k, -, rfl⟩ := writeReg_ok.1 h
  exact sameIo_put s v k

theorem storeWord_sameIo {s t : State} {a v : Word} (h : storeWord s a v = .ok t) : SameIo s t := by
  obtain ⟨p, -, -, -, rfl⟩ := storeWord_ok.1 h
  exact sameIo_setMem s _

theorem storeByte_sameIo {s t : State} {a : Word} {v : Byte} (h : storeByte s a v = .ok t) : SameIo s t := by
  obtain ⟨p, -, -, rfl⟩ := storeByte_ok.1 h
  exact sameIo_setMem s _

theorem memStore_sameIo {s t : State} {m : MemEA} {v : Word} (h : memStore s m v = .ok t) : SameIo s t := by
  obtain ⟨a, -, ⟨-, hw⟩ | ⟨-, hb⟩⟩ := memStore_ok.1 h
  · exact storeWord_sameIo hw
  · exact storeByte_sameIo hb

theorem pushWord_sameIo {s t : State} {v : Word} (h : pushWord s v = .ok t) : SameIo s t := by
  obtain ⟨u, hu, rfl⟩ := pushWord_ok.1 h
  exact (storeWord_sameIo hu).trans (sameIo_put u _ _)

theorem popWord_sameIo {s t : State} {v : Word} (h : popWord s = .ok (v, t)) : SameIo s t := by
  obtain ⟨-, rfl⟩ := popWord_ok.1 h
  exact sameIo_put s _ _

theorem returnFromTrap_sameIo {s t : State} (h : returnFromTrap s = .ok t) : SameIo s t := by
  obtain ⟨⟨f, s1⟩, hf, h⟩ := except_bind_ok.1 h
  obtain ⟨⟨pc, s2⟩, hpc, h⟩ := except_bind_ok.1 h
  obtain rfl := Except.ok.inj h
  simpa using ((popWord_sameIo hf).trans (sameIo_interleave s1 _)).trans (popWord_sameIo hpc)

theorem enterTrap_sameIo {s t : State} {c : Cause} {spc : Word} (h : enterTrap c spc s = .next t) : SameIo s t := by
  obtain ⟨-, rfl⟩ := enterTrap_next.1 h
  exact sameIo_entered c spc s

/-! ## The shapes of meanings leave the I/O space alone -/

/-- An exception's entry leaves the I/O space alone, so what an instruction's own steps do decides. -/
theorem conclude_sameIo {s t : State} {npc : Word} {x : Except Stop State} (h : conclude s npc x = .next t)
    (hx : x = .ok t → SameIo s t) : SameIo s t := by
  rcases conclude_next.1 h with hok | ⟨c, -, htrap⟩
  · exact hx hok
  · exact enterTrap_sameIo htrap

theorem aluInto_sameIo {f : Word → Word → Except Stop AluResult} {rd : Reg} {ea : EA} {s t : State}
    (h : aluInto f rd ea s = .next t) : SameIo s t := by
  rcases aluInto_next h with ⟨k, b, r, -, -, -, rfl⟩ | ⟨c, htrap⟩
  · obtain ⟨-, -, -, hio, -⟩ := intoReg_frame s k r (s.npc (EA.bytes ea))
    exact hio
  · exact enterTrap_sameIo htrap

theorem aluIntoPair_sameIo {f : Word → Word → Word → Except Stop PairResult} {rd : Reg} {ea : EA} {s t : State}
    (h : aluIntoPair f rd ea s = .next t) : SameIo s t := by
  rcases aluIntoPair_next h with ⟨rd', k, k', b, r, -, -, -, -, -, rfl⟩ | ⟨c, htrap⟩
  · obtain ⟨-, -, -, hio, -⟩ := intoPair_frame s k k' r (s.npc (EA.bytes ea))
    exact hio
  · exact enterTrap_sameIo htrap

theorem jumpIf_sameIo {cond : Bool} {tgt : Target} {s t : State} (h : jumpIf cond tgt s = .next t) : SameIo s t := by
  obtain ⟨x, -, rfl⟩ := jumpIf_next h
  simp

/-! ## The instructions of no shared shape -/

theorem execNo_sameIo {s t : State} (h : execNo s = .next t) : SameIo s t :=
  conclude_sameIo h fun hx => by
    obtain rfl := Except.ok.inj hx
    simp

theorem execLd_sameIo {rd : Reg} {ea : EA} {s t : State} (h : execLd rd ea s = .next t) : SameIo s t :=
  conclude_sameIo h fun hx => by
    obtain ⟨v, -, hx⟩ := except_bind_ok.1 hx
    obtain ⟨u, hu, hx⟩ := except_bind_ok.1 hx
    obtain rfl := Except.ok.inj hx
    simpa using writeReg_sameIo hu

theorem execLdFlag_sameIo {rd : Reg} {s t : State} (h : execLdFlag rd s = .next t) : SameIo s t :=
  conclude_sameIo h fun hx => by
    obtain ⟨u, hu, hx⟩ := except_bind_ok.1 hx
    obtain rfl := Except.ok.inj hx
    simpa using writeReg_sameIo hu

theorem execSt_sameIo {rd : Reg} {m : MemEA} {s t : State} (h : execSt rd m s = .next t) : SameIo s t :=
  conclude_sameIo h fun hx => by
    obtain ⟨v, -, hx⟩ := except_bind_ok.1 hx
    obtain ⟨u, hu, hx⟩ := except_bind_ok.1 hx
    obtain rfl := Except.ok.inj hx
    simpa using memStore_sameIo hu

theorem execCmp_sameIo {rd : Reg} {ea : EA} {s t : State} (h : execCmp rd ea s = .next t) : SameIo s t :=
  conclude_sameIo h fun hx => by
    obtain ⟨a, -, hx⟩ := except_bind_ok.1 hx
    obtain ⟨b, -, hx⟩ := except_bind_ok.1 hx
    obtain rfl := Except.ok.inj hx
    simp

theorem execCall_sameIo {tgt : Target} {s t : State} (h : execCall tgt s = .next t) : SameIo s t :=
  conclude_sameIo h fun hx => by
    obtain ⟨a, -, hx⟩ := except_bind_ok.1 hx
    obtain ⟨u, hu, hx⟩ := except_bind_ok.1 hx
    obtain rfl := Except.ok.inj hx
    simpa using pushWord_sameIo hu

theorem execPush_sameIo {rd : Reg} {s t : State} (h : execPush rd s = .next t) : SameIo s t :=
  conclude_sameIo h fun hx => by
    obtain ⟨-, -, hx⟩ := except_bind_ok.1 hx
    obtain ⟨v, -, hx⟩ := except_bind_ok.1 hx
    obtain ⟨u, hu, hx⟩ := except_bind_ok.1 hx
    obtain rfl := Except.ok.inj hx
    simpa using pushWord_sameIo hu

theorem execPop_sameIo {rd : Reg} {s t : State} (h : execPop rd s = .next t) : SameIo s t :=
  conclude_sameIo h fun hx => by
    obtain ⟨-, -, hx⟩ := except_bind_ok.1 hx
    obtain ⟨⟨v, u⟩, hu, hx⟩ := except_bind_ok.1 hx
    obtain ⟨w, hw, hx⟩ := except_bind_ok.1 hx
    obtain rfl := Except.ok.inj hx
    simpa using (popWord_sameIo hu).trans (writeReg_sameIo hw)

theorem execRet_sameIo {s t : State} (h : execRet s = .next t) : SameIo s t :=
  conclude_sameIo h fun hx => by
    obtain ⟨⟨v, u⟩, hu, hx⟩ := except_bind_ok.1 hx
    obtain rfl := Except.ok.inj hx
    simpa using popWord_sameIo hu

theorem execEi_sameIo {s t : State} (h : execEi s = .next t) : SameIo s t :=
  conclude_sameIo h fun hx => by
    obtain ⟨-, -, hx⟩ := except_bind_ok.1 hx
    obtain rfl := Except.ok.inj hx
    simp

theorem execDi_sameIo {s t : State} (h : execDi s = .next t) : SameIo s t :=
  conclude_sameIo h fun hx => by
    obtain ⟨-, -, hx⟩ := except_bind_ok.1 hx
    obtain rfl := Except.ok.inj hx
    simp

theorem execHalt_sameIo {s t : State} (h : execHalt s = .next t) : SameIo s t :=
  conclude_sameIo h fun hx => by
    obtain ⟨-, -, hx⟩ := except_bind_ok.1 hx
    obtain rfl := Except.ok.inj hx
    exact ⟨rfl, rfl, rfl⟩

/-- Only IN and OUT change the I/O space (spec/20_memory.md R73). -/
theorem exec_sameIo {i : Instr} {s t : State} (h : exec i s = .next t) (hi : ∀ rd p, i ≠ .inp rd p ∧ i ≠ .out rd p) :
    SameIo s t := by
  cases i with
  | no => exact execNo_sameIo h
  | ld rd ea => exact execLd_sameIo h
  | ldFlag rd => exact execLdFlag_sameIo h
  | st rd m => exact execSt_sameIo h
  | cmp rd ea => exact execCmp_sameIo h
  | add rd ea | sub rd ea | and rd ea | or rd ea | xor rd ea | adds rd ea | mul rd ea | div rd ea | mod rd ea
  | shla rd ea | shll rd ea | shra rd ea | shrl rd ea => exact aluInto_sameIo h
  | mull rd ea | divl rd ea => exact aluIntoPair_sameIo h
  | jz tgt | jc tgt | jm tgt | jo tgt | jgt tgt | jge tgt | jle tgt | jlt tgt | jnz tgt | jnc tgt | jnm tgt | jno tgt
  | jhi tgt | jls tgt | jmp tgt => exact jumpIf_sameIo h
  | call tgt => exact execCall_sameIo h
  | inp rd p => exact absurd rfl (hi rd p).1
  | out rd p => exact absurd rfl (hi rd p).2
  | push rd => exact execPush_sameIo h
  | pop rd => exact execPop_sameIo h
  | ret => exact execRet_sameIo h
  | reti => exact conclude_sameIo h returnFromTrap_sameIo
  | ei => exact execEi_sameIo h
  | di => exact execDi_sameIo h
  | svc => exact enterTrap_sameIo h
  | halt => exact execHalt_sameIo h

/-! ## Steps that raise no exception -/

/-- The steps end well or have no meaning, but raise no exception. -/
def NoTrap {α : Type} (x : Except Stop α) : Prop := ∀ c, x ≠ .error (.trap c)

theorem noTrap_ok {α : Type} (a : α) : NoTrap (.ok a : Except Stop α) := fun _ => nofun

theorem noTrap_refuse {α : Type} (r : Refusal) : NoTrap (.error (.refuse r) : Except Stop α) := fun _ => nofun

theorem NoTrap.bind {α β : Type} {x : Except Stop α} {f : α → Except Stop β} (hx : NoTrap x) (hf : ∀ a, NoTrap (f a)) :
    NoTrap (x >>= f) := by
  cases x with
  | ok a => exact hf a
  | error e => exact fun c h => hx c (congrArg Except.error (Except.error.inj h))

theorem NoTrap.map {α β : Type} {x : Except Stop α} (hx : NoTrap x) (f : α → β) : NoTrap (x.map f) := by
  cases x with
  | ok a => exact noTrap_ok (f a)
  | error e => exact fun c h => hx c (congrArg Except.error (Except.error.inj h))

theorem noTrap_readReg (s : State) (r : Reg) : NoTrap (readReg s r) := by
  unfold readReg
  split
  · exact noTrap_ok _
  · exact noTrap_refuse _

theorem noTrap_writeReg (s : State) (r : Reg) (v : Word) : NoTrap (writeReg s r v) := by
  unfold writeReg
  split
  · exact noTrap_ok _
  · exact noTrap_refuse _

theorem noTrap_ioAddress (s : State) (p : IoEA) : NoTrap (ioAddress s p) := by
  cases p with
  | direct dsp => exact noTrap_ok _
  | indirect rx | byteIndirect rx => exact (noTrap_readReg s rx).map _

theorem noTrap_ioReadWord (s : State) (a : BitVec 8) : NoTrap (ioReadWord s a) := by
  unfold ioReadWord
  split
  · exact noTrap_refuse _
  · exact noTrap_ok _

theorem noTrap_ioWriteWord (s : State) (a : BitVec 8) (v : Word) : NoTrap (ioWriteWord s a v) := by
  unfold ioWriteWord
  split
  · exact noTrap_refuse _
  · exact noTrap_ok _

theorem noTrap_portIn (s : State) (a : BitVec 8) (p : IoEA) : NoTrap (portIn s a p) := by
  cases p with
  | direct dsp | indirect rx => exact noTrap_ioReadWord s a
  | byteIndirect rx => exact noTrap_ok _

theorem noTrap_portOut (s : State) (a : BitVec 8) (v : Word) (p : IoEA) : NoTrap (portOut s a v p) := by
  cases p with
  | direct dsp | indirect rx => exact noTrap_ioWriteWord s a v
  | byteIndirect rx => exact noTrap_ok _

theorem needIoPrivilege_ok {s : State} : needIoPrivilege s = .ok () ↔ s.flag.p = true ∨ s.flag.i = true := by
  rw [needIoPrivilege, ← Bool.or_eq_true]
  split <;> simp [*]

theorem noTrap_needIoPrivilege {s : State} (h : s.flag.p = true ∨ s.flag.i = true) : NoTrap (needIoPrivilege s) :=
  needIoPrivilege_ok.2 h ▸ noTrap_ok ()

/-- Steps that raise no exception end in the instruction's own next state. -/
theorem conclude_next_of_noTrap {s t : State} {npc : Word} {x : Except Stop State} (hx : NoTrap x) :
    conclude s npc x = .next t ↔ x = .ok t := by
  rw [conclude_next, or_iff_left]
  rintro ⟨c, hc, -⟩
  exact hx c hc

/-! ## IN and OUT leave memory alone -/

theorem portOut_mem {s t : State} {a : BitVec 8} {v : Word} {p : IoEA} (h : portOut s a v p = .ok t) : t.mem = s.mem := by
  cases p with
  | direct dsp | indirect rx =>
    obtain ⟨-, rfl⟩ := ioWriteWord_ok.1 h
    simp
  | byteIndirect rx =>
    obtain rfl := Except.ok.inj h
    simp [ioWriteByte]

/-- An IN that P or I allows raises no exception; it writes a register and PC. -/
theorem execIn_sameMem {rd : Reg} {p : IoEA} {s t : State} (ha : s.flag.p = true ∨ s.flag.i = true)
    (h : execIn rd p s = .next t) : SameMem s t := by
  have hx := (conclude_next_of_noTrap <|
    (noTrap_needIoPrivilege ha).bind fun _ =>
    (noTrap_ioAddress s p).bind fun a =>
    (noTrap_portIn s a p).bind fun v =>
    (noTrap_writeReg s rd v).bind fun _ => noTrap_ok _).1 h
  obtain ⟨-, -, hx⟩ := except_bind_ok.1 hx
  obtain ⟨a, -, hx⟩ := except_bind_ok.1 hx
  obtain ⟨v, -, hx⟩ := except_bind_ok.1 hx
  obtain ⟨u, hu, hx⟩ := except_bind_ok.1 hx
  obtain rfl := Except.ok.inj hx
  obtain ⟨k, -, rfl⟩ := writeReg_ok.1 hu
  exact sameMem_put s v k

/-- An OUT that P or I allows raises no exception; it writes ports, the record and PC. -/
theorem execOut_sameMem {rd : Reg} {p : IoEA} {s t : State} (ha : s.flag.p = true ∨ s.flag.i = true)
    (h : execOut rd p s = .next t) : SameMem s t := by
  have hx := (conclude_next_of_noTrap <|
    (noTrap_needIoPrivilege ha).bind fun _ =>
    (noTrap_ioAddress s p).bind fun a =>
    (noTrap_readReg s rd).bind fun v =>
    (noTrap_portOut s a v p).bind fun _ => noTrap_ok _).1 h
  obtain ⟨-, -, hx⟩ := except_bind_ok.1 hx
  obtain ⟨a, -, hx⟩ := except_bind_ok.1 hx
  obtain ⟨v, -, hx⟩ := except_bind_ok.1 hx
  obtain ⟨u, hu, hx⟩ := except_bind_ok.1 hx
  obtain rfl := Except.ok.inj hx
  intro b
  rw [State.setPc_mem, portOut_mem hu]

/-! ## Rows of two cells -/

/-- A row is named by either of its two addresses. -/
theorem portRow_congr (s : State) {a b : BitVec 8} (h : a.toNat / 2 = b.toNat / 2) : portRow s a = portRow s b := by
  unfold portRow
  rw [h]

theorem bit0_eq_false_iff_even (a : BitVec 8) : a[0] = false ↔ a.toNat % 2 = 0 := by
  rw [BitVec.getElem_eq_testBit_toNat, Nat.testBit_zero]
  simp

theorem succ_odd_of_even {a : BitVec 8} (h : a[0] = false) : (a + 1)[0] = true := by
  rw [← Bool.not_eq_false, bit0_eq_false_iff_even]
  rw [bit0_eq_false_iff_even] at h
  bv_omega

theorem portRow_succ_of_even (s : State) {a : BitVec 8} (h : a[0] = false) : portRow s (a + 1) = portRow s a := by
  rw [bit0_eq_false_iff_even] at h
  exact portRow_congr s (by bv_omega)

/-- A row's word is its two cells' bytes, the even address's byte high (D1, D22). -/
theorem portRow_eq_cells (s : State) {a : BitVec 8} (h : a[0] = false) :
    portRow s a = ioReadByte s a ++ ioReadByte s (a + 1) := by
  have hi : ioReadByte s a = hiByte (portRow s a) := by rw [ioReadByte, if_neg (by simp [h])]
  have lo : ioReadByte s (a + 1) = loByte (portRow s a) := by
    rw [ioReadByte, if_pos (succ_odd_of_even h), portRow_succ_of_even s h]
  rw [hi, lo]
  exact (joinBytes_hiByte_loByte _).symm

/-- Settles O24: the arms of `exec` one by one, the steps of IN and OUT without the exception's entry, and a row read by
its cells. -/
theorem ioSpaceChangesOnlyByInAndOut : Obligations.IoSpaceChangesOnlyByInAndOut := by
  unfold Obligations.IoSpaceChangesOnlyByInAndOut
  refine ⟨fun i s t h hi => exec_sameIo h hi, fun rd p s t ha h => ?_,
    fun s a ha => ⟨portRow_succ_of_even s ha, portRow_eq_cells s ha⟩⟩
  rcases h with hin | hout
  · exact execIn_sameMem ha hin
  · exact execOut_sameMem ha hout

end Sys2Proof.Machine
end

section
/-! PROOFS. The encoding (spec/30_encoding.md): the words of the one-word instructions without an EA operand, and what the
operand forms yield. -/

namespace Sys2Proof

/-! ## Words that decode -/

/-- Words decode to an instruction exactly when their OP is not blank, the OP map gives it and no register restriction
forbids it. -/
theorem decodeWords_ok {w1 w2 : Word} {i : Instr} :
    decodeWords w1 w2 = .ok i ↔ opDefined w1 = true ∧ parseWords w1 w2 = .ok i ∧ i.wellFormed = true := by
  unfold decodeWords
  split
  next hop => simp [Machine.except_bind_ok', checkRegisters_ok, hop]
  next hop => simp [hop]

/-- Format (*8) with 0h in its low field. -/
@[simp] theorem decodeRd_firstWord (op : BitVec 8) (rd : Reg) (k : Reg → Instr) :
    decodeRd (firstWord op rd.field 0) k = .ok (k rd) := by
  simp [decodeRd, zeroField_ok]

/-- Format (*9) with 0h in both of its fields. -/
@[simp] theorem decodeBare_firstWord (op : BitVec 8) (i : Instr) : decodeBare (firstWord op 0 0) i = .ok i := by
  simp [decodeBare_ok]

/-- An OP whose cell of the map is a format (*9) instruction. -/
theorem decodeWords_bare {op : BitVec 8} {w2 : Word} {i : Instr} (hop : opDefined (firstWord op 0 0) = true)
    (hcell : parseWords (firstWord op 0 0) w2 = decodeBare (firstWord op 0 0) i) (hi : i.wellFormed = true) :
    decodeWords (firstWord op 0 0) w2 = .ok i :=
  decodeWords_ok.2 ⟨hop, hcell.trans (decodeBare_firstWord op i), hi⟩

/-- An OP whose cell of the map is a format (*8) instruction with no register restriction but that on number Fh. -/
theorem decodeWords_rd {op : BitVec 8} {rd : Reg} {w2 : Word} {k : Reg → Instr} (hop : opDefined (firstWord op 0 0) = true)
    (hcell : parseWords (firstWord op rd.field 0) w2 = decodeRd (firstWord op rd.field 0) k)
    (hk : (k rd).wellFormed = rd.named) (hrd : rd ≠ .pc) :
    decodeWords (firstWord op rd.field 0) w2 = .ok (k rd) :=
  decodeWords_ok.2 ⟨(Laws.opDefined_firstWord op rd.field 0).trans hop, hcell.trans (decodeRd_firstWord op rd k),
    hk.trans (decide_eq_true hrd)⟩

/-- Settles O6: the OP map's cell of each word, by its row and column, is a format without an operand. -/
theorem writtenOutWordsDecode : Obligations.WrittenOutWordsDecode := by
  unfold Obligations.WrittenOutWordsDecode
  intro w2
  refine ⟨?no, ?ret, ?reti, ?ei, ?di, ?svc, ?halt, fun rd hrd => ?rd⟩
  case no => exact decodeWords_bare (op := 0x00) (by decide) rfl rfl
  case ret => exact decodeWords_bare (op := 0xD0) (by decide) rfl rfl
  case reti => exact decodeWords_bare (op := 0xD4) (by decide) rfl rfl
  case ei => exact decodeWords_bare (op := 0xE0) (by decide) rfl rfl
  case di => exact decodeWords_bare (op := 0xE4) (by decide) rfl rfl
  case svc => exact decodeWords_bare (op := 0xF0) (by decide) rfl rfl
  case halt => exact decodeWords_bare (op := 0xFF) (by decide) rfl rfl
  case rd =>
    have hwf : (rd.named && true) = rd.named := Bool.and_true _
    refine ⟨?ldFlag, ?push, ?pop⟩
    case ldFlag => exact decodeWords_rd (op := 0x14) (by decide) (by simp [parseWords]) hwf hrd
    case push => exact decodeWords_rd (op := 0xC0) (by decide) (by simp [parseWords]) hwf hrd
    case pop => exact decodeWords_rd (op := 0xC4) (by decide) (by simp [parseWords]) hwf hrd

end Sys2Proof

namespace Sys2Proof.Machine

/-! ## What the operand forms yield -/

/-- A form that moves a word loads it at the form's address. -/
theorem operand_of_isWord {s : State} {m : MemEA} {a : Word} (hw : MemEA.isWord m = true)
    (ha : memAddress s m = .ok a) : operand s (.mem m) = loadWord s a := by
  rw [operand, memOperand, ha]
  cases m with
  | direct d | indexed d rx | fpRel d4 | indirect rx => rfl
  | byteIndirect rx => cases hw

/-- Settles O27: the word at the form's address for the two memory forms, the sign extension for the 4-bit immediate. -/
theorem operandFormsYieldTheirOperands : Obligations.OperandFormsYieldTheirOperands := by
  unfold Obligations.OperandFormsYieldTheirOperands
  intro s
  refine ⟨fun d => ?direct, fun v => ?imm, fun rs => ?reg, fun i4 => ?imm4, fun rx x hx => ?indirect⟩
  case direct => exact ⟨rfl, operand_of_isWord rfl rfl⟩
  case imm => rfl
  case reg => rfl
  case imm4 => exact ⟨i4.signExtend 16, BitVec.toInt_signExtend_of_le (by decide), rfl⟩
  case indirect => exact ⟨hx, operand_of_isWord rfl hx⟩

end Sys2Proof.Machine
end

section
/-! PROOFS. What an instruction can do, said once (`exec_next`), and what follows for whole steps: the form of memory, the
mode, and the confinement of user mode (spec/60_exceptions.md section 6). -/

namespace Sys2Proof.Machine

/-! ## The effect of an instruction -/

/-- Memory after at most one store of the CPU's, at a logical address that the MMU lets through. -/
inductive OneStore (s : State) : Memory → Prop where
  | none : OneStore s s.mem
  | byte {a p : Word} (h : physical s a = .ok p) (v : Byte) : OneStore s (Memory.write s.mem p.toNat v)
  | word {a p : Word} (h : physical s a = .ok p) (v : Word) : OneStore s (Memory.writeWord s.mem p v)

/-- What an instruction other than RETI does in either mode, where it raises no exception. -/
structure Ordinary (s t : State) : Prop where
  mode : SameMode s t
  run : SameRun s t
  ssp : s.flag.p = false → t.ssp = s.ssp
  io : s.flag.p = false → s.flag.i = false → SameIo s t
  mem : OneStore s t.mem

/-- What EI, DI and HALT do: they need privileged mode, and leave P, I and memory. -/
structure PrivilegedEffect (s t : State) : Prop where
  privileged : s.flag.p = true
  p : t.flag.p = s.flag.p
  i : t.flag.i = s.flag.i
  mem : t.mem = s.mem

/-- The ways in which an instruction can answer a next state. -/
inductive Effect (i : Instr) (s t : State) : Prop where
  | trap {c : Cause} {spc : Word} (h : enterTrap c spc s = .next t)
  | ordinary (h : Ordinary s t)
  | privileged (h : PrivilegedEffect s t)
  | reti (hi : i = .reti) (h : returnFromTrap s = .ok t)

/-! ## Ordinary effects, one by one -/

theorem ordinary_refl (s : State) : Ordinary s s :=
  ⟨⟨rfl, rfl, rfl⟩, ⟨rfl, rfl, rfl⟩, fun _ => rfl, fun _ _ => sameIo_refl s, .none⟩

theorem Ordinary.setPc {s t : State} (h : Ordinary s t) (v : Word) : Ordinary s (t.setPc v) :=
  ⟨h.mode, h.run, h.ssp, h.io, h.mem⟩

theorem Ordinary.withResult {s t : State} (h : Ordinary s t) (r : AluResult) :
    Ordinary s (t.setFlag (s.flag.withResult r)) :=
  ⟨⟨rfl, rfl, rfl⟩, h.run, h.ssp, h.io, h.mem⟩

theorem Ordinary.put {s t : State} (h : Ordinary s t) (v : Word) {k : Home} (hk : s.flag.p = false → k ≠ .ssp) :
    Ordinary s (t.put v k) where
  mode := by simpa [SameMode] using h.mode
  run := by simpa [SameRun] using h.run
  ssp hp := (State.get_put_ne t v (hk hp).symm : (t.put v k).get .ssp = t.get .ssp).trans (h.ssp hp)
  io hp hi := (h.io hp hi).trans (sameIo_put t v k)
  mem := by simpa using h.mem

/-- In user mode no register number leads to SSP (spec/10_state.md R23). -/
theorem home_ne_ssp {s : State} {r : Reg} {k : Home} (hk : Reg.home s.flag.p r = some k) (hp : s.flag.p = false) :
    k ≠ .ssp := by
  rw [hp] at hk
  rintro rfl
  cases r <;> simp [Reg.home] at hk

theorem spHome_ne_ssp {s : State} (hp : s.flag.p = false) : s.spHome ≠ .ssp := home_ne_ssp (home_spHome s) hp

theorem Ordinary.writeReg {s t u : State} (h : Ordinary s t) {r : Reg} {v : Word} (hw : writeReg t r v = .ok u) :
    Ordinary s u := by
  obtain ⟨k, hk, rfl⟩ := writeReg_ok.1 hw
  obtain ⟨-, hp, -⟩ := h.mode
  exact h.put v (home_ne_ssp (hp ▸ hk))

theorem ordinary_setMem {s : State} {m : Memory} (h : OneStore s m) : Ordinary s (s.setMem m) :=
  ⟨⟨rfl, rfl, rfl⟩, ⟨rfl, rfl, rfl⟩, fun _ => rfl, fun _ _ => sameIo_setMem s m, h⟩

theorem storeWord_ordinary {s t : State} {a v : Word} (h : storeWord s a v = .ok t) : Ordinary s t := by
  obtain ⟨p, hp, -, -, rfl⟩ := storeWord_ok.1 h
  exact ordinary_setMem (.word (physicalWord_ok.1 hp).2 v)

theorem storeByte_ordinary {s t : State} {a : Word} {v : Byte} (h : storeByte s a v = .ok t) : Ordinary s t := by
  obtain ⟨p, hp, -, rfl⟩ := storeByte_ok.1 h
  exact ordinary_setMem (.byte hp v)

theorem memStore_ordinary {s t : State} {m : MemEA} {v : Word} (h : memStore s m v = .ok t) : Ordinary s t := by
  obtain ⟨a, -, ⟨-, hw⟩ | ⟨-, hb⟩⟩ := memStore_ok.1 h
  · exact storeWord_ordinary hw
  · exact storeByte_ordinary hb

theorem pushWord_ordinary {s t : State} {v : Word} (h : pushWord s v = .ok t) : Ordinary s t := by
  obtain ⟨u, hu, rfl⟩ := pushWord_ok.1 h
  exact (storeWord_ordinary hu).put _ spHome_ne_ssp

theorem popWord_ordinary {s t : State} {v : Word} (h : popWord s = .ok (v, t)) : Ordinary s t := by
  obtain ⟨-, rfl⟩ := popWord_ok.1 h
  exact (ordinary_refl s).put _ spHome_ne_ssp

/-- What a form writes changes the MMU, the devices and the record alone. -/
theorem portOut_eq {s t : State} {a : BitVec 8} {v : Word} {p : IoEA} (h : portOut s a v p = .ok t) :
    t = { s with mmu := t.mmu, dev := t.dev, ioLog := t.ioLog } := by
  cases p with
  | direct dsp | indirect rx =>
    obtain ⟨-, rfl⟩ := ioWriteWord_ok.1 h
    rw [writeCell_eq, writeCell_eq s]
    rfl
  | byteIndirect rx =>
    obtain rfl := Except.ok.inj h
    rw [ioWriteByte, writeCell_eq]
    rfl

/-- A port write is ordinary where P or I allows it. -/
theorem portOut_ordinary {s t : State} {a : BitVec 8} {v : Word} {p : IoEA} (ha : s.flag.p = true ∨ s.flag.i = true)
    (h : portOut s a v p = .ok t) : Ordinary s t := by
  rw [portOut_eq h]
  exact ⟨⟨rfl, rfl, rfl⟩, ⟨rfl, rfl, rfl⟩, fun _ => rfl, fun hp hi => by simp [hp, hi] at ha, .none⟩

/-! ## The effect of each instruction -/

theorem conclude_effect {i : Instr} {s t : State} {npc : Word} {x : Except Stop State} (h : conclude s npc x = .next t)
    (hx : x = .ok t → Effect i s t) : Effect i s t := by
  rcases conclude_next.1 h with hok | ⟨c, -, htrap⟩
  · exact hx hok
  · exact .trap htrap

theorem aluInto_effect {i : Instr} {f : Word → Word → Except Stop AluResult} {rd : Reg} {ea : EA} {s t : State}
    (h : aluInto f rd ea s = .next t) : Effect i s t := by
  rcases aluInto_next h with ⟨k, b, r, hk, -, -, rfl⟩ | ⟨c, htrap⟩
  · exact .ordinary ((((ordinary_refl s).put _ (home_ne_ssp hk)).withResult r).setPc _)
  · exact .trap htrap

theorem aluIntoPair_effect {i : Instr} {f : Word → Word → Word → Except Stop PairResult} {rd : Reg} {ea : EA}
    {s t : State} (h : aluIntoPair f rd ea s = .next t) : Effect i s t := by
  rcases aluIntoPair_next h with ⟨rd', k, k', b, r, -, hk, hk', -, -, rfl⟩ | ⟨c, htrap⟩
  · exact .ordinary (((((ordinary_refl s).put _ (home_ne_ssp hk)).put _ (home_ne_ssp hk')).withResult r.low).setPc _)
  · exact .trap htrap

theorem jumpIf_effect {i : Instr} {cond : Bool} {tgt : Target} {s t : State} (h : jumpIf cond tgt s = .next t) :
    Effect i s t := by
  obtain ⟨x, -, rfl⟩ := jumpIf_next h
  exact .ordinary ((ordinary_refl s).setPc _)

theorem execNo_effect {i : Instr} {s t : State} (h : execNo s = .next t) : Effect i s t :=
  conclude_effect h fun hx => by
    obtain rfl := Except.ok.inj hx
    exact .ordinary ((ordinary_refl s).setPc _)

theorem execLd_effect {i : Instr} {rd : Reg} {ea : EA} {s t : State} (h : execLd rd ea s = .next t) : Effect i s t :=
  conclude_effect h fun hx => by
    obtain ⟨v, -, hx⟩ := except_bind_ok.1 hx
    obtain ⟨u, hu, hx⟩ := except_bind_ok.1 hx
    obtain rfl := Except.ok.inj hx
    exact .ordinary (((ordinary_refl s).writeReg hu).setPc _)

theorem execLdFlag_effect {i : Instr} {rd : Reg} {s t : State} (h : execLdFlag rd s = .next t) : Effect i s t :=
  conclude_effect h fun hx => by
    obtain ⟨u, hu, hx⟩ := except_bind_ok.1 hx
    obtain rfl := Except.ok.inj hx
    exact .ordinary (((ordinary_refl s).writeReg hu).setPc _)

theorem execSt_effect {i : Instr} {rd : Reg} {m : MemEA} {s t : State} (h : execSt rd m s = .next t) : Effect i s t :=
  conclude_effect h fun hx => by
    obtain ⟨v, -, hx⟩ := except_bind_ok.1 hx
    obtain ⟨u, hu, hx⟩ := except_bind_ok.1 hx
    obtain rfl := Except.ok.inj hx
    exact .ordinary ((memStore_ordinary hu).setPc _)

theorem execCmp_effect {i : Instr} {rd : Reg} {ea : EA} {s t : State} (h : execCmp rd ea s = .next t) : Effect i s t :=
  conclude_effect h fun hx => by
    obtain ⟨a, -, hx⟩ := except_bind_ok.1 hx
    obtain ⟨b, -, hx⟩ := except_bind_ok.1 hx
    obtain rfl := Except.ok.inj hx
    exact .ordinary (((ordinary_refl s).withResult _).setPc _)

theorem execCall_effect {i : Instr} {tgt : Target} {s t : State} (h : execCall tgt s = .next t) : Effect i s t :=
  conclude_effect h fun hx => by
    obtain ⟨a, -, hx⟩ := except_bind_ok.1 hx
    obtain ⟨u, hu, hx⟩ := except_bind_ok.1 hx
    obtain rfl := Except.ok.inj hx
    exact .ordinary ((pushWord_ordinary hu).setPc _)

theorem execPush_effect {i : Instr} {rd : Reg} {s t : State} (h : execPush rd s = .next t) : Effect i s t :=
  conclude_effect h fun hx => by
    obtain ⟨-, -, hx⟩ := except_bind_ok.1 hx
    obtain ⟨v, -, hx⟩ := except_bind_ok.1 hx
    obtain ⟨u, hu, hx⟩ := except_bind_ok.1 hx
    obtain rfl := Except.ok.inj hx
    exact .ordinary ((pushWord_ordinary hu).setPc _)

theorem execPop_effect {i : Instr} {rd : Reg} {s t : State} (h : execPop rd s = .next t) : Effect i s t :=
  conclude_effect h fun hx => by
    obtain ⟨-, -, hx⟩ := except_bind_ok.1 hx
    obtain ⟨⟨v, u⟩, hu, hx⟩ := except_bind_ok.1 hx
    obtain ⟨w, hw, hx⟩ := except_bind_ok.1 hx
    obtain rfl := Except.ok.inj hx
    exact .ordinary (((popWord_ordinary hu).writeReg hw).setPc _)

theorem execRet_effect {i : Instr} {s t : State} (h : execRet s = .next t) : Effect i s t :=
  conclude_effect h fun hx => by
    obtain ⟨⟨v, u⟩, hu, hx⟩ := except_bind_ok.1 hx
    obtain rfl := Except.ok.inj hx
    exact .ordinary ((popWord_ordinary hu).setPc _)

theorem execIn_effect {i : Instr} {rd : Reg} {p : IoEA} {s t : State} (h : execIn rd p s = .next t) : Effect i s t :=
  conclude_effect h fun hx => by
    obtain ⟨-, -, hx⟩ := except_bind_ok.1 hx
    obtain ⟨a, -, hx⟩ := except_bind_ok.1 hx
    obtain ⟨v, -, hx⟩ := except_bind_ok.1 hx
    obtain ⟨u, hu, hx⟩ := except_bind_ok.1 hx
    obtain rfl := Except.ok.inj hx
    exact .ordinary (((ordinary_refl s).writeReg hu).setPc _)

theorem execOut_effect {i : Instr} {rd : Reg} {p : IoEA} {s t : State} (h : execOut rd p s = .next t) : Effect i s t :=
  conclude_effect h fun hx => by
    obtain ⟨_, ha, hx⟩ := except_bind_ok.1 hx
    obtain ⟨a, -, hx⟩ := except_bind_ok.1 hx
    obtain ⟨v, -, hx⟩ := except_bind_ok.1 hx
    obtain ⟨u, hu, hx⟩ := except_bind_ok.1 hx
    obtain rfl := Except.ok.inj hx
    exact .ordinary ((portOut_ordinary (needIoPrivilege_ok.1 ha) hu).setPc _)

theorem needPrivilege_ok {s : State} : needPrivilege s = .ok () ↔ s.flag.p = true := by
  unfold needPrivilege
  split <;> simp [*]

theorem execEi_effect {i : Instr} {s t : State} (h : execEi s = .next t) : Effect i s t :=
  conclude_effect h fun hx => by
    obtain ⟨_, hp, hx⟩ := except_bind_ok.1 hx
    obtain rfl := Except.ok.inj hx
    exact .privileged ⟨needPrivilege_ok.1 hp, rfl, rfl, rfl⟩

theorem execDi_effect {i : Instr} {s t : State} (h : execDi s = .next t) : Effect i s t :=
  conclude_effect h fun hx => by
    obtain ⟨_, hp, hx⟩ := except_bind_ok.1 hx
    obtain rfl := Except.ok.inj hx
    exact .privileged ⟨needPrivilege_ok.1 hp, rfl, rfl, rfl⟩

theorem execHalt_effect {i : Instr} {s t : State} (h : execHalt s = .next t) : Effect i s t :=
  conclude_effect h fun hx => by
    obtain ⟨_, hp, hx⟩ := except_bind_ok.1 hx
    obtain rfl := Except.ok.inj hx
    exact .privileged ⟨needPrivilege_ok.1 hp, rfl, rfl, rfl⟩

/-- What an instruction that answers a next state has done. -/
theorem exec_next {i : Instr} {s t : State} (h : exec i s = .next t) : Effect i s t := by
  cases i with
  | no => exact execNo_effect h
  | ld rd ea => exact execLd_effect h
  | ldFlag rd => exact execLdFlag_effect h
  | st rd m => exact execSt_effect h
  | cmp rd ea => exact execCmp_effect h
  | add rd ea | sub rd ea | and rd ea | or rd ea | xor rd ea | adds rd ea | mul rd ea | div rd ea | mod rd ea
  | shla rd ea | shll rd ea | shra rd ea | shrl rd ea => exact aluInto_effect h
  | mull rd ea | divl rd ea => exact aluIntoPair_effect h
  | jz tgt | jc tgt | jm tgt | jo tgt | jgt tgt | jge tgt | jle tgt | jlt tgt | jnz tgt | jnc tgt | jnm tgt | jno tgt
  | jhi tgt | jls tgt | jmp tgt => exact jumpIf_effect h
  | call tgt => exact execCall_effect h
  | inp rd p => exact execIn_effect h
  | out rd p => exact execOut_effect h
  | push rd => exact execPush_effect h
  | pop rd => exact execPop_effect h
  | ret => exact execRet_effect h
  | reti => exact conclude_effect h (.reti rfl)
  | ei => exact execEi_effect h
  | di => exact execDi_effect h
  | svc => exact .trap h
  | halt => exact execHalt_effect h

/-! ## RETI's own effect -/

/-- The state a return from a trap leads to, where FLAG is popped as `f` and PC as `p`. -/
def returned (s : State) (f p : Word) : State :=
  ((((s.interleave .secondPop).put (s.sp + 4) s.spHome).setFlag (s.flag.restored f)).setPc p)

/-- A load goes by P, the MMU and memory alone. -/
theorem loadWord_congr {s t : State} (hp : t.flag.p = s.flag.p) (hmmu : t.mmu = s.mmu) (hmem : t.mem = s.mem) (a : Word) :
    loadWord t a = loadWord s a := by
  simp only [loadWord, physicalWord, physical, hp, hmmu, hmem]

/-- A return reads two words of the current stack, other agents storing between the two reads. -/
theorem returnFromTrap_eq (s : State) : returnFromTrap s =
    (loadWord s s.sp).bind fun f => (loadWord (s.interleave .secondPop) (s.sp + 2)).map fun p => returned s f p := by
  have hput : (s.put (s.sp + 2) s.spHome).interleave .secondPop = (s.interleave .secondPop).put (s.sp + 2) s.spHome := by
    cases s.spHome <;> rfl
  have hhome : ((s.interleave .secondPop).put (s.sp + 2) s.spHome).spHome = s.spHome := State.spHome_put _ _ _
  have hsp : ((s.interleave .secondPop).put (s.sp + 2) s.spHome).sp = s.sp + 2 := by
    rw [State.sp, hhome, State.get_put_same]
  have hload : loadWord ((s.interleave .secondPop).put (s.sp + 2) s.spHome) (s.sp + 2) =
      loadWord (s.interleave .secondPop) (s.sp + 2) := loadWord_congr (by simp) (by simp) (by simp) _
  simp only [returnFromTrap, popWord, bind, Except.bind]
  cases loadWord s s.sp with
  | error e => rfl
  | ok f =>
    simp only [Except.map, hput, hsp, hload, hhome, State.put_put, BitVec.add_assoc]
    cases loadWord (s.interleave .secondPop) (s.sp + 2) <;> rfl

theorem returnFromTrap_ok {s t : State} : returnFromTrap s = .ok t ↔
    ∃ f p, loadWord s s.sp = .ok f ∧ loadWord (s.interleave .secondPop) (s.sp + 2) = .ok p ∧ returned s f p = t := by
  simp only [returnFromTrap_eq, except_bind_ok', except_map_ok, exists_and_left]

@[simp] theorem returned_mem (s : State) (f p : Word) : (returned s f p).mem = (s.interleave .secondPop).mem := by
  simp [returned]

@[simp] theorem returned_flag (s : State) (f p : Word) : (returned s f p).flag = s.flag.restored f := rfl

theorem restored_privileged {old : Flag} (h : old.p = true) (f : Word) : old.restored f = Flag.ofWord f := by
  simp [Flag.restored, h]

/-- In user mode a return leaves E, P and I (spec/46_stack_return.md R233). -/
theorem restored_user {old : Flag} (h : old.p = false) (f : Word) :
    (old.restored f).e = old.e ∧ (old.restored f).p = old.p ∧ (old.restored f).i = old.i := by
  simp [Flag.restored, h]

theorem sp_privileged {s : State} (h : s.flag.p = true) : s.sp = s.ssp := by simp [State.sp, State.spHome, h, State.get]

/-! ## The form of memory -/

theorem OneStore.wf {s : State} {m : Memory} (hs : s.Inv) (h : OneStore s m) : Memory.wf m = true := by
  cases h with
  | none => exact hs
  | byte _ v => exact Memory.wf_write hs (BitVec.isLt _) v
  | word _ v => exact Memory.wf_writeWord hs _ v

/-- Every instruction keeps the canonical form of memory. -/
theorem exec_inv {i : Instr} {s t : State} (hs : s.Inv) (h : exec i s = .next t) : t.Inv := by
  cases exec_next h with
  | trap htrap =>
    obtain ⟨-, rfl⟩ := enterTrap_next.1 htrap
    exact entered_inv hs _ _
  | ordinary ho => exact ho.mem.wf hs
  | privileged hp => exact (congrArg Memory.wf hp.mem).trans hs
  | reti _ hr =>
    obtain ⟨f, p, -, -, rfl⟩ := returnFromTrap_ok.1 hr
    exact (congrArg Memory.wf (returned_mem s f p)).trans (interleave_inv hs .secondPop)

/-- Settles O3: the devices' move and the fetch keep the form, and so do an instruction and a trap entry. -/
theorem stepKeepsMemoryCanonical : Obligations.StepKeepsMemoryCanonical := by
  unfold Obligations.StepKeepsMemoryCanonical
  intro s t hs h
  rcases step_next h with ⟨i, hi⟩ | ⟨c, spc, htrap⟩
  · exact exec_inv (afterFetch_inv (boundary_inv hs)) hi
  · obtain ⟨-, rfl⟩ := enterTrap_next.1 htrap
    exact entered_inv (boundary_inv hs) c spc

/-! ## The mode -/

/-- A trap entry sets P and leaves I (spec/60_exceptions.md R280). -/
theorem enterTrap_mode {c : Cause} {spc : Word} {s t : State} (h : enterTrap c spc s = .next t) :
    t.flag.p = true ∧ t.flag.i = s.flag.i := by
  obtain ⟨-, rfl⟩ := enterTrap_next.1 h
  exact ⟨rfl, rfl⟩

theorem exec_sets_p {i : Instr} {s t : State} (h : exec i s = .next t) (hs : s.flag.p = false) (ht : t.flag.p = true) :
    ∃ c spc, enterTrap c spc s = .next t := by
  cases exec_next h with
  | trap htrap => exact ⟨_, _, htrap⟩
  | ordinary ho =>
    obtain ⟨-, hp, -⟩ := ho.mode
    simp [hp, hs] at ht
  | privileged hp => simp [hp.p, hs] at ht
  | reti _ hr =>
    obtain ⟨f, p, -, -, rfl⟩ := returnFromTrap_ok.1 hr
    obtain ⟨-, hp, -⟩ := restored_user hs f
    simp [hp, hs] at ht

theorem exec_clears_p {i : Instr} {s t : State} (h : exec i s = .next t) (hs : s.flag.p = true) (ht : t.flag.p = false) :
    i = .reti ∧ ∃ f, loadWord s s.ssp = .ok f ∧ f[6] = false := by
  cases exec_next h with
  | trap htrap =>
    obtain ⟨hp, -⟩ := enterTrap_mode htrap
    simp [hp] at ht
  | ordinary ho =>
    obtain ⟨-, hp, -⟩ := ho.mode
    simp [hp, hs] at ht
  | privileged hp => simp [hp.p, hs] at ht
  | reti hi hr =>
    obtain ⟨f, p, hf, -, rfl⟩ := returnFromTrap_ok.1 hr
    rw [sp_privileged hs] at hf
    rw [returned_flag, restored_privileged hs] at ht
    exact ⟨hi, f, hf, ht⟩

theorem exec_changes_i {i : Instr} {s t : State} (h : exec i s = .next t) (hi : t.flag.i ≠ s.flag.i) :
    i = .reti ∧ s.flag.p = true := by
  cases exec_next h with
  | trap htrap =>
    obtain ⟨-, hsame⟩ := enterTrap_mode htrap
    exact absurd hsame hi
  | ordinary ho =>
    obtain ⟨-, -, hsame⟩ := ho.mode
    exact absurd hsame hi
  | privileged hp => exact absurd hp.i hi
  | reti hreti hr =>
    obtain ⟨f, p, -, -, rfl⟩ := returnFromTrap_ok.1 hr
    refine ⟨hreti, ?_⟩
    by_contra hp
    obtain ⟨-, -, hsame⟩ := restored_user (Bool.eq_false_iff.2 hp) f
    exact hi hsame

/-- Settles O22: by the effects of an instruction; the devices' move and the fetch leave FLAG. -/
theorem modeChangesOnlyByTrapAndReti : Obligations.ModeChangesOnlyByTrapAndReti := by
  unfold Obligations.ModeChangesOnlyByTrapAndReti
  refine ⟨fun i s t h => ⟨exec_sets_p h, exec_clears_p h, exec_changes_i h⟩, fun s t h => ?_⟩
  rcases step_next h with ⟨i, hi⟩ | ⟨c, spc, htrap⟩
  · refine ⟨fun hs ht => ?_, fun hs ht => ?_, fun hne => ?_⟩
    · obtain ⟨c, spc, htrap⟩ := exec_sets_p hi hs ht
      exact ⟨c, spc, _, by simp, htrap⟩
    · obtain ⟨rfl, -⟩ := exec_clears_p hi hs ht
      exact hi
    · obtain ⟨rfl, hp⟩ := exec_changes_i hi hne
      exact ⟨hp, hi⟩
  · obtain ⟨hp, hsame⟩ := enterTrap_mode htrap
    refine ⟨fun _ _ => ⟨c, spc, _, by simp, htrap⟩, fun _ ht => ?_, fun hne => absurd hsame hne⟩
    simp [hp] at ht

/-! ## User mode -/

/-- In user mode with the MMU on, an address that is let through is below the limit and is moved up by the base
(spec/20_memory.md R78). -/
theorem physical_user {s : State} {a p : Word} (hp : s.flag.p = false) (hen : s.mmu.en = true)
    (h : physical s a = .ok p) : a.toNat < s.mmu.limit.toNat ∧ p = a + s.mmu.base := by
  rw [physical, if_pos ⟨hp, hen⟩] at h
  split at h
  · cases h
  · next hlim => exact ⟨by omega, (Except.ok.inj h).symm⟩

/-- In user mode with the MMU on, a store stays in the window that the base and the limit give. -/
theorem OneStore.read_outside {s : State} {m : Memory} (h : OneStore s m) (hp : s.flag.p = false)
    (hen : s.mmu.en = true) {a : Nat}
    (ha : ∀ x : Word, x.toNat < s.mmu.limit.toNat → (x + s.mmu.base).toNat ≠ a ∧ (x + s.mmu.base + 1).toNat ≠ a) :
    Memory.read m a = Memory.read s.mem a := by
  cases h with
  | none => rfl
  | byte hx v =>
    obtain ⟨hlim, rfl⟩ := physical_user hp hen hx
    obtain ⟨h0, -⟩ := ha _ hlim
    rw [Memory.read_write, if_neg h0.symm]
  | word hx v =>
    obtain ⟨hlim, rfl⟩ := physical_user hp hen hx
    obtain ⟨h0, h1⟩ := ha _ hlim
    rw [Memory.read_writeWord, if_neg h1.symm, if_neg h0.symm]

/-- Settles O23: by the effects of an instruction, of which only the ordinary ones and RETI start and end in user mode. -/
theorem userModeIsConfined : Obligations.UserModeIsConfined := by
  unfold Obligations.UserModeIsConfined
  intro i s t h hs ht
  by_cases hi : i = .reti
  case pos =>
    subst hi
    have hr : returnFromTrap s = .ok t := by
      rcases conclude_next.1 h with hr | ⟨c, -, htrap⟩
      · exact hr
      · obtain ⟨hp, -⟩ := enterTrap_mode htrap
        simp [hp] at ht
    obtain ⟨f, p, -, -, rfl⟩ := returnFromTrap_ok.1 hr
    refine ⟨restored_user hs f, ?_, ⟨?_, ?_, ?_⟩, fun _ => returnFromTrap_sameIo hr, fun _ a _ => ?_⟩
    · exact (State.get_put_ne (s.interleave .secondPop) _ (spHome_ne_ssp hs).symm :
        ((s.interleave .secondPop).put _ s.spHome).get .ssp = s.get .ssp)
    · simp [returned]
    · simp [returned]
    · simp [returned]
    · rw [if_pos rfl, returned_mem]
  case neg =>
    cases exec_next h with
    | trap htrap =>
      obtain ⟨hp, -⟩ := enterTrap_mode htrap
      simp [hp] at ht
    | ordinary ho =>
      refine ⟨ho.mode, ho.ssp hs, ho.run, ho.io hs, fun hen a ha => ?_⟩
      rw [if_neg hi]
      exact ho.mem.read_outside hs hen ha
    | privileged hp => simp [hp.privileged] at hs
    | reti hreti _ => exact absurd hreti hi

end Sys2Proof.Machine
end

section
/-! PROOFS. The encoder and the decoder are inverse to each other, and the blank OPs are the undefined ones
(spec/30_encoding.md sections 1 to 3). -/

namespace Sys2Proof

open Sys2Proof.Machine

/-! ## Rows of the OP map -/

/-- The words an instruction of first word `w1` takes, `w2` being the one after it. -/
def wordsOf (w1 w2 : Word) : List Word := if hasSecondWord w1 then [w1, w2] else [w1]

/-- The OP of column 0 of a row whose instructions have an operand form. -/
abbrev RowBase (base : BitVec 8) : Prop := base.toNat % 8 = 0 ∧ 8 ≤ base.toNat ∧ base.toNat < 0xC0

/-- A cell of the map, by its row's OP of column 0 and its column, whose instruction has no second word. -/
abbrev OneWordCell (base k : BitVec 8) : Prop :=
  base.toNat % 8 = 0 ∧ (base = 0 ∨ 0xC0 ≤ base.toNat ∨ 2 < k.toNat)

theorem opColumn_lt (w : Word) : opColumn w < 8 := Nat.mod_lt _ (by decide)

theorem opField_toNat (w : Word) : (opField w).toNat = 8 * opRow w + opColumn w := (Nat.div_add_mod _ 8).symm

theorem opDefined_iff {w : Word} : opDefined w = true ↔ opColumn w ∈ opColumns (opRow w) := by simp [opDefined]

/-- An OP is the base of its row and its column. -/
theorem toNat_base_add {base k : BitVec 8} (hb : base.toNat % 8 = 0) (hk : k.toNat < 8) :
    (base + k).toNat = base.toNat + k.toNat := by
  have := base.isLt
  rw [BitVec.toNat_add]
  omega

theorem opRow_base_add {base k : BitVec 8} (hb : base.toNat % 8 = 0) (hk : k.toNat < 8) (rd rx : BitVec 4) :
    opRow (firstWord (base + k) rd rx) = base.toNat / 8 := by
  rw [opRow_firstWord, toNat_base_add hb hk]
  omega

theorem opColumn_base_add {base k : BitVec 8} (hb : base.toNat % 8 = 0) (hk : k.toNat < 8) (rd rx : BitVec 4) :
    opColumn (firstWord (base + k) rd rx) = k.toNat := by
  rw [opColumn_firstWord, toNat_base_add hb hk]
  omega

/-- A first word by its row, its column and its fields. -/
theorem firstWord_of_cell {base k : BitVec 8} {w : Word} (hb : base.toNat % 8 = 0) (hrow : opRow w = base.toNat / 8)
    (hcol : opColumn w = k.toNat) : firstWord (base + k) (rdField w) (rxField w) = w := by
  have hk : k.toNat < 8 := hcol ▸ opColumn_lt w
  have hop : base + k = opField w := by
    refine BitVec.eq_of_toNat_eq ?_
    rw [toNat_base_add hb hk, opField_toNat]
    omega
  rw [hop, firstWord_fields]

/-- In the rows with operand forms, columns 0 to 2 have a second word (R103). -/
theorem wordsOf_eq {base : BitVec 8} {w1 : Word} (hb : RowBase base) (hrow : opRow w1 = base.toNat / 8) (w2 : Word) :
    wordsOf w1 w2 = if opColumn w1 ≤ 2 then [w1, w2] else [w1] := by
  obtain ⟨-, hlow, hhigh⟩ := hb
  have h1 : 1 ≤ opRow w1 := by omega
  have h2 : opRow w1 ≤ 0x17 := by omega
  simp [wordsOf, hasSecondWord, h1, h2]

/-! ## The decoder on encoded words -/

/-- The words of a list as the decoder takes them. -/
def firstOf (l : List Word) : Word := l.headD 0

def secondOf (l : List Word) : Word := l.getD 1 0

/-- The decoder takes the words of an instruction from its bytes and leaves the bytes after them. -/
theorem decode_bytes {l : List Word} (h : Laws.Shaped l) (rest : List Byte) :
    decode ((l.flatMap fun w => [hiByte w, loByte w]) ++ rest) = (decodeWords (firstOf l) (secondOf l)).map (·, rest) := by
  obtain ⟨w, ws, rfl, hop, hlen⟩ := h
  by_cases h2 : hasSecondWord w = true
  · rw [if_pos h2, List.length_eq_one_iff] at hlen
    obtain ⟨v, rfl⟩ := hlen
    simp [decode, joinBytes_hiByte_loByte, hop, h2, firstOf, secondOf]
  · rw [if_neg h2, List.length_eq_zero_iff] at hlen
    subst hlen
    simp [decode, joinBytes_hiByte_loByte, hop, h2, firstOf, secondOf]

/-- Every instruction has the shape of one (R101, R103). -/
theorem encode_shaped (i : Instr) : Laws.Shaped (encode i) := by
  cases i with
  | ld rd ea | add rd ea | sub rd ea | cmp rd ea | and rd ea | or rd ea | xor rd ea | adds rd ea | mul rd ea | div rd ea
  | mod rd ea | mull rd ea | divl rd ea | shla rd ea | shll rd ea | shra rd ea | shrl rd ea =>
    exact Laws.encodeEA_shape _ (by decide) rd ea
  | st rd m => exact Laws.EncodeShape.st rd m
  | jz t | jc t | jm t | jo t | jgt t | jge t | jle t | jlt t | jnz t | jnc t | jnm t | jno t | jhi t | jls t | jmp t
  | call t => exact Laws.encodeTarget_shape _ (by decide) _ t
  | inp rd p | out rd p => exact Laws.encodeIoEA_shape _ (by decide) rd p
  | no | ldFlag rd | push rd | pop rd | ret | reti | ei | di | svc | halt => exact Laws.shaped_one (by decide) _ _

theorem decodeMemEA_encodeMemEA {base : BitVec 8} (hb : base.toNat % 8 = 0) (rd : BitVec 4) (m : MemEA) :
    let l := encodeMemEA base rd m
    opRow (firstOf l) = base.toNat / 8 ∧ rdField (firstOf l) = rd ∧
      opColumn (firstOf l) ∈ [0, 1, 3, 6, 7] ∧ decodeMemEA (firstOf l) (secondOf l) = .ok m := by
  cases m with
  | direct d =>
    simp [encodeMemEA, firstOf, secondOf, decodeMemEA, zeroField_ok, hb]
  | indexed d rx | fpRel d4 | indirect rx | byteIndirect rx =>
    simp [encodeMemEA, firstOf, secondOf, decodeMemEA, -opRow_firstWord, -opColumn_firstWord,
      opRow_base_add, opColumn_base_add, hb]

theorem decodeEA_encodeEA {base : BitVec 8} (hb : base.toNat % 8 = 0) (rd : Reg) (ea : EA) :
    let l := encodeEA base rd ea
    opRow (firstOf l) = base.toNat / 8 ∧ rdField (firstOf l) = rd.field ∧ decodeEA (firstOf l) (secondOf l) = .ok ea := by
  cases ea with
  | mem m =>
    obtain ⟨hrow, hrd, hcol, hm⟩ := decodeMemEA_encodeMemEA hb rd.field m
    refine ⟨hrow, hrd, ?_⟩
    simp only [List.mem_cons, List.not_mem_nil, or_false] at hcol
    rcases hcol with hcol | hcol | hcol | hcol | hcol <;> simp [decodeEA, encodeEA, hcol, hm, Except.map]
  | imm v =>
    simp [encodeEA, firstOf, secondOf, decodeEA, zeroField_ok, -opRow_firstWord, -opColumn_firstWord,
      opRow_base_add, opColumn_base_add, hb]
  | reg rs | imm4 i4 =>
    simp [encodeEA, firstOf, decodeEA, -opRow_firstWord, -opColumn_firstWord, opRow_base_add, opColumn_base_add, hb]

theorem decodeTarget_encodeTarget {base : BitVec 8} (hb : base.toNat % 8 = 0) (cc : BitVec 4) (t : Target) :
    let l := encodeTarget base cc t
    opRow (firstOf l) = base.toNat / 8 ∧ rdField (firstOf l) = cc ∧ decodeTarget (firstOf l) (secondOf l) = .ok t := by
  cases t with
  | direct d => simp [encodeTarget, firstOf, secondOf, decodeTarget, zeroField_ok, hb]
  | indexed d rx | indirect rx =>
    simp [encodeTarget, firstOf, secondOf, decodeTarget, -opRow_firstWord, -opColumn_firstWord,
      opRow_base_add, opColumn_base_add, hb]

theorem decodeIoEA_encodeIoEA {base : BitVec 8} (hb : base.toNat % 8 = 0) (rd : Reg) (p : IoEA) :
    let l := encodeIoEA base rd p
    opRow (firstOf l) = base.toNat / 8 ∧ rdField (firstOf l) = rd.field ∧ decodeIoEA (firstOf l) (secondOf l) = .ok p := by
  cases p with
  | direct d => simp [encodeIoEA, firstOf, secondOf, decodeIoEA, zeroField_ok, hb]
  | indirect rx | byteIndirect rx =>
    simp [encodeIoEA, firstOf, decodeIoEA, -opRow_firstWord, -opColumn_firstWord, opRow_base_add, opColumn_base_add, hb]

/-! ## Parsing inverts encoding -/

theorem parseWords_encodeEA {base : BitVec 8} {k : Reg → EA → Instr} (hb : base.toNat % 8 = 0)
    (hcell : ∀ w1 w2, opRow w1 = base.toNat / 8 → parseWords w1 w2 = decodeRdEA w1 w2 k) (rd : Reg) (ea : EA) :
    parseWords (firstOf (encodeEA base rd ea)) (secondOf (encodeEA base rd ea)) = .ok (k rd ea) := by
  obtain ⟨hrow, hrd, hea⟩ := decodeEA_encodeEA hb rd ea
  rw [hcell _ _ hrow, decodeRdEA, hea, hrd, Reg.ofField_field]
  rfl

theorem parseWords_encodeTarget {cc : BitVec 4} {t : Target} {i : Instr} (hcc : jumpOfCode cc t = .ok i) :
    parseWords (firstOf (encodeTarget 0xA0 cc t)) (secondOf (encodeTarget 0xA0 cc t)) = .ok i := by
  obtain ⟨hrow, hrd, ht⟩ := decodeTarget_encodeTarget (base := 0xA0) (by decide) cc t
  unfold parseWords
  rw [hrow, ht, hrd]
  exact hcc

theorem parseWords_encodeIoEA {base : BitVec 8} {k : Reg → IoEA → Instr} (hb : base.toNat % 8 = 0)
    (hcell : ∀ w1 w2, opRow w1 = base.toNat / 8 →
      parseWords w1 w2 = (decodeIoEA w1 w2).map (k (Reg.ofField (rdField w1)))) (rd : Reg) (p : IoEA) :
    parseWords (firstOf (encodeIoEA base rd p)) (secondOf (encodeIoEA base rd p)) = .ok (k rd p) := by
  obtain ⟨hrow, hrd, hp⟩ := decodeIoEA_encodeIoEA hb rd p
  rw [hcell _ _ hrow, hp, hrd, Reg.ofField_field]
  rfl

theorem parseWords_encode_st (rd : Reg) (m : MemEA) :
    parseWords (firstOf (encode (.st rd m))) (secondOf (encode (.st rd m))) = .ok (.st rd m) := by
  obtain ⟨hrow, hrd, hcol, hm⟩ := decodeMemEA_encodeMemEA (base := 0x10) (by decide) rd.field m
  have h4 : opColumn (firstOf (encodeMemEA 0x10 rd.field m)) ≠ 4 := fun h => by rw [h] at hcol; simp at hcol
  unfold parseWords encode
  rw [hrow, hm, hrd, Reg.ofField_field]
  exact if_neg h4

theorem parseWords_encode_call (t : Target) :
    parseWords (firstOf (encode (.call t))) (secondOf (encode (.call t))) = .ok (.call t) := by
  obtain ⟨hrow, hrd, ht⟩ := decodeTarget_encodeTarget (base := 0xA8) (by decide) 0 t
  unfold parseWords encode
  rw [hrow, ht, hrd]
  rfl

theorem parseWords_encode (i : Instr) : parseWords (firstOf (encode i)) (secondOf (encode i)) = .ok i := by
  cases i with
  | ld rd ea | add rd ea | sub rd ea | cmp rd ea | and rd ea | or rd ea | xor rd ea | adds rd ea | mul rd ea | div rd ea
  | mod rd ea | mull rd ea | divl rd ea | shla rd ea | shll rd ea | shra rd ea | shrl rd ea =>
    exact parseWords_encodeEA (by decide) (fun w1 w2 h => by unfold parseWords; rw [h]; rfl) rd ea
  | st rd m => exact parseWords_encode_st rd m
  | jz t | jc t | jm t | jo t | jgt t | jge t | jle t | jlt t | jnz t | jnc t | jnm t | jno t | jhi t | jls t | jmp t =>
    exact parseWords_encodeTarget rfl
  | call t => exact parseWords_encode_call t
  | inp rd p | out rd p =>
    exact parseWords_encodeIoEA (by decide) (fun w1 w2 h => by unfold parseWords; rw [h]; rfl) rd p
  | ldFlag rd => simpa [encode, firstOf, parseWords] using decodeRd_firstWord 0x14 rd .ldFlag
  | push rd => simpa [encode, firstOf, parseWords] using decodeRd_firstWord 0xC0 rd .push
  | pop rd => simpa [encode, firstOf, parseWords] using decodeRd_firstWord 0xC4 rd .pop
  | no | ret | reti | ei | di | svc | halt => rfl

/-- Settles O4: the decoder takes the encoding's words from its bytes, and they parse to the instruction. -/
theorem decodeInvertsEncode : Obligations.DecodeInvertsEncode := by
  unfold Obligations.DecodeInvertsEncode
  intro i rest hi
  obtain ⟨w, ws, hw, hop, -⟩ := encode_shaped i
  have hfirst : opDefined (firstOf (encode i)) = true := by rw [hw]; exact hop
  rw [encodeBytes, decode_bytes (encode_shaped i), decodeWords_ok.2 ⟨hfirst, parseWords_encode i, hi⟩]
  rfl

/-! ## Encoding inverts parsing -/

/-- What a part of the decoder answers to words whose OP is not blank: something that `enc` encodes in these words, or an
error other than that of a blank OP. -/
def Sound {α : Type} (enc : α → List Word) (w1 w2 : Word) (x : Except DecodeError α) : Prop :=
  (∀ a, x = .ok a → enc a = wordsOf w1 w2) ∧ x ≠ .error .undefinedOp

section Cells

variable {α β : Type} {enc : α → List Word} {enc' : β → List Word} {base : BitVec 8} {w1 w2 : Word}

theorem sound_ok {a : α} (h : enc a = wordsOf w1 w2) : Sound enc w1 w2 (.ok a) :=
  ⟨fun _ ha => Except.ok.inj ha ▸ h, nofun⟩

theorem sound_error {e : DecodeError} (h : e ≠ .undefinedOp) : Sound enc w1 w2 (.error e) :=
  ⟨nofun, fun he => h (Except.error.inj he)⟩

theorem Sound.bind {x : Except DecodeError α} {f : α → Except DecodeError β} (hx : Sound enc w1 w2 x)
    (hf : ∀ a, enc a = wordsOf w1 w2 → Sound enc' w1 w2 (f a)) : Sound enc' w1 w2 (x.bind f) := by
  obtain ⟨hok, herr⟩ := hx
  cases x with
  | ok a => exact hf a (hok a rfl)
  | error e => exact sound_error fun he => herr (congrArg Except.error he)

theorem Sound.map {x : Except DecodeError α} {f : α → β} (hx : Sound enc w1 w2 x) (hf : ∀ a, enc' (f a) = enc a) :
    Sound enc' w1 w2 (x.map f) := by
  obtain ⟨hok, herr⟩ := hx
  cases x with
  | ok a => exact sound_ok ((hf a).trans (hok a rfl))
  | error e => exact sound_error fun he => herr (congrArg Except.error he)

theorem sound_zeroField {v : BitVec 4} {a : α} (h : v = 0 → enc a = wordsOf w1 w2) :
    Sound enc w1 w2 (zeroField v a) := by
  unfold zeroField
  split
  next hv => exact sound_ok (h hv)
  next => exact sound_error nofun

/-- The words of a form in columns 0 to 2. -/
theorem words_two (hb : RowBase base) (hrow : opRow w1 = base.toNat / 8) (k : BitVec 8) (hk : k.toNat ≤ 2)
    (hcol : opColumn w1 = k.toNat) : [firstWord (base + k) (rdField w1) (rxField w1), w2] = wordsOf w1 w2 := by
  rw [wordsOf_eq hb hrow, if_pos (by omega), firstWord_of_cell hb.1 hrow hcol]

/-- The word of a form in columns 3 to 7. -/
theorem words_one (hb : RowBase base) (hrow : opRow w1 = base.toNat / 8) (k : BitVec 8) (hk : 2 < k.toNat)
    (hcol : opColumn w1 = k.toNat) : [firstWord (base + k) (rdField w1) (rxField w1)] = wordsOf w1 w2 := by
  rw [wordsOf_eq hb hrow, if_neg (by omega), firstWord_of_cell hb.1 hrow hcol]

/-- The words of the direct form. -/
theorem words_direct (hb : RowBase base) (hrow : opRow w1 = base.toNat / 8) (hcol : opColumn w1 = 0)
    (hrx : rxField w1 = 0) : [firstWord base (rdField w1) 0, w2] = wordsOf w1 w2 := by
  simpa [hrx] using words_two (w2 := w2) hb hrow 0 (by decide) hcol

/-- The memory forms, in the columns that have one. -/
theorem sound_decodeMemEA (hb : RowBase base) (hrow : opRow w1 = base.toNat / 8)
    (hcol : opColumn w1 ∈ [0, 1, 3, 6, 7]) : Sound (encodeMemEA base (rdField w1)) w1 w2 (decodeMemEA w1 w2) := by
  unfold decodeMemEA
  split
  next h0 => exact sound_zeroField (words_direct hb hrow h0)
  next h1 => exact sound_ok (by simpa [encodeMemEA] using words_two hb hrow 1 (by decide) h1)
  next h3 => exact sound_ok (words_one hb hrow 3 (by decide) h3)
  next h6 => exact sound_ok (by simpa [encodeMemEA] using words_one hb hrow 6 (by decide) h6)
  next h7 => exact sound_ok (by simpa [encodeMemEA] using words_one hb hrow 7 (by decide) h7)
  next => simp_all

theorem sound_decodeEA (hb : RowBase base) (hrow : opRow w1 = base.toNat / 8) :
    Sound (encodeEA base (Reg.ofField (rdField w1))) w1 w2 (decodeEA w1 w2) := by
  unfold decodeEA
  split
  next h2 =>
    refine sound_zeroField fun hrx => ?_
    simpa [encodeEA, hrx] using words_two (w2 := w2) hb hrow 2 (by decide) h2
  next h4 => exact sound_ok (by simpa [encodeEA] using words_one hb hrow 4 (by decide) h4)
  next h5 => exact sound_ok (by simpa [encodeEA] using words_one hb hrow 5 (by decide) h5)
  next h2 h4 h5 =>
    have hcol : opColumn w1 ∈ [0, 1, 3, 6, 7] := by
      have hlt := opColumn_lt w1
      simp only [imp_false] at h2 h4 h5
      simp only [List.mem_cons, List.not_mem_nil, or_false]
      omega
    exact (sound_decodeMemEA hb hrow hcol).map fun m => by simp [encodeEA]

theorem sound_decodeTarget (hb : RowBase base) (hrow : opRow w1 = base.toNat / 8)
    (hcol : opColumn w1 ∈ [0, 1, 6]) : Sound (encodeTarget base (rdField w1)) w1 w2 (decodeTarget w1 w2) := by
  unfold decodeTarget
  split
  next h0 => exact sound_zeroField (words_direct hb hrow h0)
  next h1 => exact sound_ok (by simpa [encodeTarget] using words_two hb hrow 1 (by decide) h1)
  next h6 => exact sound_ok (by simpa [encodeTarget] using words_one hb hrow 6 (by decide) h6)
  next => simp_all

theorem sound_decodeIoEA (hb : RowBase base) (hrow : opRow w1 = base.toNat / 8)
    (hcol : opColumn w1 ∈ [0, 6, 7]) :
    Sound (encodeIoEA base (Reg.ofField (rdField w1))) w1 w2 (decodeIoEA w1 w2) := by
  unfold decodeIoEA
  split
  next h0 => exact sound_zeroField fun hrx => by simpa [encodeIoEA] using words_direct hb hrow h0 hrx
  next h6 => exact sound_ok (by simpa [encodeIoEA] using words_one hb hrow 6 (by decide) h6)
  next h7 => exact sound_ok (by simpa [encodeIoEA] using words_one hb hrow 7 (by decide) h7)
  next => simp_all

theorem sound_decodeRdEA (hb : RowBase base) {k : Reg → EA → Instr}
    (hk : ∀ rd ea, encode (k rd ea) = encodeEA base rd ea) (hrow : opRow w1 = base.toNat / 8) :
    Sound encode w1 w2 (decodeRdEA w1 w2 k) :=
  (sound_decodeEA hb hrow).map fun ea => hk _ ea

/-- A one-word instruction without an operand form is its first word. -/
theorem words_cell {k : BitVec 8} (hc : OneWordCell base k) (hrow : opRow w1 = base.toNat / 8)
    (hcol : opColumn w1 = k.toNat) : [firstWord (base + k) (rdField w1) (rxField w1)] = wordsOf w1 w2 := by
  obtain ⟨hb, hone⟩ := hc
  have h : hasSecondWord w1 = false := by
    have hz : base = 0 → opRow w1 = 0 := by rintro rfl; exact hrow
    simp only [hasSecondWord, Bool.and_eq_false_iff, decide_eq_false_iff_not]
    rcases hone with h0 | hhigh | hk
    · have := hz h0
      omega
    · omega
    · omega
  rw [wordsOf, h, firstWord_of_cell hb hrow hcol]
  rfl

theorem sound_decodeRd {k : Reg → Instr} {c : BitVec 8} (hc : OneWordCell base c)
    (hk : ∀ rd, encode (k rd) = [firstWord (base + c) rd.field 0]) (hrow : opRow w1 = base.toNat / 8)
    (hcol : opColumn w1 = c.toNat) : Sound encode w1 w2 (decodeRd w1 k) :=
  sound_zeroField fun hrx => by
    rw [hk, Reg.field_ofField, ← hrx]
    exact words_cell hc hrow hcol

theorem sound_decodeBare {i : Instr} {c : BitVec 8} (hc : OneWordCell base c)
    (hi : encode i = [firstWord (base + c) 0 0]) (hrow : opRow w1 = base.toNat / 8)
    (hcol : opColumn w1 = c.toNat) : Sound encode w1 w2 (decodeBare w1 i) := by
  unfold decodeBare
  split
  next hz =>
    refine sound_ok ?_
    rw [hi, ← words_cell hc hrow hcol, hz.1, hz.2]
  next => exact sound_error nofun

theorem sound_jumpOfCode {t : Target} (ht : encodeTarget 0xA0 (rdField w1) t = wordsOf w1 w2) :
    Sound encode w1 w2 (jumpOfCode (rdField w1) t) := by
  refine ⟨fun i hi => ?_, ?_⟩
  · rw [← ht]
    unfold jumpOfCode at hi
    split at hi <;> rename_i hcc <;> cases hi <;>
      exact congrArg (encodeTarget 0xA0 · t) (BitVec.eq_of_toNat_eq hcc.symm)
  · unfold jumpOfCode
    split <;> simp

end Cells

theorem opColumn_mem {w : Word} {r : Nat} (hop : opDefined w = true) (hrow : opRow w = r) : opColumn w ∈ opColumns r :=
  hrow ▸ opDefined_iff.1 hop

theorem opColumn_eq_four {w : Word} (h : opColumn w ∈ [0, 4]) (h0 : opColumn w ≠ 0) : opColumn w = 4 := by
  simpa [h0] using h

/-- The rows of the OP map without any instruction. -/
theorem opColumns_blank_row {r : Nat} (h : r = 0x0F ∨ r = 0x19 ∨ r = 0x1B ∨ r = 0x1D) : opColumns r = [] := by
  rcases h with rfl | rfl | rfl | rfl <;> rfl

theorem opRow_lt (w : Word) : opRow w < 32 := by
  have := (opField w).isLt
  unfold opRow
  omega

/-- Words whose OP is not blank parse to an instruction whose encoding they are, or have one of the other errors. -/
theorem sound_parseWords {w1 : Word} (w2 : Word) (hop : opDefined w1 = true) : Sound encode w1 w2 (parseWords w1 w2) := by
  unfold parseWords
  split
  case h_2 hrow | h_4 hrow | h_5 hrow | h_6 hrow | h_7 hrow | h_8 hrow | h_9 hrow | h_10 hrow | h_11 hrow | h_12 hrow
      | h_13 hrow | h_14 hrow | h_15 hrow | h_16 hrow | h_17 hrow | h_18 hrow | h_19 hrow =>
    exact sound_decodeRdEA (by decide) (fun _ _ => rfl) hrow
  next hrow => -- NO
    exact sound_decodeBare (base := 0) (c := 0) (by decide) rfl hrow
      (List.mem_singleton.1 (opColumn_mem hop hrow))
  next hrow => -- LD Rd,FLAG and ST
    have hcol := opColumn_mem hop hrow
    split
    next h4 => exact sound_decodeRd (base := 0x10) (c := 4) (by decide) (fun _ => rfl) hrow h4
    next h4 =>
      refine (sound_decodeMemEA (base := 0x10) (by decide) hrow ?_).map fun m => by simp [encode]
      simpa [opColumns, h4] using hcol
  next hrow => -- the jumps
    exact (sound_decodeTarget (by decide) hrow (opColumn_mem hop hrow)).bind fun t => sound_jumpOfCode
  next hrow => -- CALL
    refine (sound_decodeTarget (base := 0xA8) (by decide) hrow (opColumn_mem hop hrow)).bind fun t ht =>
      sound_zeroField fun hrd => ?_
    rwa [hrd] at ht
  next hrow => exact (sound_decodeIoEA (by decide) hrow (opColumn_mem hop hrow)).map fun _ => rfl
  next hrow => exact (sound_decodeIoEA (by decide) hrow (opColumn_mem hop hrow)).map fun _ => rfl
  next hrow => -- PUSH and POP
    split
    next h0 => exact sound_decodeRd (base := 0xC0) (c := 0) (by decide) (fun _ => rfl) hrow h0
    next h0 =>
      exact sound_decodeRd (base := 0xC0) (c := 4) (by decide) (fun _ => rfl) hrow
        (opColumn_eq_four (opColumn_mem hop hrow) h0)
  next hrow => -- RET and RETI
    split
    next h0 => exact sound_decodeBare (base := 0xD0) (c := 0) (by decide) rfl hrow h0
    next h0 =>
      exact sound_decodeBare (base := 0xD0) (c := 4) (by decide) rfl hrow
        (opColumn_eq_four (opColumn_mem hop hrow) h0)
  next hrow => -- EI and DI
    split
    next h0 => exact sound_decodeBare (base := 0xE0) (c := 0) (by decide) rfl hrow h0
    next h0 =>
      exact sound_decodeBare (base := 0xE0) (c := 4) (by decide) rfl hrow
        (opColumn_eq_four (opColumn_mem hop hrow) h0)
  next hrow => -- SVC
    exact sound_decodeBare (base := 0xF0) (c := 0) (by decide) rfl hrow
      (List.mem_singleton.1 (opColumn_mem hop hrow))
  next hrow => -- HALT
    exact sound_decodeBare (base := 0xF8) (c := 7) (by decide) rfl hrow
      (List.mem_singleton.1 (opColumn_mem hop hrow))
  next => -- a blank row
    have hlt := opRow_lt w1
    have hcol := opDefined_iff.1 hop
    simp only [imp_false] at *
    rw [opColumns_blank_row (by omega)] at hcol
    cases hcol

/-- Settles O5: the decoder's cell of the first word is the encoder's. -/
theorem encodeInvertsDecode : Obligations.EncodeInvertsDecode := by
  unfold Obligations.EncodeInvertsDecode
  intro w1 w2 i h
  obtain ⟨hop, hparse, hwf⟩ := decodeWords_ok.1 h
  obtain ⟨hok, -⟩ := sound_parseWords w2 hop
  exact ⟨hok i hparse, hwf⟩

/-- Settles O7: the eight words are closed, so the decoder runs on them. -/
theorem wordsOfOtherFormatsDecode : Obligations.WordsOfOtherFormatsDecode := by
  unfold Obligations.WordsOfOtherFormatsDecode
  decide

/-! ## Blank OPs -/

/-- The OPs outside the OP map are those of the blank ranges (R122). -/
theorem opDefined_eq_false_iff (w : Word) : opDefined w = false ↔ BlankOp (opField w).toNat := by
  have h : ∀ op : BitVec 8, opDefined (firstWord op 0 0) = false ↔ BlankOp op.toNat := by
    unfold BlankOp
    decide
  rw [← h, ← Laws.opDefined_firstWord _ (rdField w) (rxField w), firstWord_fields]

theorem checkRegisters_ne_undefinedOp (i : Instr) : checkRegisters i ≠ .error .undefinedOp := by
  unfold checkRegisters
  cases i.named <;> cases i.paired <;> simp

/-- The decoder calls the words of a blank OP undefined, and no others. -/
theorem decodeWords_undefinedOp (w1 w2 : Word) :
    decodeWords w1 w2 = .error .undefinedOp ↔ BlankOp (opField w1).toNat := by
  rw [← opDefined_eq_false_iff]
  unfold decodeWords
  cases hop : opDefined w1 with
  | false => simp
  | true =>
    obtain ⟨-, herr⟩ := sound_parseWords w2 hop
    cases hparse : parseWords w1 w2 with
    | ok i => simpa [Except.bind] using checkRegisters_ne_undefinedOp i
    | error e => simpa [Except.bind, hparse] using herr

end Sys2Proof
end

section
/-! PROOFS. Memory accesses, the fetch and the step (spec/20_memory.md sections 2, 3 and 5,
spec/60_exceptions.md sections 2 to 4). -/

namespace Sys2Proof.Machine

/-! ## Addresses, loads and stores -/

theorem word_even_iff (a : Word) : a[0] = false ↔ a.toNat % 2 = 0 := by
  rw [BitVec.getElem_eq_testBit_toNat, Nat.testBit_zero]
  simp

theorem bit0_add_two {a : Word} (h : a[0] = false) : (a + 2)[0] = false := by
  rw [word_even_iff] at h ⊢
  bv_omega

theorem physical_untranslated {s : State} (h : s.flag.p = true ∨ s.mmu.en = false) (a : Word) : physical s a = .ok a := by
  rw [physical, if_neg]
  rintro ⟨hp, hen⟩
  simp [hp, hen] at h

theorem physical_beyond {s : State} {a : Word} (hp : s.flag.p = false) (hen : s.mmu.en = true)
    (h : s.mmu.limit.toNat ≤ a.toNat) : physical s a = .error (.trap .memoryProtection) := by
  rw [physical, if_pos ⟨hp, hen⟩, if_pos h]

theorem physical_below {s : State} {a : Word} (hp : s.flag.p = false) (hen : s.mmu.en = true)
    (h : a.toNat < s.mmu.limit.toNat) : physical s a = .ok (a + s.mmu.base) := by
  rw [physical, if_pos ⟨hp, hen⟩, if_neg (by omega)]

theorem physicalWord_odd {s : State} {a : Word} (h : a[0] = true) :
    physicalWord s a = .error (.trap .invalidAddress) := by
  rw [physicalWord, if_pos h]

theorem physicalWord_even {s : State} {a : Word} (h : a[0] = false) : physicalWord s a = physical s a := by
  rw [physicalWord, if_neg (by simp [h])]

theorem loadWord_odd {s : State} {a : Word} (h : a[0] = true) : loadWord s a = .error (.trap .invalidAddress) := by
  rw [loadWord, physicalWord_odd h]
  rfl

theorem storeWord_odd {s : State} {a : Word} (h : a[0] = true) (v : Word) :
    storeWord s a v = .error (.trap .invalidAddress) := by
  rw [storeWord, physicalWord_odd h]
  rfl

section Beyond

variable {s : State} {a : Word} (hp : s.flag.p = false) (hen : s.mmu.en = true) (h : s.mmu.limit.toNat ≤ a.toNat)
include hp hen h

theorem loadByte_beyond : loadByte s a = .error (.trap .memoryProtection) := by
  rw [loadByte, physical_beyond hp hen h]
  rfl

theorem storeByte_beyond (v : Byte) : storeByte s a v = .error (.trap .memoryProtection) := by
  rw [storeByte, physical_beyond hp hen h]
  rfl

theorem loadWord_beyond (h0 : a[0] = false) : loadWord s a = .error (.trap .memoryProtection) := by
  rw [loadWord, physicalWord_even h0, physical_beyond hp hen h]
  rfl

theorem storeWord_beyond (h0 : a[0] = false) (v : Word) : storeWord s a v = .error (.trap .memoryProtection) := by
  rw [storeWord, physicalWord_even h0, physical_beyond hp hen h]
  rfl

end Beyond

section Reached

variable {s : State} {a p : Word} (h : physical s a = .ok p)
include h

theorem loadByte_reached : loadByte s a = .ok (Memory.read s.mem p.toNat) := loadByte_ok.2 ⟨p, h, rfl⟩

theorem storeByte_reached (v : Byte) : storeByte s a v =
    if inRom p then .error (.refuse .romStore) else .ok (s.setMem (Memory.write s.mem p.toNat v)) := by
  rw [storeByte, h]
  rfl

theorem loadWord_reached (h0 : a[0] = false) : loadWord s a = .ok (Memory.readWord s.mem p) :=
  loadWord_ok.2 ⟨p, physicalWord_ok.2 ⟨h0, h⟩, rfl⟩

theorem storeWord_reached (h0 : a[0] = false) (v : Word) : storeWord s a v =
    if inRom p || inRom (p + 1) then .error (.refuse .romStore) else .ok (s.setMem (Memory.writeWord s.mem p v)) := by
  rw [storeWord, physicalWord_even h0, h]
  rfl

end Reached

/-- A word store where one can be made. -/
theorem storeWord_room {s : State} {a p : Word} (h : WordStore s a p) (v : Word) :
    storeWord s a v = .ok (s.setMem (Memory.writeWord s.mem p v)) := by
  obtain ⟨h0, hp, hr, hr'⟩ := h
  rw [storeWord_reached hp h0, hr, hr']
  rfl

/-- A byte store where one can be made. -/
theorem storeByte_room {s : State} {a p : Word} (h : ByteStore s a p) (v : Byte) :
    storeByte s a v = .ok (s.setMem (Memory.write s.mem p.toNat v)) := by
  obtain ⟨hp, hr⟩ := h
  rw [storeByte_reached hp, hr]
  rfl

/-- Settles O29: by the physical address, where there is one. -/
theorem addressChecksAndRelocation : Obligations.AddressChecksAndRelocation := by
  unfold Obligations.AddressChecksAndRelocation
  intro s a reaches
  have hreaches : ∀ p, physical s a = .ok p → reaches p := fun p h =>
    ⟨loadByte_reached h, storeByte_reached h, fun h0 => ⟨loadWord_reached h h0, storeWord_reached h h0⟩⟩
  refine ⟨fun h => ⟨loadWord_odd h, storeWord_odd h⟩, fun hp hen hlim => ?beyond,
    fun hp hen hlim => ?below, fun h => ?off⟩
  case beyond =>
    exact ⟨loadByte_beyond hp hen hlim, storeByte_beyond hp hen hlim, fun h0 =>
      ⟨loadWord_beyond hp hen hlim h0, storeWord_beyond hp hen hlim h0⟩⟩
  case below => exact hreaches _ (physical_below hp hen hlim)
  case off => exact hreaches _ (physical_untranslated h a)

/-- Settles O25: the bytes a write leaves, by their addresses. -/
theorem mixedWidthAccessesAreBigEndian : Obligations.MixedWidthAccessesAreBigEndian := by
  unfold Obligations.MixedWidthAccessesAreBigEndian
  refine ⟨fun m a v => ⟨?_, ?_, fun k hk hk' => ?_⟩, fun m a k b => Memory.read_write m a b k⟩
  · rw [Memory.read_writeWord, if_neg (succ_ne_self a).symm, if_pos rfl]
    rfl
  · rw [Memory.read_writeWord, if_pos rfl]
    rfl
  · rw [Memory.read_writeWord, if_neg hk', if_neg hk]

/-! ## The step without an interrupt -/

/-- A step of a CPU that runs follows the devices' move (R275). -/
theorem step_eq_proceed {s : State} (h : s.halted = false) : step s = proceed (boundary s) := by
  rw [step, if_neg (by simp [h])]

theorem proceed_of_none {s : State} (h : accepted s = none) : proceed s = runInstruction s := by
  rw [proceed, h]

theorem step_eq_run {s : State} (h : s.halted = false) (ha : accepted (boundary s) = none) :
    step s = runInstruction (boundary s) := (step_eq_proceed h).trans (proceed_of_none ha)

theorem runInstruction_of_instr {s : State} {i : Instr} (h : fetch s = .instr i) :
    runInstruction s = exec i s.afterFetch := by
  rw [runInstruction, h]

theorem runInstruction_of_trap {s : State} {c : Cause} {spc : Word} (h : fetch s = .trap c spc) :
    runInstruction s = enterTrap c spc s := by
  rw [runInstruction, h]

/-! ## The fetch -/

theorem fetchWord_of_ok {s : State} {a w : Word} {k : Word → Fetched} (h : loadWord s a = .ok w) :
    fetchWord s a k = k w := by
  rw [fetchWord, h]

theorem fetchWord_of_trap {s : State} {a : Word} {c : Cause} {k : Word → Fetched}
    (h : loadWord s a = .error (.trap c)) : fetchWord s a k = .trap c a := by
  rw [fetchWord, h]

/-- The fetch of the second word, where the first has one. -/
theorem fetch_of_two {s : State} {w1 : Word} (h : loadWord s s.pc = .ok w1) (hop : opDefined w1 = true)
    (h2 : hasSecondWord w1 = true) :
    fetch s = fetchWord (s.interleave .secondWord) (s.pc + 2) fun w2 => fetchedOf s.pc (decodeWords w1 w2) := by
  rw [fetch, fetchWord_of_ok h, if_pos hop, if_pos h2]

theorem fetch_of_one {s : State} {w1 : Word} (h : loadWord s s.pc = .ok w1) (hop : opDefined w1 = true)
    (h2 : hasSecondWord w1 = false) : fetch s = fetchedOf s.pc (decodeWords w1 0) := by
  rw [fetch, fetchWord_of_ok h, if_pos hop, if_neg (by simp [h2])]

/-- A blank OP is an undefined instruction, whatever follows it (R122, R262). -/
theorem fetch_of_blank {s : State} {w : Word} (h : loadWord s s.pc = .ok w) (hop : opDefined w = false) :
    fetch s = .trap .undefinedInstruction (s.pc + 2) := by
  rw [fetch, fetchWord_of_ok h, if_neg (by simp [hop])]

theorem fetch_of_trap {s : State} {c : Cause} (h : loadWord s s.pc = .error (.trap c)) : fetch s = .trap c s.pc :=
  fetchWord_of_trap h

/-- A one-word instruction is decoded from its first word alone. -/
theorem decodeWords_one {w1 w2 : Word} {i : Instr} (h2 : hasSecondWord w1 = false)
    (h : decodeWords w1 w2 = .ok i) : decodeWords w1 0 = .ok i := by
  obtain ⟨hop, hparse, hwf⟩ := decodeWords_ok.1 h
  obtain ⟨hok, -⟩ := sound_parseWords w2 hop
  have henc : encode i = [w1] := (hok i hparse).trans (by simp [wordsOf, h2])
  have hself := parseWords_encode i
  rw [henc] at hself
  exact decodeWords_ok.2 ⟨hop, hself, hwf⟩

/-- Settles O8: the fetch gives the decoded instruction, from the first word or from both. -/
theorem stepRunsTheDecodedInstruction : Obligations.StepRunsTheDecodedInstruction := by
  unfold Obligations.StepRunsTheDecodedInstruction
  intro s w1 w2 i hrun hacc hw1 hw2 hdec
  obtain ⟨hop, -, -⟩ := decodeWords_ok.1 hdec
  rw [step_eq_run hrun hacc]
  refine runInstruction_of_instr ?_
  cases h2 : hasSecondWord w1 with
  | true =>
    rw [fetch_of_two hw1 hop h2, boundary_pc, fetchWord_of_ok (hw2 h2), hdec]
    rfl
  | false =>
    rw [fetch_of_one hw1 hop h2, decodeWords_one h2 hdec]
    rfl

/-- Settles O10: the decoder by its map, and the step by the fetch, which stops at a blank OP. -/
theorem blankOpTrapsAsUndefined : Obligations.BlankOpTrapsAsUndefined := by
  unfold Obligations.BlankOpTrapsAsUndefined
  refine ⟨decodeWords_undefinedOp, fun s w hrun hacc hw hblank => ?_⟩
  rw [step_eq_run hrun hacc]
  exact runInstruction_of_trap (fetch_of_blank hw ((opDefined_eq_false_iff w).2 hblank))

/-- Settles O11: the load of the first or the second word faults, and the fetch saves its address. -/
theorem faultingFetchTraps : Obligations.FaultingFetchTraps := by
  unfold Obligations.FaultingFetchTraps
  intro s hrun hacc
  rw [step_eq_run hrun hacc]
  refine ⟨fun hodd => ?_, fun heven hp hen hlim => ?_, fun w1 hp hen hw1 hblank h2 hlim => ?_⟩
  · exact runInstruction_of_trap (fetch_of_trap (loadWord_odd hodd))
  · exact runInstruction_of_trap (fetch_of_trap (loadWord_beyond hp hen hlim heven))
  · have hop : opDefined w1 = true := by
      rw [← opDefined_eq_false_iff] at hblank
      simpa using hblank
    obtain ⟨p, hpw, -⟩ := loadWord_ok.1 hw1
    obtain ⟨heven, -⟩ := physicalWord_ok.1 hpw
    refine runInstruction_of_trap ((fetch_of_two hw1 hop h2).trans ?_)
    exact fetchWord_of_trap (loadWord_beyond hp hen hlim (bit0_add_two heven))

end Sys2Proof.Machine
end

section
/-! PROOFS. Reset, the other agents, interrupts, trap entry and return (spec/60_exceptions.md sections 1 to 5). -/

namespace Sys2Proof.Machine

/-! ## Reset -/

/-- Settles O1: the values after reset are written in `State.resetKeeping`. -/
theorem resetLeavesTheSpecifiedValues : Obligations.ResetLeavesTheSpecifiedValues := by
  unfold Obligations.ResetLeavesTheSpecifiedValues
  intro r
  have hflag : Flag.reset.word = 0x0040 := by decide
  exact ⟨rfl, hflag, rfl, rfl, rfl, rfl, rfl, rfl, rfl, rfl, rfl, rfl, rfl, rfl, rfl, rfl, rfl, rfl, rfl, rfl⟩

/-- Settles O2: nothing is listed after reset. -/
theorem resetMemoryIsCanonical : Obligations.ResetMemoryIsCanonical := reset_mem_wf

/-! ## Other agents -/

theorem read_usdMem_of_inRom {a : Word} (ha : inRom a = true) (s : State) (k : BusSlot) (m : Memory) :
    Memory.read (s.usdMem k m) a.toNat = Memory.read m a.toNat := by
  unfold State.usdMem
  split
  · exact read_applyStores_of_inRom ha _ m
  · rfl

theorem usdMem_quiet {s : State} (h : s.dev.usd.commanded = false) (k : BusSlot) (m : Memory) : s.usdMem k m = m := by
  rw [State.usdMem, if_neg (by simp [h])]

/-- Settles O9: field by field; memory by what the controller's stores leave. -/
theorem devicesMoveLeavesTheCpuAlone : Obligations.DevicesMoveLeavesTheCpuAlone := by
  unfold Obligations.DevicesMoveLeavesTheCpuAlone
  intro s
  refine ⟨fun h _ => get_boundary s h, rfl, rfl, rfl, rfl, rfl, rfl, rfl, rfl, rfl, rfl, fun hq a => ?quiet,
    fun a ha => ?rom, fun k => ⟨⟨_, rfl⟩, fun hq => interleave_quiet hq k, fun a ha => read_usdMem_of_inRom ha s k s.mem⟩⟩
  case quiet => exact congrArg (Memory.read · a) (usdMem_quiet hq .firstWord s.mem)
  case rom => exact read_usdMem_of_inRom ha s .firstWord s.mem

/-! ## Interrupts -/

/-- The first element of a list in rising order of vectors that is found is the lowest one. -/
theorem find?_of_lowest {q : Cause → Bool} {c : Cause} (hq : q c = true) : ∀ {l : List Cause},
    l.Pairwise (·.number < ·.number) → c ∈ l → (∀ c' ∈ l, c'.number < c.number → q c' = false) → l.find? q = some c
  | x :: rest, hsort, hc, hlow => by
    obtain ⟨hx, hrest⟩ := List.pairwise_cons.1 hsort
    rcases List.mem_cons.1 hc with rfl | hmem
    · rw [List.find?_cons_of_pos hq]
    · have hqx : ¬ q x = true := by simp [hlow x List.mem_cons_self (hx c hmem)]
      rw [List.find?_cons_of_neg hqx]
      exact find?_of_lowest hq hrest hmem fun c' hc' => hlow c' (List.mem_cons_of_mem x hc')

theorem interruptSources_sorted : interruptSources.Pairwise (·.number < ·.number) := by decide

/-- Settles O12: the list of the sources is in the order of their vectors. -/
theorem lowestPendingInterruptIsAccepted : Obligations.LowestPendingInterruptIsAccepted := by
  unfold Obligations.LowestPendingInterruptIsAccepted
  refine ⟨fun s c hc he hpend hlow => ?_, fun s h => step_eq_proceed h⟩
  have hacc : accepted s = some c := by
    rw [accepted, if_pos he]
    exact find?_of_lowest (q := fun c => s.pending.getLsbD c.number) hpend interruptSources_sorted hc hlow
  rw [proceed, hacc]

/-- The enable bits of the sources that have one, in the order of their vectors (R271). -/
theorem enables_bits (d : Devices) :
    d.enables.getLsbD 0 = d.timer0.intEna ∧ d.enables.getLsbD 1 = d.timer1.intEna ∧
    d.enables.getLsbD 2 = d.rn4020.rxIntEna ∧ d.enables.getLsbD 3 = d.rn4020.txIntEna ∧
    d.enables.getLsbD 4 = d.ft232rl.rxIntEna ∧ d.enables.getLsbD 5 = d.ft232rl.txIntEna ∧
    d.enables.getLsbD 6 = d.tec.rxIntEna ∧ d.enables.getLsbD 7 = d.tec.txIntEna ∧
    d.enables.getLsbD 8 = d.usd.intEna := by
  unfold Devices.enables
  generalize d.timer0.intEna = b0, d.timer1.intEna = b1, d.rn4020.rxIntEna = b2, d.rn4020.txIntEna = b3,
    d.ft232rl.rxIntEna = b4, d.ft232rl.txIntEna = b5, d.tec.rxIntEna = b6, d.tec.txIntEna = b7, d.usd.intEna = b8
  revert b0 b1 b2 b3 b4 b5 b6 b7 b8
  decide

theorem pending_of_disabled {s : State} {k : Nat} (h : s.dev.enables.getLsbD k = false) :
    (boundary s).pending.getLsbD k = false := by
  simp [boundary, h]

/-- Settles O13: a pending bit is a request under its enable. -/
theorem interruptsNeedTheirEnables : Obligations.InterruptsNeedTheirEnables := by
  unfold Obligations.InterruptsNeedTheirEnables
  intro s quiet
  obtain ⟨t0, t1, rnRx, rnTx, ftRx, ftTx, tecRx, tecTx, usd⟩ := enables_bits s.dev
  refine ⟨?_, ?_, ?_, ?_, ?_, ?_, ?_, ?_, ?_, fun he => proceed_of_none (if_neg (by simp [he]))⟩
  · exact fun h => pending_of_disabled (t0.trans h)
  · exact fun h => pending_of_disabled (t1.trans h)
  · exact fun h => pending_of_disabled (ftRx.trans h)
  · exact fun h => pending_of_disabled (ftTx.trans h)
  · exact fun h => pending_of_disabled (tecRx.trans h)
  · exact fun h => pending_of_disabled (tecTx.trans h)
  · exact fun h => pending_of_disabled (rnRx.trans h)
  · exact fun h => pending_of_disabled (rnTx.trans h)
  · exact fun h => pending_of_disabled (usd.trans h)

/-- Settles O15: the vectors are closed terms. -/
theorem vectorTableIsTheSpecs : Obligations.VectorTableIsTheSpecs := by
  unfold Obligations.VectorTableIsTheSpecs
  decide

/-! ## Trap entry -/

/-- What an entry leaves alone. -/
theorem entered_frame (c : Cause) (spc : Word) (s : State) :
    SameRegs [.ssp] s (entered c spc s) ∧ SameIo s (entered c spc s) ∧ SameRun s (entered c spc s) := by
  refine ⟨fun h hh => ?_, ⟨rfl, rfl, rfl⟩, ⟨rfl, rfl, rfl⟩⟩
  cases h with
  | g n | fp | usp => rfl
  | ssp => simp at hh

/-- A word write leaves the words that lie apart from it. -/
theorem Memory.readWord_writeWord_apart (m : Memory) {a b : Word} (v : Word) (h : b ≠ a) (h1 : b ≠ a + 1)
    (h2 : b + 1 ≠ a) : Memory.readWord (Memory.writeWord m a v) b = Memory.readWord m b := by
  have h3 : b + 1 ≠ a + 1 := fun he => h (by simpa using he)
  simp only [Memory.readWord, Memory.read_writeWord, BitVec.toNat_inj, h, h1, h2, h3, if_false]

/-- The frame of an entry, while no transfer has been commanded: FLAG at SSP, the saved PC above it, no other byte. -/
theorem entered_stack {s : State} (hq : s.dev.usd.commanded = false) (c : Cause) (spc : Word) :
    Memory.readWord (entered c spc s).mem (s.ssp - 4) = s.flag.word ∧
    Memory.readWord (entered c spc s).mem (s.ssp - 4 + 2) = spc ∧
    SameMemBut [s.ssp - 2, s.ssp - 1, s.ssp - 4, s.ssp - 3] s (entered c spc s) := by
  have hmem : (entered c spc s).mem =
      Memory.writeWord (Memory.writeWord s.mem (s.ssp - 2) spc) (s.ssp - 4) s.flag.word := enteredMem_quiet hq spc
  have h2 : s.ssp - 4 + 2 = s.ssp - 2 := by bv_omega
  refine ⟨?_, ?_, fun a ha => ?_⟩
  · rw [hmem, Memory.readWord_writeWord]
  · rw [hmem, h2, Memory.readWord_writeWord_apart, Memory.readWord_writeWord] <;> bv_omega
  · have hb2 : s.ssp - 2 + 1 = s.ssp - 1 := by bv_omega
    have hb4 : s.ssp - 4 + 1 = s.ssp - 3 := by bv_omega
    simp only [List.map_cons, List.map_nil, List.mem_cons, List.not_mem_nil, or_false, not_or] at ha
    obtain ⟨ha2, ha1, ha4, ha3⟩ := ha
    rw [hmem, Memory.read_writeWord, Memory.read_writeWord, hb2, hb4, if_neg ha3, if_neg ha4, if_neg ha1, if_neg ha2]

/-- Settles O14: where there is room an entry leads to `entered`. -/
theorem trapEntryBuildsTheFrame : Obligations.TrapEntryBuildsTheFrame := by
  unfold Obligations.TrapEntryBuildsTheFrame
  intro c spc s h0 h2 h4
  obtain ⟨hregs, hio, hrun⟩ := entered_frame c spc s
  exact ⟨entered c spc s, enterTrap_of_room ⟨h0, h2, h4⟩ c spc, rfl, rfl, rfl, rfl, rfl, rfl, rfl, rfl, rfl, hregs, hio,
    hrun, fun hq => entered_stack hq c spc⟩

/-- Settles O18: SVC is the entry of its exception. -/
theorem svcTraps : Obligations.SvcTraps := by
  unfold Obligations.SvcTraps
  intro s h0 h2 h4
  obtain ⟨hregs, hio, hrun⟩ := entered_frame .svc (s.npc 2) s
  exact ⟨entered .svc (s.npc 2) s, enterTrap_of_room ⟨h0, h2, h4⟩ .svc _, rfl, rfl, rfl, hregs, hio, hrun,
    fun hq => entered_stack hq .svc (s.npc 2)⟩

/-! ## The return -/

theorem exec_reti_of_loads {s : State} {f p : Word} (hf : loadWord s s.sp = .ok f)
    (hp : loadWord (s.interleave .secondPop) (s.sp + 2) = .ok p) : exec .reti s = .next (returned s f p) :=
  conclude_ok (returnFromTrap_ok.2 ⟨f, p, hf, hp, rfl⟩)

/-- FLAG as a word holds every flag. -/
theorem flag_ofWord_word (f : Flag) : Flag.ofWord f.word = f := by
  obtain ⟨e, p, i, v, c, s, z⟩ := f
  revert e p i v c s z
  decide

/-- Settles O16: the return reads the two words that the entry pushed. -/
theorem returnUndoesTrapEntry : Obligations.ReturnUndoesTrapEntry := by
  unfold Obligations.ReturnUndoesTrapEntry
  intro c spc s t hq h
  obtain ⟨⟨h0, -, -⟩, rfl⟩ := enterTrap_next.1 h
  obtain ⟨hflag, hpc, -⟩ := entered_stack hq c spc
  have hpriv : (entered c spc s).flag.p = true := rfl
  have hsp : (entered c spc s).sp = s.ssp - 4 := sp_privileged hpriv
  have hev4 : (s.ssp - 4)[0] = false := by
    rw [word_even_iff] at h0 ⊢
    bv_omega
  have hstay : (entered c spc s).interleave .secondPop = entered c spc s := interleave_quiet (s := entered c spc s) hq _
  have hload : ∀ a : Word, a[0] = false → loadWord (entered c spc s) a = .ok (Memory.readWord (entered c spc s).mem a) :=
    fun a ha => loadWord_reached (physical_privileged hpriv a) ha
  have hf : loadWord (entered c spc s) (entered c spc s).sp = .ok s.flag.word := by rw [hsp, hload _ hev4, hflag]
  have hp : loadWord ((entered c spc s).interleave .secondPop) ((entered c spc s).sp + 2) = .ok spc := by
    rw [hstay, hsp, hload _ (bit0_add_two hev4), hpc]
  rw [exec_reti_of_loads hf hp, returned, hstay, hsp, restored_privileged hpriv, flag_ofWord_word]
  have hback : s.ssp - 4 + 4 = s.ssp := by bv_omega
  have hhome : (entered c spc s).spHome = .ssp := rfl
  rw [hback, hhome]
  rfl

theorem returned_frame (s : State) (f p : Word) : RegFrame [s.spHome] (s.interleave .secondPop) (returned s f p) := by
  refine ⟨fun h hh => ?_, fun a => ?_, ?_, ?_⟩
  · simpa [returned] using sameRegs_put (s.interleave .secondPop) (s.sp + 4) s.spHome h hh
  · rw [returned_mem]
  · simp [SameIo, returned]
  · simp [SameRun, returned]

/-- Settles O17: by the two words read. -/
theorem retiRestoresFlagAndPc : Obligations.RetiRestoresFlagAndPc := by
  unfold Obligations.RetiRestoresFlagAndPc
  intro s f p hf hp
  have hcond : (s.flag.restored f).v = f[3] ∧ (s.flag.restored f).c = f[2] ∧ (s.flag.restored f).s = f[1] ∧
      (s.flag.restored f).z = f[0] := by
    unfold Flag.restored
    split <;> exact ⟨rfl, rfl, rfl, rfl⟩
  obtain ⟨hv, hc, hs, hz⟩ := hcond
  refine ⟨returned s f p, exec_reti_of_loads hf hp, rfl, ?_, hv, hc, hs, hz, fun hpriv => ?_, fun huser => ?_,
    returned_frame s f p⟩
  · simp [returned]
  · rw [returned_flag, restored_privileged hpriv]
    exact ⟨rfl, rfl, rfl⟩
  · exact restored_user huser f

/-! ## Privileged instructions -/

theorem needPrivilege_user {s : State} (h : s.flag.p = false) : needPrivilege s = .error (.trap .privilegeViolation) := by
  rw [needPrivilege, if_neg (by simp [h])]

theorem needIoPrivilege_user {s : State} (h : s.flag.p = false) (hi : s.flag.i = false) :
    needIoPrivilege s = .error (.trap .privilegeViolation) := by
  rw [needIoPrivilege, if_neg (by simp [h, hi])]

/-- The exception that the first of an instruction's steps raises. -/
theorem conclude_bind_trap {α : Type} {s : State} {npc : Word} {x : Except Stop α} {c : Cause} {k : α → Except Stop State}
    (h : x = .error (.trap c)) : conclude s npc (x >>= k) = enterTrap c npc s := by
  rw [h]
  rfl

/-- Settles O19: the check of privilege is the first step. -/
theorem privilegedInstructionsTrapInUserMode : Obligations.PrivilegedInstructionsTrapInUserMode := by
  unfold Obligations.PrivilegedInstructionsTrapInUserMode
  intro s hp
  refine ⟨fun i hi => ?_, fun hi rd p => ?_⟩
  · simp only [List.mem_cons, List.not_mem_nil, or_false] at hi
    rcases hi with rfl | rfl | rfl <;> exact conclude_bind_trap (needPrivilege_user hp)
  · exact ⟨conclude_bind_trap (needIoPrivilege_user hp hi), conclude_bind_trap (needIoPrivilege_user hp hi)⟩

/-- FLAG and PC are outside the frame. -/
theorem regFrame_flag_pc (s : State) (f : Flag) (v : Word) : RegFrame [] s ((s.setFlag f).setPc v) :=
  ⟨fun h _ => by simp, fun _ => rfl, ⟨rfl, rfl, rfl⟩, ⟨rfl, rfl, rfl⟩⟩

/-- Settles O20: the check of privilege passes. -/
theorem eiAndDiWriteE : Obligations.EiAndDiWriteE := by
  unfold Obligations.EiAndDiWriteE
  intro s hp
  have hok := needPrivilege_ok.2 hp
  exact ⟨⟨_, conclude_ok (except_bind_ok.2 ⟨(), hok, rfl⟩), rfl, rfl, regFrame_flag_pc s _ _⟩,
    ⟨_, conclude_ok (except_bind_ok.2 ⟨(), hok, rfl⟩), rfl, rfl, regFrame_flag_pc s _ _⟩⟩

/-- Settles O21: HALT by its steps, the halted CPU by the first test of a step. -/
theorem haltStopsTheCpu : Obligations.HaltStopsTheCpu := by
  unfold Obligations.HaltStopsTheCpu
  refine ⟨fun s hp => ?_, fun s h => if_pos h⟩
  have hok := needPrivilege_ok.2 hp
  refine ⟨_, conclude_ok (except_bind_ok.2 ⟨(), hok, rfl⟩), rfl, rfl, rfl, fun h _ => ?_, fun _ => rfl,
    ⟨rfl, rfl, rfl⟩, rfl, rfl⟩
  cases h <;> rfl

/-- Settles O31: NO has one step. -/
theorem noOnlyAdvancesPc : Obligations.NoOnlyAdvancesPc := by
  unfold Obligations.NoOnlyAdvancesPc
  intro s
  exact ⟨s.setPc (s.npc 2), rfl, rfl, rfl, regFrame_flag_pc s s.flag _⟩

end Sys2Proof.Machine
end

section
/-! PROOFS. The operands, the transfers and the instructions that compute a result (spec/30_encoding.md section 2,
spec/40_transfer.md, spec/41_arith_logic.md, spec/42_muldiv.md, spec/43_shift.md). -/

namespace Sys2Proof.Machine

/-! ## Registers and operand forms -/

/-- Settles O26: by the register each number leads to. -/
theorem stackPointerIsBankedByP : Obligations.StackPointerIsBankedByP := by
  unfold Obligations.StackPointerIsBankedByP
  intro s v
  refine ⟨?_, rfl, ?_, rfl, rfl, rfl, fun n => ⟨rfl, rfl⟩, rfl, rfl⟩
  · cases h : s.flag.p <;> simp [readReg, Reg.home, h, State.get]
  · cases h : s.flag.p <;> simp [writeReg, Reg.home, h, State.put]

/-- The FP relative form's field doubled, as a signed number. -/
theorem toInt_fpRel (d4 : BitVec 4) (fp : Word) :
    (d4.signExtend 16 * 2 + fp).toInt = (d4.toInt * 2 + fp.toInt).bmod (2 ^ 16) := by
  have hd : (d4.signExtend 16).toInt = d4.toInt := BitVec.toInt_signExtend_of_le (by decide)
  have h2 : (2 : Word).toInt = 2 := by decide
  rw [BitVec.toInt_add, BitVec.toInt_mul, hd, h2, Int.bmod_add_bmod]

/-- Settles O28: the forms' sums, and the loads at them. -/
theorem sumByteAndTargetForms : Obligations.SumByteAndTargetForms := by
  unfold Obligations.SumByteAndTargetForms
  intro s
  refine ⟨fun d rx x hx => ?indexed, fun d4 => ?fpRel, fun rx x b hx hb => ?byte, fun d => rfl, fun rx x hx => hx⟩
  case indexed =>
    have ha : memAddress s (.indexed d rx) = .ok (d + x) := by rw [memAddress, hx]; rfl
    have ht : targetAddress s (.indexed d rx) = .ok (d + x) := by rw [targetAddress, hx]; rfl
    exact ⟨d + x, BitVec.toNat_add d x, ha, operand_of_isWord rfl ha, ht⟩
  case fpRel => exact ⟨_, toInt_fpRel d4 s.fp, rfl, operand_of_isWord rfl rfl⟩
  case byte =>
    refine ⟨b.zeroExtend 16, ?_, memOperand_ok.2 ⟨x, hx, .inr ⟨rfl, b, hb, rfl⟩⟩⟩
    have := b.isLt
    simp only [BitVec.truncate_eq_setWidth, BitVec.toNat_setWidth]
    omega

/-! ## Transfers -/

/-- A write to one register, PC aside, stays in the frame of that register. -/
theorem regFrame_put (s : State) (v npc : Word) (h : Home) : RegFrame [h] s ((s.put v h).setPc npc) :=
  ⟨fun k hk => by simpa using sameRegs_put s v h k hk, fun a => by simp, by simp [SameIo], by simp [SameRun]⟩

/-- Settles O32: LD writes its operand. -/
theorem ldLoadsTheOperand : Obligations.LdLoadsTheOperand := by
  unfold Obligations.LdLoadsTheOperand
  intro rd ea s v h hh hv
  have hw : writeReg s rd v = .ok (s.put v h) := writeReg_ok.2 ⟨h, hh, rfl⟩
  exact ⟨(s.put v h).setPc _, conclude_ok (except_bind_ok.2 ⟨v, hv, except_bind_ok.2 ⟨_, hw, rfl⟩⟩), by simp, by simp,
    rfl, regFrame_put s v _ h⟩

/-- FLAG as a word, by the weights of its bits (R28, R29). -/
theorem toNat_flag_word (f : Flag) : f.word.toNat =
    128 * f.e.toNat + 64 * f.p.toNat + 32 * f.i.toNat + 8 * f.v.toNat + 4 * f.c.toNat + 2 * f.s.toNat + f.z.toNat := by
  obtain ⟨e, p, i, v, c, s, z⟩ := f
  revert e p i v c s z
  decide

/-- Settles O33: LD Rd,FLAG writes FLAG's word. -/
theorem ldFlagReadsFlag : Obligations.LdFlagReadsFlag := by
  unfold Obligations.LdFlagReadsFlag
  intro rd s h hh
  have hw : writeReg s rd s.flag.word = .ok (s.put s.flag.word h) := writeReg_ok.2 ⟨h, hh, rfl⟩
  refine ⟨(s.put s.flag.word h).setPc _, conclude_ok (except_bind_ok.2 ⟨_, hw, rfl⟩), ?_, by simp, rfl,
    regFrame_put s _ _ h⟩
  rw [State.get_setPc, State.get_put_same, toNat_flag_word]

/-- ST comes to its store. -/
theorem exec_st_eq {s : State} {rd : Reg} {m : MemEA} {v : Word} (hv : readReg s rd = .ok v) :
    exec (.st rd m) s =
      conclude s (s.npc (MemEA.bytes m)) ((memStore s m v).map (·.setPc (s.npc (MemEA.bytes m)))) := by
  simp only [exec, execSt, hv, bind, Except.bind]
  cases memStore s m v <;> rfl

/-- Memory written, PC aside, stays in the frame of the bytes written. -/
theorem storeFrame_setMem {s : State} {m : Memory} {bytes : List Word} (npc : Word)
    (h : ∀ a : Nat, a ∉ bytes.map BitVec.toNat → Memory.read m a = Memory.read s.mem a) :
    StoreFrame [] bytes s ((s.setMem m).setPc npc) :=
  ⟨fun k _ => by simp, h, ⟨rfl, rfl, rfl⟩, ⟨rfl, rfl, rfl⟩⟩

theorem read_writeWord_outside (m : Memory) (p v : Word) {a : Nat} (ha : a ∉ [p, p + 1].map BitVec.toNat) :
    Memory.read (Memory.writeWord m p v) a = Memory.read m a := by
  simp only [List.map_cons, List.map_nil, List.mem_cons, List.not_mem_nil, or_false, not_or] at ha
  rw [Memory.read_writeWord, if_neg ha.2, if_neg ha.1]

/-- Settles O34: ST's store, of a word or of a byte. -/
theorem stStoresAtItsAddress : Obligations.StStoresAtItsAddress := by
  unfold Obligations.StStoresAtItsAddress
  intro rd m s h a p hh ha
  have hexec := exec_st_eq (m := m) (readReg_ok.2 ⟨h, hh, rfl⟩)
  refine ⟨fun hw hroom => ?word, fun hb hroom => ?byte⟩
  case word =>
    rw [memStore_ok.2 ⟨a, ha, .inl ⟨hw, storeWord_room hroom _⟩⟩] at hexec
    refine ⟨_, hexec, ?_, rfl, rfl,
      storeFrame_setMem _ fun k hk => read_writeWord_outside s.mem p _ hk⟩
    exact Memory.readWord_writeWord s.mem p _
  case byte =>
    rw [memStore_ok.2 ⟨a, ha, .inr ⟨hb, storeByte_room hroom _⟩⟩] at hexec
    refine ⟨_, hexec, ?_, rfl, rfl,
      storeFrame_setMem _ fun k hk => ?_⟩
    · exact (Memory.read_write s.mem p.toNat _ _).trans (if_pos rfl)
    · rw [Memory.read_write, if_neg (by simpa using hk)]

/-! ## Results in one register -/

/-- What an instruction that writes a result to one register comes to: the result, its flags, and the frame. -/
theorem aluInto_result {f : Word → Word → Except Stop AluResult} {rd : Reg} {ea : EA} {s : State} {b : Word} {h : Home}
    {r : AluResult} (hh : Reg.home s.flag.p rd = some h) (hb : operand s ea = .ok b) (hf : f (s.get h) b = .ok r) :
    ∃ t, aluInto f rd ea s = .next t ∧ t.get h = r.value ∧ t.flag.c = r.carry ∧ t.flag.v = r.overflow ∧
      FlagsOf (t.get h) t.flag ∧ SameMode s t ∧ t.pc = s.npc (EA.bytes ea) ∧ RegFrame [h] s t := by
  obtain ⟨hmode, hframe⟩ := intoReg_frame s h r (s.npc (EA.bytes ea))
  have hget : (intoReg s h r (s.npc (EA.bytes ea))).get h = r.value := by simp [intoReg]
  exact ⟨_, aluInto_ok hh hb hf, hget, rfl, rfl, hget ▸ flagsOf_withResult s.flag r, hmode, rfl, hframe⟩

theorem getElem_fifteen (a : Word) : a[15] = a.msb := by
  rw [BitVec.msb_eq_getLsbD_last, ← BitVec.getLsbD_eq_getElem]

/-- ADD's overflow by the signs: the operands' agree and the result's differs (R34). -/
theorem addResult_overflow_iff (a b : Word) :
    (addResult a b).overflow = true ↔ a[15] = b[15] ∧ (a + b)[15] ≠ a[15] := by
  simp only [getElem_fifteen, addResult, Bool.and_eq_true, beq_iff_eq, bne_iff_ne]

/-- ADD's overflow by the signed sum. -/
theorem addResult_overflow_iff_range (a b : Word) :
    (addResult a b).overflow = true ↔ a.toInt + b.toInt < -2 ^ 15 ∨ 2 ^ 15 ≤ a.toInt + b.toInt := by
  simp only [addResult, Bool.and_eq_true, beq_iff_eq, bne_iff_ne, BitVec.msb_eq_decide, ne_eq, decide_eq_decide,
    BitVec.toInt_eq_toNat_cond, BitVec.toNat_add]
  have := a.isLt
  have := b.isLt
  omega

/-- Settles O36: the fields of ADD's result. -/
theorem addGivesSumAndFlags : Obligations.AddGivesSumAndFlags := by
  unfold Obligations.AddGivesSumAndFlags
  intro rd ea s b h hh hb
  obtain ⟨t, hexec, hget, hc, hv, hflags, hmode, hpc, hframe⟩ :=
    aluInto_result (f := fun a b => .ok (addResult a b)) hh hb rfl
  refine ⟨t, hexec, ?_, ?_, ?_, ?_, hflags, hmode, hpc, hframe⟩
  · rw [hget]
    exact BitVec.toNat_add _ _
  · rw [hc]
    exact decide_eq_true_iff
  · rw [hv, hget]
    exact addResult_overflow_iff _ _
  · rw [hv]
    exact addResult_overflow_iff_range _ _

theorem subResult_overflow_iff (a b : Word) :
    (subResult a b).overflow = true ↔ a[15] ≠ b[15] ∧ (a - b)[15] ≠ a[15] := by
  simp only [getElem_fifteen, subResult, Bool.and_eq_true, bne_iff_ne]

theorem subResult_overflow_iff_range (a b : Word) :
    (subResult a b).overflow = true ↔ a.toInt - b.toInt < -2 ^ 15 ∨ 2 ^ 15 ≤ a.toInt - b.toInt := by
  simp only [subResult, Bool.and_eq_true, bne_iff_ne, BitVec.msb_eq_decide, ne_eq, decide_eq_decide,
    BitVec.toInt_eq_toNat_cond, BitVec.toNat_sub]
  have := a.isLt
  have := b.isLt
  omega

/-- Settles O37: the fields of SUB's result. -/
theorem subGivesDifferenceAndFlags : Obligations.SubGivesDifferenceAndFlags := by
  unfold Obligations.SubGivesDifferenceAndFlags
  intro rd ea s b h hh hb
  obtain ⟨t, hexec, hget, hc, hv, hflags, hmode, hpc, hframe⟩ :=
    aluInto_result (f := fun a b => .ok (subResult a b)) hh hb rfl
  refine ⟨t, hexec, ?_, ?_, ?_, ?_, hflags, hmode, hpc, hframe⟩
  · rw [hget]
    exact BitVec.toInt_sub
  · rw [hc]
    exact decide_eq_true_iff
  · rw [hv, hget]
    exact subResult_overflow_iff _ _
  · rw [hv]
    exact subResult_overflow_iff_range _ _

/-- A difference's sign and overflow together are the signed order. -/
theorem subResult_signed_iff (a b : Word) :
    (subResult a b).value.msb ≠ (subResult a b).overflow ↔ a.toInt < b.toInt := by
  have hov := subResult_overflow_iff_range a b
  have hsign : (subResult a b).value.msb = true ↔ 2 ^ 15 ≤ (2 ^ 16 - b.toNat + a.toNat) % 2 ^ 16 := by
    simp [subResult, BitVec.msb_eq_decide, BitVec.toNat_sub]
  rw [BitVec.toInt_eq_toNat_cond, BitVec.toInt_eq_toNat_cond] at hov ⊢
  have := a.isLt
  have := b.isLt
  rw [ne_eq, Bool.eq_iff_iff, hsign, hov]
  omega

/-- The state CMP leads to. -/
def compared (s : State) (ea : EA) (a b : Word) : State :=
  (s.setFlag (s.flag.withResult (subResult a b))).setPc (s.npc (EA.bytes ea))

theorem exec_cmp_ok {rd : Reg} {ea : EA} {s : State} {a b : Word} (ha : readReg s rd = .ok a)
    (hb : operand s ea = .ok b) : exec (.cmp rd ea) s = .next (compared s ea a b) :=
  conclude_ok (except_bind_ok.2 ⟨a, ha, except_bind_ok.2 ⟨b, hb, rfl⟩⟩)

/-- Settles O38: CMP's flags are those of the difference. -/
theorem cmpOnlySetsFlags : Obligations.CmpOnlySetsFlags := by
  unfold Obligations.CmpOnlySetsFlags
  intro rd ea s a b ha hb
  exact ⟨compared s ea a b, exec_cmp_ok ha hb, decide_eq_true_iff, subResult_signed_iff a b, subResult_overflow_iff a b,
    flagsOf_withResult s.flag (subResult a b), ⟨rfl, rfl, rfl⟩, rfl, regFrame_flag_pc s _ _⟩

end Sys2Proof.Machine
end

section
/-! PROOFS. Logic, ADDS, multiplication, division and shifts (spec/41_arith_logic.md, spec/42_muldiv.md,
spec/43_shift.md). -/

namespace Sys2Proof.Machine

/-! ## Logic and ADDS -/

/-- AND, OR and XOR by the Boolean function of each bit (R163 to R165). -/
theorem logic_result {g : Word → Word → Word} {q : Bool → Bool → Bool} {rd : Reg} {ea : EA} {s : State} {b : Word}
    {h : Home} (hg : ∀ (x y : Word) (k : Fin 16), (g x y)[k.val] = q x[k.val] y[k.val])
    (hh : Reg.home s.flag.p rd = some h) (hb : operand s ea = .ok b) :
    ∃ t, aluInto (fun x y => .ok (plainResult (g x y))) rd ea s = .next t ∧
      (∀ k : Fin 16, (t.get h)[k.val] = q (s.get h)[k.val] b[k.val]) ∧ t.flag.c = false ∧ t.flag.v = false ∧
      FlagsOf (t.get h) t.flag ∧ SameMode s t ∧ t.pc = s.npc (EA.bytes ea) ∧ RegFrame [h] s t := by
  obtain ⟨t, hexec, hget, hc, hv, hrest⟩ := aluInto_result (f := fun x y => .ok (plainResult (g x y))) hh hb rfl
  refine ⟨t, hexec, fun k => ?_, hc, hv, hrest⟩
  rw [hget]
  exact hg _ _ k

/-- Settles O40: bit by bit. -/
theorem logicGivesBitsAndFlags : Obligations.LogicGivesBitsAndFlags := by
  unfold Obligations.LogicGivesBitsAndFlags
  intro rd ea s b h hh hb p hp
  simp only [List.mem_cons, List.not_mem_nil, or_false] at hp
  rcases hp with rfl | rfl | rfl
  · exact logic_result (g := (· &&& ·)) (fun x y k => by simp) hh hb
  · exact logic_result (g := (· ||| ·)) (fun x y k => by simp) hh hb
  · exact logic_result (g := (· ^^^ ·)) (fun x y k => by simp) hh hb

theorem toNat_doubled (b : Word) : (b + b).toNat = b.toNat * 2 % 2 ^ 16 := by
  rw [BitVec.toNat_add, Nat.mul_two]

/-- The doubled operand's sign is the operand's bit 14. -/
theorem doubled_sign (b : Word) : (b + b)[15] = b[14] := by
  rw [BitVec.getElem_eq_testBit_toNat, BitVec.getElem_eq_testBit_toNat, toNat_doubled, Nat.testBit_mod_two_pow,
    Nat.mul_comm, ← pow_one 2, Nat.testBit_two_pow_mul]
  simp

/-- Settles O41: ADDS is ADD of the doubled operand. -/
theorem addsAddsTheDoubledOperand : Obligations.AddsAddsTheDoubledOperand := by
  unfold Obligations.AddsAddsTheDoubledOperand
  intro rd ea s b h hh hb b2
  have hb2 : b2 = (b + b).toNat := (toNat_doubled b).symm
  obtain ⟨t, hexec, hget, hc, hv, hrest⟩ := aluInto_result (f := fun a b => .ok (addsResult a b)) hh hb rfl
  refine ⟨t, hexec, ?_, ?_, ?_, hrest⟩
  · rw [hget, hb2]
    exact BitVec.toNat_add _ _
  · rw [hc, hb2]
    exact decide_eq_true_iff
  · rw [hv, hget, ← doubled_sign]
    exact addResult_overflow_iff _ _

/-! ## Multiplication and division -/

/-- What an instruction that writes a result to a pair comes to. -/
theorem aluIntoPair_result {f : Word → Word → Word → Except Stop PairResult} {rd rd' : Reg} {ea : EA} {s : State}
    {b : Word} {h h' : Home} {r : PairResult} (hp : Reg.partner rd = some rd') (hh : Reg.home s.flag.p rd = some h)
    (hh' : Reg.home s.flag.p rd' = some h') (hb : operand s ea = .ok b) (hf : f (s.get h') (s.get h) b = .ok r) :
    ∃ t, aluIntoPair f rd ea s = .next t ∧ t.get h = r.low.value ∧ t.get h' = r.high ∧ t.flag.c = r.low.carry ∧
      t.flag.v = r.low.overflow ∧ FlagsOf (t.get h) t.flag ∧ SameMode s t ∧ t.pc = s.npc (EA.bytes ea) ∧
      RegFrame [h, h'] s t := by
  obtain ⟨hmode, hframe⟩ := intoPair_frame s h h' r (s.npc (EA.bytes ea))
  have hne : h ≠ h' := fun he => pair_homes_ne hp s.flag.p (by rw [hh, hh', he])
  have hlow : (intoPair s h h' r (s.npc (EA.bytes ea))).get h = r.low.value := by simp [intoPair, State.get_put, hne]
  have hhigh : (intoPair s h h' r (s.npc (EA.bytes ea))).get h' = r.high := by simp [intoPair]
  exact ⟨_, aluIntoPair_ok hp hh hh' hb hf, hlow, hhigh, rfl, rfl, hlow ▸ flagsOf_withResult s.flag r.low, hmode, rfl,
    hframe⟩

theorem mul_lt_two_words (a b : Word) : a.toNat * b.toNat < 2 ^ 32 :=
  (Nat.mul_lt_mul'' a.isLt b.isLt).trans_eq (by norm_num)

/-- The two words of MULL's result are the product. -/
theorem mullResult_toNat (a b : Word) :
    (mullResult a b).high.toNat * 2 ^ 16 + (mullResult a b).low.value.toNat = a.toNat * b.toNat := by
  have := mul_lt_two_words a b
  simp only [mullResult, plainResult, BitVec.toNat_ofNat]
  omega

/-- Settles O42: MUL's low word, and MULL's two. -/
theorem mulAndMullGiveTheProduct : Obligations.MulAndMullGiveTheProduct := by
  unfold Obligations.MulAndMullGiveTheProduct
  refine ⟨fun rd ea s b h hh hb => ?mul, fun rd rd' ea s b h h' hp hh hh' hb => ?mull⟩
  case mul =>
    obtain ⟨t, hexec, hget, hc, hv, hrest⟩ := aluInto_result (f := fun a b => .ok (mulResult a b)) hh hb rfl
    refine ⟨t, hexec, ?_, hc, hv, hrest⟩
    rw [hget]
    exact BitVec.toNat_ofNat _ _
  case mull =>
    obtain ⟨t, hexec, hlow, hhigh, hc, hv, hrest⟩ :=
      aluIntoPair_result (f := fun _ a b => .ok (mullResult a b)) hp hh hh' hb rfl
    refine ⟨t, hexec, ?_, hc, hv, hrest⟩
    rw [hlow, hhigh]
    exact mullResult_toNat _ _

theorem toNat_word_of_lt {n : Nat} (h : n < 2 ^ 16) : (BitVec.ofNat 16 n).toNat = n := by
  rw [BitVec.toNat_ofNat, Nat.mod_eq_of_lt h]

theorem toNat_pos_of_ne_zero {b : Word} (h : b ≠ 0) : 0 < b.toNat :=
  Nat.pos_of_ne_zero fun h0 => h (BitVec.eq_of_toNat_eq h0)

/-- Settles O43: quotient and remainder fit into a word. -/
theorem divAndModGiveQuotientAndRemainder : Obligations.DivAndModGiveQuotientAndRemainder := by
  unfold Obligations.DivAndModGiveQuotientAndRemainder
  intro rd ea s b h hh hb hb0
  obtain ⟨q, hq, hqget, hqc, hqv, hqrest⟩ := aluInto_result (f := divResult) hh hb (if_neg hb0)
  obtain ⟨m, hm, hmget, hmc, hmv, hmrest⟩ := aluInto_result (f := modResult) hh hb (if_neg hb0)
  have hpos := toNat_pos_of_ne_zero hb0
  have hqn : (q.get h).toNat = (s.get h).toNat / b.toNat := by
    rw [hqget]
    exact toNat_word_of_lt ((Nat.div_le_self _ _).trans_lt (s.get h).isLt)
  have hmn : (m.get h).toNat = (s.get h).toNat % b.toNat := by
    rw [hmget]
    exact toNat_word_of_lt ((Nat.mod_le _ _).trans_lt (s.get h).isLt)
  refine ⟨q, m, hq, hm, ?_, ?_, fun t ht => ?_⟩
  · rw [hqn, hmn, Nat.div_add_mod]
  · rw [hmn]
    exact Nat.mod_lt _ hpos
  · simp only [List.mem_cons, List.not_mem_nil, or_false] at ht
    rcases ht with rfl | rfl
    · exact ⟨hqc, hqv, hqrest⟩
    · exact ⟨hmc, hmv, hmrest⟩

/-- A register that heads a pair has a partner, and both lead to registers in either mode (R173). -/
theorem partner_of_headsPair {rd : Reg} (h : rd.headsPair = true) (p : Bool) :
    ∃ rd' k k', Reg.partner rd = some rd' ∧ Reg.home p rd = some k ∧ Reg.home p rd' = some k' := by
  cases rd with
  | g n =>
    have hn : n.val % 2 = 0 := by simpa [Reg.headsPair] using h
    by_cases hlt : n.val + 1 < 12
    · exact ⟨.g ⟨n.val + 1, hlt⟩, _, _, by simp [Reg.partner, hn, hlt], rfl, rfl⟩
    · exact ⟨.fp, _, _, by simp [Reg.partner, hn, hlt], rfl, rfl⟩
  | fp => exact ⟨.sp, _, _, rfl, rfl, rfl⟩
  | sp | usp | pc => cases h

/-- Settles O44: the division itself raises the exception. -/
theorem divisionByZeroTraps : Obligations.DivisionByZeroTraps := by
  unfold Obligations.DivisionByZeroTraps
  intro rd ea s hrd hb
  obtain ⟨k, hk⟩ := home_of_ne_pc hrd s.flag.p
  refine ⟨?_, ?_, fun hpair => ?_⟩
  · exact aluInto_eq (f := divResult) hk hb
  · exact aluInto_eq (f := modResult) hk hb
  · obtain ⟨rd', j, j', hp, hj, hj'⟩ := partner_of_headsPair hpair s.flag.p
    exact aluIntoPair_eq (f := divlResult) hp hj hj' hb

theorem divl_fits_iff {high low b : Word} (hb : 0 < b.toNat) :
    (high.toNat * 2 ^ 16 + low.toNat) / b.toNat < 2 ^ 16 ↔ high.toNat < b.toNat := by
  have := low.isLt
  rw [Nat.div_lt_iff_lt_mul hb]
  omega

/-- DIVL's result where the quotient fits: its quotient and its remainder (R175). -/
theorem divlResult_of_fits {high low b : Word} (h : high.toNat < b.toNat) :
    ∃ r, divlResult high low b = .ok r ∧ r.low.carry = false ∧ r.low.overflow = false ∧
      high.toNat * 2 ^ 16 + low.toNat = b.toNat * r.low.value.toNat + r.high.toNat ∧ r.high.toNat < b.toNat := by
  have hpos : 0 < b.toNat := by omega
  have hb0 : b ≠ 0 := by rintro rfl; simp at hpos
  have hfit := (divl_fits_iff (low := low) hpos).2 h
  have hrem := Nat.mod_lt (high.toNat * 2 ^ 16 + low.toNat) hpos
  refine ⟨_, (if_neg hb0).trans (if_pos hfit), rfl, rfl, ?_, ?_⟩
  · simp only [plainResult, toNat_word_of_lt hfit, toNat_word_of_lt (hrem.trans b.isLt)]
    exact (Nat.div_add_mod _ _).symm
  · simpa only [toNat_word_of_lt (hrem.trans b.isLt)] using hrem

/-- Settles O45: by DIVL's result where the quotient fits. -/
theorem divlGivesQuotientAndRemainder : Obligations.DivlGivesQuotientAndRemainder := by
  unfold Obligations.DivlGivesQuotientAndRemainder
  intro rd rd' ea s b h h' hp hh hh' hb hlt
  obtain ⟨r, hr, hrc, hrv, hsum, hrem⟩ := divlResult_of_fits (low := s.get h) hlt
  obtain ⟨t, hexec, hlow, hhigh, hc, hv, hrest⟩ := aluIntoPair_result (f := divlResult) hp hh hh' hb hr
  exact ⟨t, hexec, by rw [hlow, hhigh, hsum], by rw [hhigh]; exact hrem, hc.trans hrc, hv.trans hrv, hrest⟩

/-- Settles O46: a quotient by an operand at or below the high word does not fit. -/
theorem divlOverflowIsRefused : Obligations.DivlOverflowIsRefused := by
  unfold Obligations.DivlOverflowIsRefused
  intro rd rd' ea s b h h' hp hh hh' hb hb0 hle
  have hfit := (divl_fits_iff (low := s.get h) (high := s.get h') (toNat_pos_of_ne_zero hb0)).not.2 (by omega)
  have hdiv : divlResult (s.get h') (s.get h) b = .error (.refuse .quotientOverflow) := (if_neg hb0).trans (if_neg hfit)
  exact (aluIntoPair_eq (f := divlResult) hp hh hh' hb).trans (by rw [hdiv]; rfl)

/-! ## Shifts -/

/-- A shift by 0 to 15 (R180 to R183). -/
theorem shiftResult_small {n : Nat} {kind : ShiftKind} {value : Word → Nat → Word} {carry : Word → Nat → Bool}
    {a count : Word} (h : count.toNat < 16) : shiftResult n kind value carry a count =
      { value := value a count.toNat, carry := decide (count.toNat ≠ 0) && carry a count.toNat, overflow := false } :=
  if_pos h

theorem shiftResult_overflow (n : Nat) (kind : ShiftKind) (value : Word → Nat → Word) (carry : Word → Nat → Bool)
    (a count : Word) : (shiftResult n kind value carry a count).overflow = false := by
  unfold shiftResult
  split <;> rfl

/-- The last bit out of bit 15 is bit 16 of the product; a shift by 0 moves none out. -/
theorem leftCarry_iff (a : Word) {k : Nat} (h : k < 16) :
    (decide (k ≠ 0) && leftCarry a k) = true ↔ a.toNat * 2 ^ k / 2 ^ 16 % 2 = 1 := by
  have hbit : a.toNat * 2 ^ k / 2 ^ 16 % 2 = 1 ↔ a.getLsbD (16 - k) = true := by
    rw [← BitVec.testBit_toNat, Nat.testBit_eq_decide_div_mod_eq, decide_eq_true_iff]
    have hsplit : 2 ^ 16 = 2 ^ (16 - k) * 2 ^ k := by rw [← Nat.pow_add, Nat.sub_add_cancel h.le]
    rw [hsplit, Nat.mul_div_mul_right _ _ (Nat.two_pow_pos k)]
  rw [hbit, leftCarry, Bool.and_eq_true, decide_eq_true_iff, and_iff_right_of_imp]
  rintro hb rfl
  simp at hb

/-- The last bit out of bit 0. -/
theorem rightCarry_iff (a : Word) (k : Nat) :
    (decide (k ≠ 0) && rightCarry a k) = true ↔ k ≠ 0 ∧ a.toNat / 2 ^ (k - 1) % 2 = 1 := by
  rw [rightCarry, Bool.and_eq_true, decide_eq_true_iff, ← BitVec.testBit_toNat, Nat.testBit_eq_decide_div_mod_eq,
    decide_eq_true_iff]

section Shifts

variable {rd : Reg} {ea : EA} {s : State} {n : Word} {h : Home}

/-- A left shift by 0 to 15, of either kind. -/
theorem leftShift_result (kind : ShiftKind) (hh : Reg.home s.flag.p rd = some h) (hn : operand s ea = .ok n)
    (hlt : n.toNat < 16) :
    ∃ t, aluInto (fun a b => .ok (shiftResult s.clock kind (fun a k => a <<< k) leftCarry a b)) rd ea s = .next t ∧
      (t.get h).toNat = (s.get h).toNat * 2 ^ n.toNat % 2 ^ 16 ∧
      (t.flag.c = true ↔ (s.get h).toNat * 2 ^ n.toNat / 2 ^ 16 % 2 = 1) ∧ t.flag.v = false ∧
      FlagsOf (t.get h) t.flag ∧ SameMode s t ∧ t.pc = s.npc (EA.bytes ea) ∧ RegFrame [h] s t := by
  obtain ⟨t, hexec, hget, hc, hv, hrest⟩ := aluInto_result
    (f := fun a b => .ok (shiftResult s.clock kind (fun a k => a <<< k) leftCarry a b)) hh hn rfl
  rw [shiftResult_small hlt] at hget hc hv
  refine ⟨t, hexec, ?_, ?_, hv, hrest⟩
  · rw [hget, BitVec.toNat_shiftLeft, Nat.shiftLeft_eq]
  · rw [hc]
    exact leftCarry_iff _ hlt

/-- A right shift by 0 to 15, of either kind. -/
theorem rightShift_result (kind : ShiftKind) (value : Word → Nat → Word) (hh : Reg.home s.flag.p rd = some h)
    (hn : operand s ea = .ok n) (hlt : n.toNat < 16) :
    ∃ t, aluInto (fun a b => .ok (shiftResult s.clock kind value rightCarry a b)) rd ea s = .next t ∧
      t.get h = value (s.get h) n.toNat ∧
      (t.flag.c = true ↔ n.toNat ≠ 0 ∧ (s.get h).toNat / 2 ^ (n.toNat - 1) % 2 = 1) ∧ t.flag.v = false ∧
      FlagsOf (t.get h) t.flag ∧ SameMode s t ∧ t.pc = s.npc (EA.bytes ea) ∧ RegFrame [h] s t := by
  obtain ⟨t, hexec, hget, hc, hv, hrest⟩ := aluInto_result
    (f := fun a b => .ok (shiftResult s.clock kind value rightCarry a b)) hh hn rfl
  rw [shiftResult_small hlt] at hget hc hv
  refine ⟨t, hexec, hget, ?_, hv, hrest⟩
  rw [hc]
  exact rightCarry_iff _ _

/-- A shift by any count, of any kind. -/
theorem shift_result (kind : ShiftKind) (value : Word → Nat → Word) (carry : Word → Nat → Bool)
    (hh : Reg.home s.flag.p rd = some h) (hn : operand s ea = .ok n) :
    ∃ t, aluInto (fun a b => .ok (shiftResult s.clock kind value carry a b)) rd ea s = .next t ∧ t.flag.v = false ∧
      FlagsOf (t.get h) t.flag ∧ SameMode s t ∧ t.pc = s.npc (EA.bytes ea) ∧ RegFrame [h] s t := by
  obtain ⟨t, hexec, -, -, hv, hrest⟩ := aluInto_result
    (f := fun a b => .ok (shiftResult s.clock kind value carry a b)) hh hn rfl
  exact ⟨t, hexec, hv.trans (shiftResult_overflow _ _ _ _ _ _), hrest⟩

end Shifts

/-- Settles O47: both left shifts are the one shift of the words. -/
theorem leftShiftsMultiply : Obligations.LeftShiftsMultiply := by
  unfold Obligations.LeftShiftsMultiply
  intro rd ea s n h hh hn hlt i hi
  simp only [List.mem_cons, List.not_mem_nil, or_false] at hi
  rcases hi with rfl | rfl
  · exact leftShift_result .shla hh hn hlt
  · exact leftShift_result .shll hh hn hlt

/-- Settles O48: a right shift is the floor of the division by a power of two. -/
theorem rightShiftsDivide : Obligations.RightShiftsDivide := by
  unfold Obligations.RightShiftsDivide
  intro rd ea s n h hh hn hlt
  obtain ⟨a, ha, haget, harest⟩ := rightShift_result .shra BitVec.sshiftRight hh hn hlt
  obtain ⟨l, hl, hlget, hlrest⟩ := rightShift_result .shrl (fun a k => a >>> k) hh hn hlt
  refine ⟨a, l, ha, hl, ?_, ?_, fun t ht => ?_⟩
  · rw [haget, BitVec.toInt_sshiftRight, Int.shiftRight_eq_div_pow]
    norm_cast
  · rw [hlget, BitVec.toNat_ushiftRight, Nat.shiftRight_eq_div_pow]
  · simp only [List.mem_cons, List.not_mem_nil, or_false] at ht
    rcases ht with rfl | rfl
    · exact harest
    · exact hlrest

/-- Settles O49: a shift by any count completes with V = 0. -/
theorem largeShiftsGoOn : Obligations.LargeShiftsGoOn := by
  unfold Obligations.LargeShiftsGoOn
  intro rd ea s n h hh hn _ i hi
  simp only [List.mem_cons, List.not_mem_nil, or_false] at hi
  rcases hi with rfl | rfl | rfl | rfl
  · exact shift_result .shla _ _ hh hn
  · exact shift_result .shll _ _ hh hn
  · exact shift_result .shra _ _ hh hn
  · exact shift_result .shrl _ _ hh hn

end Sys2Proof.Machine
end

section
/-! PROOFS. Jumps and the stack (spec/44_jump_call.md, spec/46_stack_return.md). -/

namespace Sys2Proof.Machine

/-! ## Jumps -/

/-- A jump goes by its condition. -/
theorem goes_of_jumpIf {i : Instr} {cond : Bool} {tgt : Target} {s : State} {x : Word} {taken : Prop}
    (hx : targetAddress s tgt = .ok x) (hi : exec i s = jumpIf cond tgt s) (hcond : cond = true ↔ taken) :
    Goes i (Target.bytes tgt) x taken s := by
  rw [Goes, hi, jumpIf_ok hx, ← hcond]
  refine ⟨fun h => ?_, fun h => ?_⟩
  · rw [if_pos h]
    rfl
  · rw [if_neg h]
    rfl

theorem Goes.congr {i : Instr} {n : Nat} {x : Word} {p q : Prop} {s : State} (h : Goes i n x p s) (hpq : p ↔ q) :
    Goes i n x q s := by
  rwa [Goes, ← hpq]

theorem signedLess_iff (f : Flag) : f.signedLess = true ↔ f.s ≠ f.v := by simp [Flag.signedLess]

theorem signedLessEq_iff (f : Flag) : f.signedLessEq = true ↔ f.z = true ∨ f.s ≠ f.v := by
  simp [Flag.signedLessEq, signedLess_iff]

theorem lowerSame_iff (f : Flag) : f.lowerSame = true ↔ f.z = true ∨ f.c = true := by simp [Flag.lowerSame]

/-- Settles O50: the condition of each jump. -/
theorem jumpsGoByTheirConditions : Obligations.JumpsGoByTheirConditions := by
  unfold Obligations.JumpsGoByTheirConditions
  intro tgt s x hx jump f
  refine ⟨?jz, ?jc, ?jm, ?jo, ?jgt, ?jge, ?jle, ?jlt, ?jnz, ?jnc, ?jnm, ?jno, ?jhi, ?jls, ?jmp⟩
  case jz => exact goes_of_jumpIf hx rfl Iff.rfl
  case jc => exact goes_of_jumpIf hx rfl Iff.rfl
  case jm => exact goes_of_jumpIf hx rfl Iff.rfl
  case jo => exact goes_of_jumpIf hx rfl Iff.rfl
  case jgt => exact goes_of_jumpIf hx rfl (by rw [Bool.not_eq_true', ← Bool.not_eq_true, signedLessEq_iff]; simp [f])
  case jge => exact goes_of_jumpIf hx rfl (by rw [Bool.not_eq_true', ← Bool.not_eq_true, signedLess_iff, not_not])
  case jle => exact goes_of_jumpIf hx rfl (signedLessEq_iff f)
  case jlt => exact goes_of_jumpIf hx rfl (signedLess_iff f)
  case jnz => exact goes_of_jumpIf hx rfl (by rw [Bool.not_eq_true'])
  case jnc => exact goes_of_jumpIf hx rfl (by rw [Bool.not_eq_true'])
  case jnm => exact goes_of_jumpIf hx rfl (by rw [Bool.not_eq_true'])
  case jno => exact goes_of_jumpIf hx rfl (by rw [Bool.not_eq_true'])
  case jhi => exact goes_of_jumpIf hx rfl (by rw [Bool.not_eq_true', ← Bool.not_eq_true, lowerSame_iff]; simp [f])
  case jls => exact goes_of_jumpIf hx rfl (lowerSame_iff f)
  case jmp => exact goes_of_jumpIf hx rfl (by simp)

/-- Settles O39: the jumps' conditions on the flags of the difference. -/
theorem compareAndJumpTable : Obligations.CompareAndJumpTable := by
  unfold Obligations.CompareAndJumpTable
  intro rd ea s a b ha hb
  refine ⟨compared s ea a b, exec_cmp_ok ha hb, ?_⟩
  intro tgt x hx jump
  have hz : (compared s ea a b).flag.z = true ↔ a = b := decide_eq_true_iff.trans sub_eq_zero
  have hc : (compared s ea a b).flag.c = true ↔ a.toNat < b.toNat := decide_eq_true_iff
  have hlt : (compared s ea a b).flag.s ≠ (compared s ea a b).flag.v ↔ a.toInt < b.toInt := subResult_signed_iff a b
  have hge : (compared s ea a b).flag.s = (compared s ea a b).flag.v ↔ b.toInt ≤ a.toInt := by
    rw [← not_ne_iff, hlt, not_lt]
  have hzi : (compared s ea a b).flag.z = true ↔ a.toInt = b.toInt := hz.trans BitVec.toInt_inj.symm
  have hzn : (compared s ea a b).flag.z = true ↔ a.toNat = b.toNat := hz.trans BitVec.toNat_inj.symm
  obtain ⟨jz, jc, -, -, jgt, jge, jle, jlt, jnz, jnc, -, -, jhi, jls, -⟩ :=
    jumpsGoByTheirConditions tgt (compared s ea a b) x hx
  refine ⟨jgt.congr ?_, jge.congr hge, jle.congr ?_, jlt.congr hlt, jhi.congr ?_, jnc.congr ?_, jls.congr ?_, jc.congr hc,
    jz.congr hz, jnz.congr ?_⟩
  · rw [← Bool.not_eq_true, hzi, hge]
    omega
  · rw [hzi, hlt]
    omega
  · rw [← Bool.not_eq_true, ← Bool.not_eq_true, hzn, hc]
    omega
  · rw [← Bool.not_eq_true, hc, not_lt]
  · rw [hzn, hc]
    omega
  · rw [← Bool.not_eq_true, hz]

/-! ## The stack instructions by their one access -/

/-- The state with a word pushed at the physical address `p`. -/
def pushed (s : State) (p v : Word) : State := (s.setMem (Memory.writeWord s.mem p v)).put (s.sp - 2) s.spHome

theorem pushWord_room {s : State} {p : Word} (h : WordStore s (s.sp - 2) p) (v : Word) :
    pushWord s v = .ok (pushed s p v) := by
  rw [pushWord, storeWord_room h]
  rfl

/-- What a push leaves alone, PC aside. -/
theorem pushed_frame (s : State) (p v npc : Word) : StoreFrame [s.spHome] [p, p + 1] s ((pushed s p v).setPc npc) := by
  refine ⟨fun k hk => ?_, fun a ha => ?_, ?_, ?_⟩
  · simpa [pushed] using sameRegs_put (s.setMem _) (s.sp - 2) s.spHome k hk
  · simpa [pushed] using read_writeWord_outside s.mem p v ha
  · simp [SameIo, pushed]
  · simp [SameRun, pushed]

@[simp] theorem pushed_flag (s : State) (p v : Word) : (pushed s p v).flag = s.flag := by simp [pushed]

@[simp] theorem pushed_spHome (s : State) (p v : Word) : (pushed s p v).get s.spHome = s.sp - 2 := by simp [pushed]

theorem pushed_readWord (s : State) (p v : Word) : Memory.readWord (pushed s p v).mem p = v := by
  simp [pushed, Memory.readWord_writeWord]

section StackInstructions

variable {s : State} {rd : Reg} {h : Home}

/-- PUSH comes to its push. -/
theorem exec_push_eq (hh : Reg.home s.flag.p rd = some h) (hne : h ≠ s.spHome) :
    exec (.push rd) s = conclude s (s.npc 2) ((pushWord s (s.get h)).map (·.setPc (s.npc 2))) := by
  have hown : notOwnSp s rd = .ok () := notOwnSp_ok.2 (by rw [hh]; simpa using hne)
  have hread : readReg s rd = .ok (s.get h) := readReg_ok.2 ⟨h, hh, rfl⟩
  simp only [exec, execPush, hown, hread, bind, Except.bind]
  cases pushWord s (s.get h) <;> rfl

/-- CALL comes to its push. -/
theorem exec_call_eq {tgt : Target} {x : Word} (hx : targetAddress s tgt = .ok x) :
    exec (.call tgt) s =
      conclude s (s.npc (Target.bytes tgt)) ((pushWord s (s.npc (Target.bytes tgt))).map (·.setPc x)) := by
  simp only [exec, execCall, hx, bind, Except.bind]
  cases pushWord s (s.npc (Target.bytes tgt)) <;> rfl

/-- The state with the word at SP popped. -/
def raised (s : State) : State := s.put (s.sp + 2) s.spHome

/-- POP comes to its load. -/
theorem exec_pop_eq (hh : Reg.home s.flag.p rd = some h) (hne : h ≠ s.spHome) :
    exec (.pop rd) s = conclude s (s.npc 2) ((loadWord s s.sp).map fun v => ((raised s).put v h).setPc (s.npc 2)) := by
  have hown : notOwnSp s rd = .ok () := notOwnSp_ok.2 (by rw [hh]; simpa using hne)
  have hwrite : ∀ v, writeReg (raised s) rd v = .ok ((raised s).put v h) := fun v =>
    writeReg_ok.2 ⟨h, by simpa [raised] using hh, rfl⟩
  simp only [raised] at hwrite
  simp only [exec, execPop, popWord, hown, bind, Except.bind]
  cases loadWord s s.sp with
  | ok v => simp only [Except.map, hwrite, raised]
  | error e => rfl

/-- RET comes to its load. -/
theorem exec_ret_eq : exec .ret s = conclude s (s.npc 2) ((loadWord s s.sp).map fun v => (raised s).setPc v) := by
  simp only [exec, execRet, popWord, bind, Except.bind]
  cases loadWord s s.sp <;> rfl

end StackInstructions

/-- Settles O51: CALL's push, where its word can be stored. -/
theorem callPushesTheReturnAddress : Obligations.CallPushesTheReturnAddress := by
  unfold Obligations.CallPushesTheReturnAddress
  intro tgt s x p hx hroom
  refine ⟨(pushed s p (s.npc (Target.bytes tgt))).setPc x, ?_, rfl, pushed_readWord s p _, by simp, by simp,
    pushed_frame s p _ x⟩
  rw [exec_call_eq hx, pushWord_room hroom]
  rfl

/-- Settles O52: PUSH's push, where its word can be stored. -/
theorem pushStoresBelowSp : Obligations.PushStoresBelowSp := by
  unfold Obligations.PushStoresBelowSp
  intro rd s h p hh hne hroom
  refine ⟨(pushed s p (s.get h)).setPc (s.npc 2), ?_, pushed_readWord s p _, by simp, by simp, rfl, pushed_frame s p _ _⟩
  rw [exec_push_eq hh hne, pushWord_room hroom]
  rfl

/-- Settles O54: POP's and RET's load. -/
theorem popAndRetLoadFromSp : Obligations.PopAndRetLoadFromSp := by
  unfold Obligations.PopAndRetLoadFromSp
  intro s v hv
  refine ⟨fun rd h hh hne => ⟨((raised s).put v h).setPc (s.npc 2), ?_, by simp, ?_, by simp [raised], rfl,
    ?_, ?_, ?_, ?_⟩, ⟨(raised s).setPc v, ?_, rfl, by simp [raised], by simp [raised], regFrame_put s _ _ _⟩⟩
  · rw [exec_pop_eq hh hne, hv]
    rfl
  · rw [State.get_setPc, State.get_put_ne _ _ hne.symm, raised, State.get_put_same]
  · intro k hk
    simp only [List.mem_cons, List.not_mem_nil, or_false, not_or] at hk
    rw [State.get_setPc, State.get_put_ne _ _ hk.1, raised, State.get_put_ne _ _ hk.2]
  · intro a; simp [raised]
  · simp [SameIo, raised]
  · simp [SameRun, raised]
  · rw [exec_ret_eq, hv]
    rfl

/-! ## Pushed and popped again -/

/-- The word pushed is the next one popped. -/
theorem loadWord_pushed {s : State} {p : Word} (hroom : WordStore s (s.sp - 2) p) (v npc : Word) :
    loadWord ((pushed s p v).setPc npc) ((pushed s p v).setPc npc).sp = .ok v := by
  obtain ⟨h0, hp, -, -⟩ := hroom
  have hsp : ((pushed s p v).setPc npc).sp = s.sp - 2 := by
    have hhome : ((pushed s p v).setPc npc).spHome = s.spHome := by simp [pushed]
    rw [State.sp, hhome, State.get_setPc, pushed_spHome]
  have hphys : physical ((pushed s p v).setPc npc) (s.sp - 2) = .ok p := by
    rw [← hp]
    simp [physical, pushed]
  rw [hsp, loadWord_reached hphys h0]
  exact congrArg Except.ok (pushed_readWord s p v)

/-- SP is raised to where the push found it. -/
theorem raised_pushed (s : State) (p v npc : Word) :
    raised ((pushed s p v).setPc npc) = (s.setMem (Memory.writeWord s.mem p v)).setPc npc := by
  have hback : s.sp - 2 + 2 = s.sp := by bv_omega
  have hhome : ((pushed s p v).setPc npc).spHome = s.spHome := by simp [pushed]
  have hput : ∀ (u : State) (w : Word) (k : Home), (u.setPc npc).put w k = (u.put w k).setPc npc := fun u w k => by
    cases k <;> rfl
  rw [raised, State.sp, hhome, State.get_setPc, pushed_spHome, hback, hput, pushed, State.put_put, State.sp]
  exact congrArg (State.setPc · npc) (State.put_get (s.setMem _) s.spHome)

/-- Settles O55: the load finds the word stored, and SP comes back. -/
theorem stackUndoesItself : Obligations.StackUndoesItself := by
  unfold Obligations.StackUndoesItself
  intro s p hroom
  refine ⟨fun rd rd' h h' hh hh' hne hne' => ?pushPop, fun tgt x hx => ?callRet⟩
  case pushPop =>
    have hpush : exec (.push rd) s = .next ((pushed s p (s.get h)).setPc (s.npc 2)) := by
      rw [exec_push_eq hh hne, pushWord_room hroom]
      rfl
    have hhome : ((pushed s p (s.get h)).setPc (s.npc 2)).spHome = s.spHome := by simp [pushed]
    have hpop := exec_pop_eq (s := (pushed s p (s.get h)).setPc (s.npc 2)) (by simpa using hh') (hhome ▸ hne')
    rw [loadWord_pushed hroom, raised_pushed] at hpop
    refine ⟨_, _, hpush, hpop, by simp, by simp, ?_, ?_, ?_, ?_, ?_⟩
    · simp only [State.setPc_pc, State.npc]
      bv_omega
    · intro k hk
      simpa using sameRegs_put ((s.setMem (Memory.writeWord s.mem p (s.get h))).setPc (s.npc 2)) (s.get h) h' k hk
    · intro a ha
      simpa using read_writeWord_outside s.mem p (s.get h) ha
    · simp [SameIo]
    · simp [SameRun]
  case callRet =>
    have hcall : exec (.call tgt) s = .next ((pushed s p (s.npc (Target.bytes tgt))).setPc x) := by
      rw [exec_call_eq hx, pushWord_room hroom]
      rfl
    have hret := exec_ret_eq (s := (pushed s p (s.npc (Target.bytes tgt))).setPc x)
    rw [loadWord_pushed hroom, raised_pushed] at hret
    exact ⟨_, _, hcall, hret, rfl, rfl, storeFrame_setMem _ fun a ha => read_writeWord_outside s.mem p _ ha⟩

end Sys2Proof.Machine
end

section
/-! PROOFS. Exceptions of operands, stores and stack accesses, taken with nothing changed, and what is refused by name
(spec/60_exceptions.md sections 2 and 4, spec/93_implementation_defined.md). -/

namespace Sys2Proof.Machine

/-! ## Steps that stop -/

theorem except_bind_error {ε α β : Type} {x : Except ε α} {f : α → Except ε β} {e : ε} :
    (x >>= f) = .error e ↔ x = .error e ∨ ∃ a, x = .ok a ∧ f a = .error e := by
  cases x <;> simp [bind, Except.bind]

theorem except_map_error {ε α β : Type} {x : Except ε α} {f : α → β} {e : ε} : x.map f = .error e ↔ x = .error e := by
  cases x <;> simp [Except.map]

/-! ## Operands that cannot be read -/

section OperandFaults

variable {s : State} {rd : Reg} {ea : EA} {c : Cause} (hb : operand s ea = .error (.trap c))
include hb

theorem aluInto_operand_trap (f : Word → Word → Except Stop AluResult) (hrd : rd ≠ .pc) :
    aluInto f rd ea s = enterTrap c (s.npc (EA.bytes ea)) s := by
  obtain ⟨k, hk⟩ := home_of_ne_pc hrd s.flag.p
  have hread : readReg s rd = .ok (s.get k) := readReg_ok.2 ⟨k, hk, rfl⟩
  rw [aluInto, hread, hb]
  rfl

theorem aluIntoPair_operand_trap (f : Word → Word → Word → Except Stop PairResult) (hrd : rd.headsPair = true) :
    aluIntoPair f rd ea s = enterTrap c (s.npc (EA.bytes ea)) s := by
  obtain ⟨rd', k, k', hp, hk, hk'⟩ := partner_of_headsPair hrd s.flag.p
  have hread : readReg s rd = .ok (s.get k) := readReg_ok.2 ⟨k, hk, rfl⟩
  have hread' : readReg s rd' = .ok (s.get k') := readReg_ok.2 ⟨k', hk', rfl⟩
  simp only [aluIntoPair, pairOf_ok.2 hp, bind, Except.bind, hread, hread', hb]
  rfl

theorem execCmp_operand_trap (hrd : rd ≠ .pc) : execCmp rd ea s = enterTrap c (s.npc (EA.bytes ea)) s := by
  obtain ⟨k, hk⟩ := home_of_ne_pc hrd s.flag.p
  have hread : readReg s rd = .ok (s.get k) := readReg_ok.2 ⟨k, hk, rfl⟩
  rw [execCmp, hread, hb]
  rfl

theorem execLd_operand_trap : execLd rd ea s = enterTrap c (s.npc (EA.bytes ea)) s := conclude_bind_trap hb

end OperandFaults

/-! ## Stores -/

theorem memStore_of_isWord {s : State} {m : MemEA} {a : Word} (hw : MemEA.isWord m = true) (ha : memAddress s m = .ok a)
    (v : Word) : memStore s m v = storeWord s a v := by
  rw [memStore, ha]
  cases m with
  | direct d | indexed d rx | fpRel d4 | indirect rx => rfl
  | byteIndirect rx => cases hw

theorem memStore_of_isByte {s : State} {m : MemEA} {a : Word} (hb : MemEA.isWord m = false)
    (ha : memAddress s m = .ok a) (v : Word) : memStore s m v = storeByte s a (loByte v) := by
  rw [memStore, ha]
  cases m with
  | direct d | indexed d rx | fpRel d4 | indirect rx => cases hb
  | byteIndirect rx => rfl

/-- An ST whose store raises an exception. -/
theorem exec_st_trap {s : State} {rd : Reg} {m : MemEA} {v : Word} {c : Cause} (hv : readReg s rd = .ok v)
    (hst : memStore s m v = .error (.trap c)) : exec (.st rd m) s = enterTrap c (s.npc (MemEA.bytes m)) s := by
  rw [exec_st_eq hv, hst]
  rfl

theorem readReg_of_ne_pc {rd : Reg} (h : rd ≠ .pc) (s : State) : ∃ v, readReg s rd = .ok v := by
  obtain ⟨k, hk⟩ := home_of_ne_pc h s.flag.p
  exact ⟨s.get k, readReg_ok.2 ⟨k, hk, rfl⟩⟩

/-- Settles O30: the shapes of the meanings stop at the operand's or the store's exception. -/
theorem operandFaultsTrapPrecisely : Obligations.OperandFaultsTrapPrecisely := by
  unfold Obligations.OperandFaultsTrapPrecisely
  refine ⟨fun s rd ea c hrd hb => ⟨fun i hi => ?one, fun hpair i hi => ?pair⟩,
    fun s rd m v c hv hst => exec_st_trap hv hst,
    fun s rd m a hrd ha => ⟨fun hw hodd => ?odd, fun heven hp hen hlim => ?beyond⟩⟩
  case one =>
    simp only [List.mem_cons, List.not_mem_nil, or_false] at hi
    rcases hi with rfl | rfl | rfl | rfl | hi
    · exact execLd_operand_trap hb
    · exact aluInto_operand_trap hb _ hrd
    · exact aluInto_operand_trap hb _ hrd
    · exact execCmp_operand_trap hb hrd
    · rcases hi with rfl | rfl | rfl | rfl | rfl | rfl | rfl | rfl | rfl | rfl | rfl <;>
        exact aluInto_operand_trap hb _ hrd
  case pair =>
    simp only [List.mem_cons, List.not_mem_nil, or_false] at hi
    rcases hi with rfl | rfl <;> exact aluIntoPair_operand_trap hb _ hpair
  case odd =>
    obtain ⟨v, hv⟩ := readReg_of_ne_pc hrd s
    exact exec_st_trap hv ((memStore_of_isWord hw ha v).trans (storeWord_odd hodd v))
  case beyond =>
    obtain ⟨v, hv⟩ := readReg_of_ne_pc hrd s
    refine exec_st_trap hv ?_
    cases hw : MemEA.isWord m with
    | true => exact (memStore_of_isWord hw ha v).trans (storeWord_beyond hp hen hlim (heven hw) v)
    | false => exact (memStore_of_isByte hw ha v).trans (storeByte_beyond hp hen hlim _)

/-! ## Stack accesses -/

theorem pushWord_error {s : State} {v : Word} {e : Stop} (h : storeWord s (s.sp - 2) v = .error e) :
    pushWord s v = .error e := by
  rw [pushWord, h]
  rfl

/-- A return whose second word cannot be read. -/
theorem exec_reti_second_trap {s : State} {f : Word} {c : Cause} (hf : loadWord s s.sp = .ok f)
    (hp : loadWord (s.interleave .secondPop) (s.sp + 2) = .error (.trap c)) :
    exec .reti s = enterTrap c (s.npc 2) s := by
  have hret : returnFromTrap s = .error (.trap c) := by
    rw [returnFromTrap_eq, hf]
    exact except_map_error.2 hp
  simp only [exec, execReti, hret]
  rfl

theorem exec_reti_first_trap {s : State} {c : Cause} (hf : loadWord s s.sp = .error (.trap c)) :
    exec .reti s = enterTrap c (s.npc 2) s := by
  have hret : returnFromTrap s = .error (.trap c) := by
    rw [returnFromTrap_eq, hf]
    rfl
  simp only [exec, execReti, hret]
  rfl

/-- PUSH and CALL, where their store raises an exception. -/
theorem push_and_call_trap {s : State} {c : Cause} (hst : ∀ v, storeWord s (s.sp - 2) v = .error (.trap c)) :
    (∀ rd h, Reg.home s.flag.p rd = some h → h ≠ s.spHome → exec (.push rd) s = enterTrap c (s.pc + 2) s) ∧
    (∀ tgt x, targetAddress s tgt = .ok x → exec (.call tgt) s = enterTrap c (s.npc (Target.bytes tgt)) s) := by
  refine ⟨fun rd h hh hne => ?_, fun tgt x hx => ?_⟩
  · rw [exec_push_eq hh hne, pushWord_error (hst _)]
    rfl
  · rw [exec_call_eq hx, pushWord_error (hst _)]
    rfl

/-- POP, RET and RETI, where their load raises an exception. -/
theorem pop_and_ret_trap {s : State} {c : Cause} (hld : loadWord s s.sp = .error (.trap c)) :
    (∀ rd h, Reg.home s.flag.p rd = some h → h ≠ s.spHome → exec (.pop rd) s = enterTrap c (s.pc + 2) s) ∧
    exec .ret s = enterTrap c (s.pc + 2) s ∧ exec .reti s = enterTrap c (s.pc + 2) s := by
  refine ⟨fun rd h hh hne => ?_, ?_, exec_reti_first_trap hld⟩
  · rw [exec_pop_eq hh hne, hld]
    rfl
  · rw [exec_ret_eq, hld]
    rfl

theorem bit0_sub_two_odd {a : Word} (h : a[0] = true) : (a - 2)[0] = true := by
  rw [← Bool.not_eq_false, word_even_iff] at h ⊢
  bv_omega

/-- Settles O56: by the first access that faults. -/
theorem stackAccessFaultsTrap : Obligations.StackAccessFaultsTrap := by
  unfold Obligations.StackAccessFaultsTrap
  intro s stores loads
  refine ⟨fun hodd => ⟨?_, ?_⟩, fun heven hp hen => ⟨fun hlim => ?_, fun hlim => ?_, fun hlt hlim => ?_⟩⟩
  · exact push_and_call_trap fun v => storeWord_odd (bit0_sub_two_odd hodd) v
  · exact pop_and_ret_trap (loadWord_odd hodd)
  · exact push_and_call_trap fun v => storeWord_beyond hp hen hlim (bit0_sub_two heven) v
  · exact pop_and_ret_trap (loadWord_beyond hp hen hlim heven)
  · exact exec_reti_second_trap (loadWord_reached (physical_below hp hen hlt) heven)
      (loadWord_beyond (s := s.interleave .secondPop) hp hen hlim (bit0_add_two heven))

/-! ## Refusals -/

theorem inRom_of_range {p : Word} (hlow : 0xF000 ≤ p.toNat) (hhigh : p.toNat < 0xFFE0) : inRom p = true := by
  simp [inRom, hlow, hhigh]

/-- A refusal is the instruction's own, or that of an exception's entry. -/
theorem conclude_refused {s : State} {npc : Word} {x : Except Stop State} {r : Refusal}
    (h : conclude s npc x = .refused r) : x = .error (.refuse r) ∨ r = .trapEntry := by
  cases x with
  | ok t => cases h
  | error e =>
    cases e with
    | trap c =>
      right
      by_cases hroom : EntryRoom s
      · exact absurd ((enterTrap_of_room hroom c npc).symm.trans h) nofun
      · exact (Host.Outcome.refused.inj ((enterTrap_refused hroom c npc).symm.trans h)).symm
    | refuse r' => exact .inl (congrArg (fun q => Except.error (Stop.refuse q)) (Host.Outcome.refused.inj h))

theorem readReg_error {s : State} {r : Reg} {e : Stop} (h : readReg s r = .error e) : e = .refuse .registerF := by
  unfold readReg at h
  split at h
  · cases h
  · exact (Except.error.inj h).symm

theorem writeReg_error {s : State} {r : Reg} {v : Word} {e : Stop} (h : writeReg s r v = .error e) :
    e = .refuse .registerF := by
  unfold writeReg at h
  split at h
  · cases h
  · exact (Except.error.inj h).symm

/-- An address that is not let through raises an exception. -/
theorem physicalWord_not_refused (s : State) (a : Word) (r : Refusal) : physicalWord s a ≠ .error (.refuse r) := by
  unfold physicalWord physical
  split_ifs <;> simp

theorem loadWord_not_refused (s : State) (a : Word) (r : Refusal) : loadWord s a ≠ .error (.refuse r) :=
  fun h => physicalWord_not_refused s a r (except_map_error.1 h)

/-- A word store is refused in the ROM and nowhere else. -/
theorem storeWord_refused {s : State} {a v : Word} {r : Refusal} (h : storeWord s a v = .error (.refuse r)) :
    r = .romStore := by
  rcases except_bind_error.1 h with hp | ⟨p, -, hst⟩
  · exact absurd hp (physicalWord_not_refused s a r)
  · split at hst
    · exact (Stop.refuse.inj (Except.error.inj hst)).symm
    · cases hst

/-- Settles O53: of the steps of PUSH and POP only the first is refused by that name. -/
theorem pushAndPopRefuseTheStackPointer : Obligations.PushAndPopRefuseTheStackPointer := by
  unfold Obligations.PushAndPopRefuseTheStackPointer
  intro rd s
  rw [← home_eq_spHome]
  have hown : Reg.home s.flag.p rd = some s.spHome → notOwnSp s rd = .error (.refuse .ownStackPointer) := fun h =>
    notOwnSp_error.2 ⟨h, rfl⟩
  refine ⟨⟨fun h => ?push, fun h => ?_⟩, ⟨fun h => ?pop, fun h => ?_⟩⟩
  case push =>
    rcases except_bind_error.1 ((conclude_refused h).resolve_right nofun) with h | ⟨_, -, h⟩
    · exact (notOwnSp_error.1 h).1
    · rcases except_bind_error.1 h with h | ⟨v, -, h⟩
      · cases readReg_error h
      · rcases except_bind_error.1 h with h | ⟨t, -, h⟩
        · cases storeWord_refused (except_map_error.1 h)
        · cases h
  case pop =>
    rcases except_bind_error.1 ((conclude_refused h).resolve_right nofun) with h | ⟨_, -, h⟩
    · exact (notOwnSp_error.1 h).1
    · rcases except_bind_error.1 h with h | ⟨⟨v, t⟩, -, h⟩
      · exact absurd (except_map_error.1 h) (loadWord_not_refused s s.sp _)
      · rcases except_bind_error.1 h with h | ⟨u, -, h⟩
        · cases writeReg_error h
        · cases h
  · simp only [exec, execPush, hown h]
    rfl
  · simp only [exec, execPop, hown h]
    rfl

/-! ## IN and OUT by their one access -/

theorem portIn_of_isWord {p : IoEA} (h : IoEA.isWord p = true) (s : State) (a : BitVec 8) :
    portIn s a p = ioReadWord s a := by
  cases p with
  | direct d | indirect rx => rfl
  | byteIndirect rx => cases h

theorem portIn_of_isByte {p : IoEA} (h : IoEA.isWord p = false) (s : State) (a : BitVec 8) :
    portIn s a p = .ok ((ioReadByte s a).zeroExtend 16) := by
  cases p with
  | direct d | indirect rx => cases h
  | byteIndirect rx => rfl

theorem portOut_of_isWord {p : IoEA} (h : IoEA.isWord p = true) (s : State) (a : BitVec 8) (v : Word) :
    portOut s a v p = ioWriteWord s a v := by
  cases p with
  | direct d | indirect rx => rfl
  | byteIndirect rx => cases h

theorem portOut_of_isByte {p : IoEA} (h : IoEA.isWord p = false) (s : State) (a : BitVec 8) (v : Word) :
    portOut s a v p = .ok (ioWriteByte s a (loByte v)) := by
  cases p with
  | direct d | indirect rx => cases h
  | byteIndirect rx => rfl

section InOut

variable {s : State} {rd : Reg} {p : IoEA} {h : Home} {a : BitVec 8} (hpriv : s.flag.p = true ∨ s.flag.i = true)
  (hh : Reg.home s.flag.p rd = some h) (ha : ioAddress s p = .ok a)
include hpriv hh ha

/-- An IN that P or I allows comes to its read. -/
theorem exec_in_eq : exec (.inp rd p) s =
    conclude s (s.npc (IoEA.bytes p)) ((portIn s a p).map fun v => (s.put v h).setPc (s.npc (IoEA.bytes p))) := by
  have hneed := needIoPrivilege_ok.2 hpriv
  have hwrite : ∀ v, writeReg s rd v = .ok (s.put v h) := fun v => writeReg_ok.2 ⟨h, hh, rfl⟩
  simp only [exec, execIn, hneed, ha, bind, Except.bind]
  cases portIn s a p with
  | ok v => simp only [hwrite, Except.map]
  | error e => rfl

/-- An OUT that P or I allows comes to its write. -/
theorem exec_out_eq : exec (.out rd p) s =
    conclude s (s.npc (IoEA.bytes p)) ((portOut s a (s.get h) p).map (·.setPc (s.npc (IoEA.bytes p)))) := by
  have hneed := needIoPrivilege_ok.2 hpriv
  have hread : readReg s rd = .ok (s.get h) := readReg_ok.2 ⟨h, hh, rfl⟩
  simp only [exec, execOut, hneed, ha, hread, bind, Except.bind]
  cases portOut s a (s.get h) p <;> rfl

end InOut

/-! ## Refused by name -/

theorem storeWord_rom {s : State} {a p : Word} (h0 : a[0] = false) (hp : physical s a = .ok p) (hr : inRom p = true)
    (v : Word) : storeWord s a v = .error (.refuse .romStore) := by
  rw [storeWord_reached hp h0, hr]
  rfl

theorem memStore_rom {s : State} {m : MemEA} {a p : Word} (ha : memAddress s m = .ok a)
    (heven : MemEA.isWord m = true → a[0] = false) (hp : physical s a = .ok p) (hr : inRom p = true) (v : Word) :
    memStore s m v = .error (.refuse .romStore) := by
  cases hw : MemEA.isWord m with
  | true => exact (memStore_of_isWord hw ha v).trans (storeWord_rom (heven hw) hp hr v)
  | false => rw [memStore_of_isByte hw ha, storeByte_reached hp, if_pos hr]

theorem pairOf_refused {rd : Reg} (h : rd.headsPair = false) : pairOf rd = .error (.refuse .oddPair) := by
  have hnone : Reg.partner rd = none := by
    cases rd with
    | g n =>
      have hn : ¬ n.val % 2 = 0 := by simpa [Reg.headsPair] using h
      simp [Reg.partner, hn]
    | fp => cases h
    | sp | usp | pc => rfl
  rw [pairOf, hnone]

theorem aluIntoPair_refused {rd : Reg} (h : rd.headsPair = false) (f : Word → Word → Word → Except Stop PairResult)
    (ea : EA) (s : State) : aluIntoPair f rd ea s = .refused .oddPair := by
  rw [aluIntoPair, pairOf_refused h]
  rfl

/-- Settles O35: each refusal is that of one step, which nothing before it stops. -/
theorem romStoresBadPairsOddIoAndDoubleFaultsAreRefused :
    Obligations.RomStoresBadPairsOddIoAndDoubleFaultsAreRefused := by
  unfold Obligations.RomStoresBadPairsOddIoAndDoubleFaultsAreRefused
  refine ⟨fun rd m s a p hrd ha heven hp hlow hhigh => ?st, fun s p h0 hp hlow hhigh => ?stack,
    fun rd ea s hpair => ?pair, fun rd p s a hrd hpriv ha hw hodd => ?io, fun c spc s hroom => ?entry⟩
  case st =>
    obtain ⟨v, hv⟩ := readReg_of_ne_pc hrd s
    rw [exec_st_eq hv, memStore_rom ha heven hp (inRom_of_range hlow hhigh)]
    rfl
  case stack =>
    have hst := storeWord_rom (bit0_sub_two h0) hp (inRom_of_range hlow hhigh)
    refine ⟨fun rd h hh hne => ?_, fun tgt x hx => ?_⟩
    · rw [exec_push_eq hh hne, pushWord_error (hst _)]
      rfl
    · rw [exec_call_eq hx, pushWord_error (hst _)]
      rfl
  case pair => exact ⟨aluIntoPair_refused hpair _ ea s, aluIntoPair_refused hpair _ ea s⟩
  case io =>
    obtain ⟨h, hh⟩ := home_of_ne_pc hrd s.flag.p
    rw [exec_in_eq hpriv hh ha, exec_out_eq hpriv hh ha, portIn_of_isWord hw, portOut_of_isWord hw, ioReadWord,
      ioWriteWord, if_pos hodd, if_pos hodd]
    exact ⟨rfl, rfl⟩
  case entry =>
    refine enterTrap_refused ?_ c spc
    rintro ⟨h0, h2, h4⟩
    rcases hroom with h | h | h
    · exact absurd (h0.symm.trans h) nofun
    · exact absurd (h2.symm.trans h) nofun
    · exact absurd (h4.symm.trans h) nofun

end Sys2Proof.Machine
end

section
/-! PROOFS. IN, OUT and the port map (spec/45_io.md, spec/20_memory.md sections 4 and 5,
spec/60_exceptions.md section 7). -/

namespace Sys2Proof.Machine

/-! ## IN and OUT -/

/-- One cell of a row, as a number. -/
theorem toNat_ioReadByte (s : State) (a : BitVec 8) : ((ioReadByte s a).zeroExtend 16).toNat =
    if a[0] then (portRow s a).toNat % 2 ^ 8 else (portRow s a).toNat / 2 ^ 8 := by
  have := (portRow s a).isLt
  unfold ioReadByte
  split
  · simp [loByte, BitVec.extractLsb'_toNat]
    omega
  · simp [hiByte, BitVec.extractLsb'_toNat, Nat.shiftRight_eq_div_pow]
    omega

/-- Settles O57: IN's read, of a row or of a cell. -/
theorem inReadsThePort : Obligations.InReadsThePort := by
  unfold Obligations.InReadsThePort
  intro rd p s h a hpriv hh ha heven
  have hexec := exec_in_eq hpriv hh ha
  cases hw : IoEA.isWord p with
  | true =>
    have hin : portIn s a p = .ok (portRow s a) := (portIn_of_isWord hw s a).trans (ioReadWord_ok.2 ⟨heven hw, rfl⟩)
    rw [hin] at hexec
    exact ⟨_, hexec, fun _ => by simp, nofun, by simp, rfl, regFrame_put s _ _ h⟩
  | false =>
    rw [portIn_of_isByte hw] at hexec
    refine ⟨_, hexec, nofun, fun _ => ?_, by simp, rfl, regFrame_put s _ _ h⟩
    rw [State.get_setPc, State.get_put_same, toNat_ioReadByte]

/-- What an OUT leaves alone. -/
theorem portOut_frame {s t : State} {a : BitVec 8} {v : Word} {p : IoEA} (h : portOut s a v p = .ok t) (npc : Word) :
    (t.setPc npc).flag = s.flag ∧ SameRegs [] s (t.setPc npc) ∧ SameMem s (t.setPc npc) ∧ SameRun s (t.setPc npc) := by
  rw [portOut_eq h]
  exact ⟨rfl, fun k _ => by cases k <;> rfl, fun _ => rfl, ⟨rfl, rfl, rfl⟩⟩

/-- Settles O58: OUT's write, of a row or of a cell. -/
theorem outWritesThePort : Obligations.OutWritesThePort := by
  unfold Obligations.OutWritesThePort
  intro rd p s h a hpriv hh ha heven
  have hexec := exec_out_eq hpriv hh ha
  cases hw : IoEA.isWord p with
  | true =>
    have hout := (portOut_of_isWord hw s a (s.get h)).trans (ioWriteWord_ok.2 ⟨heven hw, rfl⟩)
    obtain ⟨hflag, hregs, hmem, hrun⟩ := portOut_frame hout (s.npc (IoEA.bytes p))
    rw [hout] at hexec
    exact ⟨_, hexec, fun _ => ⟨by simp, rfl, rfl⟩, nofun, hflag, rfl, hregs, hmem, hrun⟩
  | false =>
    have hout := portOut_of_isByte hw s a (s.get h)
    obtain ⟨hflag, hregs, hmem, hrun⟩ := portOut_frame hout (s.npc (IoEA.bytes p))
    rw [hout] at hexec
    exact ⟨_, hexec, nofun, fun _ => ⟨by simp [ioWriteByte], rfl, rfl⟩, hflag, rfl, hregs, hmem, hrun⟩

/-! ## The fields of the control ports -/

/-- The two cells of a 16-bit register, written one after the other. -/
theorem withLo_withHi (w v : Word) : withLo (withHi w (hiByte v)) (loByte v) = v := by
  rw [withLo, withHi, hiByte_joinBytes, joinBytes_hiByte_loByte]

theorem lowPort_loByte (v : Word) : lowPort (loByte v) = v &&& 0x00FF := by
  refine BitVec.eq_of_toNat_eq ?_
  rw [BitVec.toNat_and]
  have h := Nat.and_two_pow_sub_one_eq_mod v.toNat 8
  simp [lowPort, loByte, BitVec.extractLsb'_toNat] at h ⊢
  omega

/-- A byte in the "+1" cell leaves the "+0" cell 00h. -/
theorem lowPort_and_hi (v : Byte) : lowPort v &&& 0xFF00 = 0 := by
  revert v
  decide

theorem getElem_loByte (v : Word) {k : Nat} (h : k < 8) : (loByte v)[k] = v[k] := by
  simp [loByte, ← BitVec.getLsbD_eq_getElem, h]

theorem getElem_hiByte (v : Word) {k : Nat} (h : k < 8) : (hiByte v)[k] = v[k + 8] := by
  simp [hiByte, ← BitVec.getLsbD_eq_getElem, Nat.add_comm, h]

/-- A word OUT to a row writes its two cells. -/
theorem ioWriteWord_even {s : State} {v : Word} (a : BitVec 8) (h : a[0] = false) {q : State → Prop}
    (hq : q ((writeCell (writeCell s a (hiByte v)) (a + 1) (loByte v)).record (.word a v))) :
    ∃ t, ioWriteWord s a v = .ok t ∧ q t :=
  ⟨_, ioWriteWord_ok.2 ⟨h, rfl⟩, hq⟩

/-- Settles O59: row by row, the cells of the row write the fields of its layout. -/
theorem controlPortsSetTheirFields : Obligations.ControlPortsSetTheirFields := by
  unfold Obligations.ControlPortsSetTheirFields
  intro s v out
  have lo : ∀ {k : Nat} (h : k < 8), (loByte v)[k] = v[k] := getElem_loByte v
  have hi : (hiByte v)[7] = v[15] := getElem_hiByte v (by decide)
  have both : ∀ w : Word, withLo (withHi w (hiByte v)) (loByte v) = v := fun w => withLo_withHi w v
  refine ⟨?mmuEn, ?mmuBase, ?mmuLimit, ?period0, ?control0, ?period1, ?control1, ?ft232rl, ?tec, ?rn4020, ?usd, ?memAddr,
    ?blkAddrH, ?blkAddrL, ?rnRam, lowPort_and_hi _, rfl, rfl, rfl⟩
  case mmuEn =>
    exact ioWriteWord_even 0xF0 (by decide) ⟨congrArg (fun b => { s.mmu with en := b }) (lo (by decide)), rfl⟩
  case mmuBase =>
    exact ioWriteWord_even 0xF4 (by decide) ⟨congrArg (fun w => { s.mmu with base := w }) (both s.mmu.base), rfl⟩
  case mmuLimit =>
    exact ioWriteWord_even 0xF6 (by decide) ⟨congrArg (fun w => { s.mmu with limit := w }) (both s.mmu.limit), rfl⟩
  case period0 =>
    exact ioWriteWord_even 0x00 (by decide)
      ⟨congrArg (fun w => { s.dev.timer0 with period := w }) (both s.dev.timer0.period), rfl⟩
  case control0 =>
    exact ioWriteWord_even 0x02 (by decide)
      ⟨congrArg₂ (fun i b => { s.dev.timer0 with intEna := i, start := b }) hi (lo (by decide)), rfl⟩
  case period1 =>
    exact ioWriteWord_even 0x04 (by decide)
      ⟨congrArg (fun w => { s.dev.timer1 with period := w }) (both s.dev.timer1.period), rfl⟩
  case control1 =>
    exact ioWriteWord_even 0x06 (by decide)
      ⟨congrArg₂ (fun i b => { s.dev.timer1 with intEna := i, start := b }) hi (lo (by decide)), rfl⟩
  case ft232rl =>
    exact ioWriteWord_even 0x0A (by decide)
      (congrArg₂ (fun t r => { s.dev.ft232rl with txIntEna := t, rxIntEna := r }) (lo (by decide)) (lo (by decide)))
  case tec =>
    exact ioWriteWord_even 0x0E (by decide)
      (congrArg₂ (fun t r => { s.dev.tec with txIntEna := t, rxIntEna := r }) (lo (by decide)) (lo (by decide)))
  case rn4020 =>
    exact ioWriteWord_even 0x2A (by decide)
      (congrArg₂ (fun t r => { s.dev.rn4020 with txIntEna := t, rxIntEna := r }) (lo (by decide)) (lo (by decide)))
  case usd =>
    exact ioWriteWord_even 0x10 (by decide) ⟨lo (by decide), lo (by decide), lo (by decide), lo (by decide)⟩
  case memAddr =>
    exact ioWriteWord_even 0x12 (by decide)
      (congrArg (fun w => { s.dev.usd with memAddr := w }) (both s.dev.usd.memAddr))
  case blkAddrH =>
    exact ioWriteWord_even 0x14 (by decide)
      (congrArg (fun w => { s.dev.usd with blkAddrH := w }) (both s.dev.usd.blkAddrH))
  case blkAddrL =>
    exact ioWriteWord_even 0x16 (by decide)
      (congrArg (fun w => { s.dev.usd with blkAddrL := w }) (both s.dev.usd.blkAddrL))
  case rnRam => exact ioWriteWord_even 0x2E (by decide) (lowPort_loByte v)

/-! ## Fixed bits -/

theorem portRow_empty (s : State) {a : BitVec 8} (hlow : 0x38 ≤ a.toNat) (hhigh : a.toNat ≤ 0xEF) : portRow s a = 0 := by
  unfold portRow
  split
  case h_32 => rfl
  all_goals omega

theorem writeCell_empty (s : State) {a : BitVec 8} (hlow : 0x38 ≤ a.toNat) (hhigh : a.toNat ≤ 0xEF) (v : Byte) :
    writeCell s a v = s := by
  unfold writeCell
  split
  case h_37 => rfl
  all_goals omega

/-- Stat of a serial device has its two highest bits alone. -/
theorem serial_stat_and (d : Serial) : lowPort d.stat &&& 0xFF3F = 0 := by
  unfold Serial.stat
  generalize d.txReady = t, d.rxReady = r
  revert t r
  decide

theorem usd_stat_and (d : Usd) : lowPort d.stat &&& 0xFF3E = 0 := by
  unfold Usd.stat
  generalize d.idle = i, d.error = e, d.card = c
  revert i e c
  decide

theorem lowPort_nibble_and (x : BitVec 4) : lowPort (0#4 ++ x) &&& 0xFFF0 = 0 := by
  revert x
  decide

theorem lowPort_five_bits_and (x : BitVec 5) : lowPort (0#3 ++ x) &&& 0xFFE0 = 0 := by
  revert x
  decide

/-- Settles O60: by the layout of each row. -/
theorem fixedPortBitsReadAsTheSpecSays : Obligations.FixedPortBitsReadAsTheSpecSays := by
  unfold Obligations.FixedPortBitsReadAsTheSpecSays
  intro s
  refine ⟨rfl, fun a hlow hhigh => ⟨portRow_empty s hlow hhigh, writeCell_empty s hlow hhigh⟩, fun a ha => ?low,
    fun a ha => ?stat, usd_stat_and _, lowPort_nibble_and _, lowPort_five_bits_and _, lowPort_nibble_and _, rfl, rfl⟩
  case low =>
    simp only [List.mem_cons, List.not_mem_nil, or_false] at ha
    rcases ha with rfl | rfl | rfl | rfl | rfl | rfl | rfl | rfl | rfl | rfl <;> exact lowPort_and_hi _
  case stat =>
    simp only [List.mem_cons, List.not_mem_nil, or_false] at ha
    rcases ha with rfl | rfl | rfl <;> exact serial_stat_and _

end Sys2Proof.Machine
end
